-- ==== Sys2Proof/Word.lean ====
section
/-! DEFINITION. The word types of the machine (00_scope.md R11, R12). -/

namespace Sys2Proof

/-- R11: an unsigned 8-bit value. -/
abbrev Byte := BitVec 8

/-- R11: an unsigned 32-bit value (`Word32`). -/
abbrev Word := BitVec 32

/-- R12: `Bytes(16)`, byte 0 first: a key, a counter block or a data block. -/
abbrev Block := Vector Byte 16

end Sys2Proof
end

