-- ==== Sys2Proof/Config.lean ====
section
/-! DEFINITION. What is fixed for one machine (the parameters of 00_scope.md R8) and the free values.

The sources give no value for the OPEN parameters: "the model takes the value as an argument" (R8). They stand in the
field `cfg` of the state, which no step changes, so a statement about every state holds for every choice of them. The two
parameters that are functions, and the free values, are constants without a body. -/

namespace Sys2Proof

/-- 10_state.md R33, R34: the peripheral registers that hold a stored word. -/
inductive PReg where
  | sysClkEn | sysRstEn
  | dmaInConf0 | dmaOutConf0 | dmaInLink | dmaOutLink | dmaInPeriSel | dmaOutPeriSel
  | aesDmaEnable | aesIntEna | aesMode
  | aesKey0 | aesKey1 | aesKey2 | aesKey3
  | aesBlockMode | aesBlockNum | aesIncSel
  | aesIv0 | aesIv1 | aesIv2 | aesIv3
  | aesTrigger | aesDmaExit
  deriving DecidableEq, Repr

/-- One word for each register of `PReg`: the stored values (R34), and the bus addresses (R32). -/
structure RegTable where
  sysClkEn : Word
  sysRstEn : Word
  dmaInConf0 : Word
  dmaOutConf0 : Word
  dmaInLink : Word
  dmaOutLink : Word
  dmaInPeriSel : Word
  dmaOutPeriSel : Word
  aesDmaEnable : Word
  aesIntEna : Word
  aesMode : Word
  aesKey0 : Word
  aesKey1 : Word
  aesKey2 : Word
  aesKey3 : Word
  aesBlockMode : Word
  aesBlockNum : Word
  aesIncSel : Word
  aesIv0 : Word
  aesIv1 : Word
  aesIv2 : Word
  aesIv3 : Word
  aesTrigger : Word
  aesDmaExit : Word
  deriving DecidableEq, Repr

/-- `P_ADDR_<reg>`: the bus addresses of the stored registers and of the three registers whose reads are
computed (R33). The DMA addresses are those of channel `P_DMA_CH` (R32). -/
structure AddrMap where
  stored : RegTable
  aesState : Word
  dmaInfifoStatus : Word
  dmaOutfifoStatus : Word
  deriving DecidableEq, Repr

/-- `P_BIT_<field>`: bit positions of the single-bit fields (R32, R33). -/
structure BitMap where
  aesClk : Fin 32
  dmaClk : Fin 32
  aesRst : Fin 32
  dsRst : Fin 32
  dmaRst : Fin 32
  inRst : Fin 32
  outRst : Fin 32
  inStart : Fin 32
  outStart : Fin 32
  deriving DecidableEq, Repr

/-- `P_VAL_<name>`: the register values of R8. -/
structure ValMap where
  periAes : Word
  modeEnc128 : Word
  blockModeCtr : Word
  incSelInc32 : Word
  dmaEnableOn : Word
  intEnaOff : Word
  trigger : Word
  dmaExit : Word
  stateIdle : Word
  stateWork : Word
  stateDone : Word
  deriving DecidableEq, Repr

/-- `P_POLL_LIMIT`: failed reads after which a poll times out (R8). -/
inductive PollLimit where
  | unbounded
  | bounded (n : Word)
  deriving DecidableEq, Repr

/-- `P_DESC_DONE_MODE`: the completion predicate of the descriptor poll (R8, 90_conflicts.md C1). -/
inductive DoneMode where
  | and
  | or
  deriving DecidableEq, Repr

/-- `P_BUF_ALIGN`: 1, 2 or 4 (R8). -/
inductive BufAlign where
  | one
  | two
  | four
  deriving DecidableEq, Repr

/-- One range of byte addresses of `P_DMA_REGION`: `base .. base + size - 1`. -/
structure Region where
  base : Nat
  size : Nat
  deriving DecidableEq, Repr

/-- The six parameters a profile fixes (R9). -/
structure Checks where
  checkZero : Bool
  checkLength : Bool
  pollLimit : PollLimit
  doneMode : DoneMode
  checkErrEof : Bool
  fifoCheck : Bool
  deriving DecidableEq, Repr

/-- The implementation parameters of R8. -/
structure Params where
  dmaNch : Nat
  dmaCh : Nat
  descOut : Word
  descIn : Word
  linkMask : Word
  linkBase : Word
  periMask : Word
  addr : AddrMap
  bits : BitMap
  vals : ValMap
  checks : Checks
  outWrback : Bool
  dmaErrors : Bool
  bufAlign : BufAlign
  dmaRegion : List Region
  deriving DecidableEq, Repr

/-- `P_PROFILE` (R8, R9). -/
inductive Profile where
  | reimpl
  | source
  deriving DecidableEq, Repr

/-- R9: the six parameters as the profile fixes them; REIMPL leaves the finite poll limit open. -/
def Profile.checks (limit : Word) : Profile → Checks
  | .reimpl => ⟨true, true, .bounded limit, .and, true, true⟩
  | .source => ⟨false, false, .unbounded, .or, false, false⟩

/-- R9: `c` behaves as profile REIMPL, for some finite poll limit. -/
def Checks.isReimpl (c : Checks) : Bool :=
  match c with
  | ⟨true, true, .bounded _, .and, true, true⟩ => true
  | _ => false

/-- R9: `c` behaves as profile SOURCE. -/
def Checks.isSource (c : Checks) : Bool := c == Profile.source.checks 0

/-- The candidate parameters of 93_implementation_defined.md I-20 and I-21 with the values of
95_test_vectors.md (PRESUMED, log 1): the ones `State.reset` carries. No rule depends on them. -/
def Params.candidate : Params where
  dmaNch := 3
  dmaCh := 0
  descOut := 0x3FC80110
  descIn := 0x3FC80100
  linkMask := 0x000FFFFF
  linkBase := 0x3FC00000
  periMask := 0x3F
  addr :=
    { stored :=
        { sysClkEn := 0x600C0014, sysRstEn := 0x600C001C,
          dmaInConf0 := 0x6003F070, dmaOutConf0 := 0x6003F0D0,
          dmaInLink := 0x6003F080, dmaOutLink := 0x6003F0E0,
          dmaInPeriSel := 0x6003F0A0, dmaOutPeriSel := 0x6003F100,
          aesDmaEnable := 0x6003A090, aesIntEna := 0x6003A0B0, aesMode := 0x6003A040,
          aesKey0 := 0x6003A000, aesKey1 := 0x6003A004, aesKey2 := 0x6003A008, aesKey3 := 0x6003A00C,
          aesBlockMode := 0x6003A094, aesBlockNum := 0x6003A098, aesIncSel := 0x6003A09C,
          aesIv0 := 0x6003A050, aesIv1 := 0x6003A054, aesIv2 := 0x6003A058, aesIv3 := 0x6003A05C,
          aesTrigger := 0x6003A048, aesDmaExit := 0x6003A0B8 },
      aesState := 0x6003A04C, dmaInfifoStatus := 0x6003F078, dmaOutfifoStatus := 0x6003F0D8 }
  bits := { aesClk := 1, dmaClk := 6, aesRst := 1, dsRst := 4, dmaRst := 6,
            inRst := 0, outRst := 0, inStart := 22, outStart := 21 }
  vals := { periAes := 6, modeEnc128 := 0, blockModeCtr := 3, incSelInc32 := 0, dmaEnableOn := 1,
            intEnaOff := 0, trigger := 1, dmaExit := 1, stateIdle := 0, stateWork := 1, stateDone := 2 }
  checks := Profile.reimpl.checks 3
  outWrback := true
  dmaErrors := true
  bufAlign := .four
  dmaRegion := [⟨0x3FC80000, 0x60000⟩]

/-- 10_state.md R47: `aes.st`. -/
inductive AesSt where
  | idle
  | work
  | done
  deriving DecidableEq, Repr

/-- 44_autonomous_units.md R231: what an agent may do while `s.chaos = 1`, in addition to its moves. -/
inductive ChaosMove where
  /-- the AES sets `aes.st` to any value -/
  | aesState (st : AesSt)
  /-- the AES adds drawn bytes to, or removes bytes from, `QIN`: the queue becomes `q` (log 18) -/
  | aesQin (q : List Byte)
  /-- the same for `QOUT` -/
  | aesQout (q : List Byte)
  /-- DIN writes a drawn byte at `din.buf + off`, `off < size(din.w0)` -/
  | dinByte (off : Nat) (b : Byte)
  /-- DIN writes a drawn word to `din.desc` -/
  | dinWord (w : Word)
  /-- DOUT stops -/
  | doutStop
  deriving DecidableEq, Repr

/-- Whose turn a step is, with the choices the spec leaves free to that agent (00_scope.md R15, 44_autonomous_units.md
R200, R231, R232). A turn whose move has its guard false changes nothing (log 23). -/
inductive Turn where
  /-- SEQ executes one micro-op (43_orchestrator.md R172) -/
  | seq
  /-- DOUT takes its enabled move (R204 to R206) -/
  | dout
  /-- DIN takes its enabled move other than the error end (R209 to R211) -/
  | din
  /-- DIN takes the error end (R212) -/
  | dinError
  /-- AES takes its enabled move (R214, R215) -/
  | aes
  /-- a chaos move (R231) -/
  | chaos (m : ChaosMove)
  /-- HOST asks for a run (43_orchestrator.md R170, R171) -/
  | start (key iv : Block) (pt ct bc : Word)
  /-- HOST stores one byte to memory (20_memory.md R69, within 43_orchestrator.md R199); the width is the model's (DESIGN
  CHOICE, log 35) -/
  | store (a : Word) (b : Byte)
  /-- the system reset (70_reset_and_hazards.md R270) -/
  | systemReset
  deriving DecidableEq, Repr, Inhabited

namespace Config

/-- `AES128`, the AES-128 forward cipher: a configuration function (00_scope.md R16, 92_eei_decisions.md D19; log 3). -/
opaque aes128 : Block → Block → Block

/-- `P_FIFO_FAULT`, the FIFO-status fault predicate (R8; log 4). -/
opaque fifoFault : Word → Word → Bool

/-- `draw v : Word32` (R13): the n-th free word (log 5). -/
opaque drawWord : Nat → Word

/-- The memory contents drawn at the n-th draw, for a system reset event (10_state.md R55; log 10). -/
opaque drawMem : Nat → List Host.Cell

/-- Whose turn it is at the n-th draw, where the script is empty (R232; log 6). -/
opaque drawTurn : Nat → Turn

end Config

end Sys2Proof
end

