-- ==== Sys2Proof/Syntax.lean ====
section
/-! DEFINITION. The micro-ops of the sequencer: one constructor per row of spec/opcode_table.json
(30_encoding.md R93). No micro-op has an operand but the register index of `aes.key` and `aes.iv` (R92). -/

namespace Sys2Proof

inductive Instr where
  | chkLen | chkDma
  | clkEn | clkRstclr
  | dscOutW0 | dscOutW1 | dscOutW2
  | dscInW0 | dscInW1 | dscInW2
  | dmaInRstSet | dmaInRstClr | dmaOutRstSet | dmaOutRstClr
  | dmaInLink | dmaOutLink
  | dmaInPeri | dmaOutPeri
  | dmaInStart | dmaOutStart
  | aesDmaen | aesIntdis | aesMode | aesBlkmode
  /-- `aes.key i` -/
  | aesKey (i : Nat)
  | aesBlknum | aesIncsel | aesTrigger
  /-- `aes.iv i` -/
  | aesIv (i : Nat)
  | pollAes | pollDesc
  | relExit
  deriving DecidableEq, Repr, Inhabited

/-- Why the decoder rejects a byte: the code is reserved (30_encoding.md R94). -/
inductive DecodeError where
  | reservedCode (u : Byte)
  deriving DecidableEq, Repr

end Sys2Proof
end

