-- ==== Sys2Proof/WellFormed.lean ====
section
/-! DEFINITION. Well-formed instructions and the configuration check (20_memory.md R65: a parameter set that breaks the
spec's constraints "is refused by the model's configuration check"). -/

namespace Sys2Proof

/-- R92: the index of `aes.key` and `aes.iv` is one of 0, 1, 2, 3. -/
def Instr.wf : Instr → Bool
  | .aesKey i | .aesIv i => decide (i < 4)
  | _ => true

/-- R32: every register address, in the order of R33. -/
def AddrMap.all (m : AddrMap) : List Word :=
  let r := m.stored
  [r.sysClkEn, r.sysRstEn, r.dmaInConf0, r.dmaOutConf0, r.dmaInLink, r.dmaOutLink, r.dmaInPeriSel,
    r.dmaOutPeriSel, m.dmaInfifoStatus, m.dmaOutfifoStatus] ++
  [r.aesDmaEnable, r.aesIntEna, r.aesMode, r.aesKey0, r.aesKey1, r.aesKey2, r.aesKey3, r.aesBlockMode,
    r.aesBlockNum, r.aesIncSel, r.aesIv0, r.aesIv1, r.aesIv2, r.aesIv3, r.aesTrigger, m.aesState, r.aesDmaExit]

/-- No word stands twice in the list. -/
def pairwiseDistinct : List Word → Bool
  | [] => true
  | a :: rest => rest.all (fun b => a != b) && pairwiseDistinct rest

namespace Params

/-- `a` is one of the byte addresses of `P_DMA_REGION`. -/
def inRegion (p : Params) (a : Nat) : Bool :=
  p.dmaRegion.any fun r => decide (r.base ≤ a) && decide (a < r.base + r.size)

/-- The n bytes from `a` all lie in `P_DMA_REGION`. -/
def rangeInRegion (p : Params) (a n : Nat) : Bool :=
  (List.range n).all fun j => p.inRegion (a + j)

/-- R8: `P_DMA_NCH ≥ 1`, `P_DMA_CH` in `0 .. P_DMA_NCH - 1`. -/
def channelOk (p : Params) : Bool := decide (p.dmaCh < p.dmaNch)

/-- R8, R65: the descriptor addresses are multiples of 4. -/
def descAligned (p : Params) : Bool := p.descOut.toNat % 4 == 0 && p.descIn.toNat % 4 == 0

/-- R32, R65: the register addresses are multiples of 4. -/
def addrAligned (p : Params) : Bool := p.addr.all.all fun a => a.toNat % 4 == 0

/-- R32, R73: the register addresses are pairwise distinct. -/
def addrDistinct (p : Params) : Bool := pairwiseDistinct p.addr.all

/-- R8: `P_DMA_REGION` is a set of 32-bit addresses. -/
def regionInSpace (p : Params) : Bool := p.dmaRegion.all fun r => decide (r.base + r.size ≤ 2 ^ 32)

/-- R73: both descriptor ranges lie inside `P_DMA_REGION`. -/
def descInRegion (p : Params) : Bool :=
  p.rangeInRegion p.descOut.toNat 12 && p.rangeInRegion p.descIn.toNat 12

/-- R41, R73: the two 12-byte descriptor ranges are disjoint. -/
def descDisjoint (p : Params) : Bool :=
  decide (p.descOut.toNat + 12 ≤ p.descIn.toNat) || decide (p.descIn.toNat + 12 ≤ p.descOut.toNat)

/-- R32: the register words are disjoint from `P_DMA_REGION` (and so from the descriptors, R41, R73). -/
def addrOutsideRegion (p : Params) : Bool :=
  p.addr.all.all fun a => (List.range 4).all fun j => !p.inRegion (a.toNat + j)

/-- R73: each descriptor address `d` satisfies `(d & ~P_LINK_ADDR_MASK) = P_LINK_BASE`. -/
def linkOk (p : Params) : Bool :=
  p.descOut &&& ~~~p.linkMask == p.linkBase && p.descIn &&& ~~~p.linkMask == p.linkBase

/-- The start bits lie outside the link-address field (DEDUCED from R135, "Side effect: none"; log 12). -/
def startOutsideMask (p : Params) : Bool :=
  !p.linkMask.getLsbD p.bits.inStart && !p.linkMask.getLsbD p.bits.outStart

/-- R137: `P_VAL_PERI_AES` is "a value positioned inside `P_PERI_SEL_MASK`". -/
def periInsideMask (p : Params) : Bool := p.vals.periAes &&& ~~~p.periMask == 0

/-- R8: the three STATE values are pairwise distinct. -/
def stateValsDistinct (p : Params) : Bool :=
  pairwiseDistinct [p.vals.stateIdle, p.vals.stateWork, p.vals.stateDone]

/-- R8: `P_POLL_LIMIT` is in `1 .. 2^32 - 1`, or `UNBOUNDED`. -/
def pollLimitOk (p : Params) : Bool :=
  match p.checks.pollLimit with
  | .unbounded => true
  | .bounded n => n != 0

/-- The model's configuration check (R65). -/
def wf (p : Params) : Bool :=
  p.channelOk && (p.descAligned && (p.addrAligned && (p.addrDistinct && (p.regionInSpace && (p.descInRegion &&
    (p.descDisjoint && (p.addrOutsideRegion && (p.linkOk && (p.startOutsideMask && (p.periInsideMask &&
      (p.stateValsDistinct && p.pollLimitOk)))))))))))

end Params

end Sys2Proof
end

