-- ==== Sys2Proof/Decode.lean ====
section
/-! DEFINITION. Decoding (30_encoding.md R90 to R94, R100), the encoder written from the same table, and the ROM (R96). -/

namespace Sys2Proof

/-- One row of R93. -/
structure OpRow where
  code : Byte
  mask : Byte
  make : Nat → Instr

/-- R93, the groups `chk`, `clk` and `dsc`. -/
def rowsChkClkDsc : List OpRow :=
  [⟨0x00, 0xFF, fun _ => .chkLen⟩, ⟨0x01, 0xFF, fun _ => .chkDma⟩,
   ⟨0x20, 0xFF, fun _ => .clkEn⟩, ⟨0x21, 0xFF, fun _ => .clkRstclr⟩,
   ⟨0x40, 0xFF, fun _ => .dscOutW0⟩, ⟨0x41, 0xFF, fun _ => .dscOutW1⟩, ⟨0x42, 0xFF, fun _ => .dscOutW2⟩,
   ⟨0x44, 0xFF, fun _ => .dscInW0⟩, ⟨0x45, 0xFF, fun _ => .dscInW1⟩, ⟨0x46, 0xFF, fun _ => .dscInW2⟩]

/-- R93, the group `dma`. -/
def rowsDma : List OpRow :=
  [⟨0x60, 0xFF, fun _ => .dmaInRstSet⟩, ⟨0x61, 0xFF, fun _ => .dmaInRstClr⟩,
   ⟨0x62, 0xFF, fun _ => .dmaOutRstSet⟩, ⟨0x63, 0xFF, fun _ => .dmaOutRstClr⟩,
   ⟨0x64, 0xFF, fun _ => .dmaInLink⟩, ⟨0x65, 0xFF, fun _ => .dmaOutLink⟩,
   ⟨0x66, 0xFF, fun _ => .dmaInPeri⟩, ⟨0x67, 0xFF, fun _ => .dmaOutPeri⟩,
   ⟨0x68, 0xFF, fun _ => .dmaInStart⟩, ⟨0x69, 0xFF, fun _ => .dmaOutStart⟩]

/-- R93, the groups `aes`, `poll` and `rel`. -/
def rowsAesPollRel : List OpRow :=
  [⟨0x80, 0xFF, fun _ => .aesDmaen⟩, ⟨0x81, 0xFF, fun _ => .aesIntdis⟩, ⟨0x82, 0xFF, fun _ => .aesMode⟩,
   ⟨0x83, 0xFF, fun _ => .aesBlkmode⟩, ⟨0x84, 0xFC, .aesKey⟩,
   ⟨0x88, 0xFF, fun _ => .aesBlknum⟩, ⟨0x89, 0xFF, fun _ => .aesIncsel⟩, ⟨0x8A, 0xFF, fun _ => .aesTrigger⟩,
   ⟨0x8C, 0xFC, .aesIv⟩,
   ⟨0xA0, 0xFF, fun _ => .pollAes⟩, ⟨0xA1, 0xFF, fun _ => .pollDesc⟩, ⟨0xC0, 0xFF, fun _ => .relExit⟩]

/-- R93: the complete opcode map. -/
def opRows : List OpRow := rowsChkClkDsc ++ rowsDma ++ rowsAesPollRel

/-- R93: "a decoder matches `u & mask = code`". -/
def OpRow.matches (r : OpRow) (u : Byte) : Bool := u &&& r.mask == r.code

/-- R90, R92: the register index `u[1:0]`. -/
def indexOf (u : Byte) : Nat := (u.extractLsb' 0 2).toNat

/-- R100: the decoding procedure, total on every byte. -/
def decode (u : Byte) : Except DecodeError Instr :=
  match opRows.find? (·.matches u) with
  | some r => .ok (r.make (indexOf u))
  | none => .error (.reservedCode u)

/-- R93: the code of a well-formed instruction, from the same table. -/
def encode : Instr → Byte
  | .chkLen => 0x00 | .chkDma => 0x01
  | .clkEn => 0x20 | .clkRstclr => 0x21
  | .dscOutW0 => 0x40 | .dscOutW1 => 0x41 | .dscOutW2 => 0x42
  | .dscInW0 => 0x44 | .dscInW1 => 0x45 | .dscInW2 => 0x46
  | .dmaInRstSet => 0x60 | .dmaInRstClr => 0x61 | .dmaOutRstSet => 0x62 | .dmaOutRstClr => 0x63
  | .dmaInLink => 0x64 | .dmaOutLink => 0x65 | .dmaInPeri => 0x66 | .dmaOutPeri => 0x67
  | .dmaInStart => 0x68 | .dmaOutStart => 0x69
  | .aesDmaen => 0x80 | .aesIntdis => 0x81 | .aesMode => 0x82 | .aesBlkmode => 0x83
  | .aesKey i => 0x84 ||| BitVec.ofNat 8 (i % 4)
  | .aesBlknum => 0x88 | .aesIncsel => 0x89 | .aesTrigger => 0x8A
  | .aesIv i => 0x8C ||| BitVec.ofNat 8 (i % 4)
  | .pollAes => 0xA0 | .pollDesc => 0xA1
  | .relExit => 0xC0

/-- The instruction the decoder reads from a table row's word: one byte, so `nbits` is 8 and `w` is that byte. -/
def decodeTableWord (nbits w : Nat) : Option Instr :=
  if nbits == 8 && decide (w < 256) then (decode (BitVec.ofNat 8 w)).toOption else none

/-- R96: the ROM, indexed by `upc`. -/
def seqRom : List Byte :=
  [0x00, 0x20, 0x21, 0x40, 0x41, 0x42, 0x44, 0x45, 0x46] ++
  [0x60, 0x61, 0x62, 0x63, 0x64, 0x65, 0x66, 0x67, 0x68, 0x69] ++
  [0x80, 0x81, 0x82, 0x84, 0x85, 0x86, 0x87, 0x83, 0x88, 0x89, 0x8C, 0x8D, 0x8E, 0x8F, 0x8A] ++
  [0xA0, 0xA1, 0x01, 0xC0]

end Sys2Proof
end

