-- ==== Sys2Proof/Machine/State.lean ====
section
/-! DEFINITION. The state of the machine (10_state.md R20): the sequencer, the peripheral register file, the agents, the
memory and the model fault set; the parameters of the machine; and the model's own fields (`aux`). -/

namespace Sys2Proof.Machine

/-- 10_state.md R21: the names of the fourteen session registers. -/
inductive XReg where
  | key0 | key1 | key2 | key3
  | iv0 | iv1 | iv2 | iv3
  | pt | ct | bc | pollcnt | dw0 | tmp
  deriving DecidableEq, Repr

/-- R21, R22: a session register, and whether it has been written since reset. -/
structure XCell where
  val : Word
  written : Bool
  deriving DecidableEq, Repr

/-- R21: the session register file. -/
structure Session where
  key0 : XCell
  key1 : XCell
  key2 : XCell
  key3 : XCell
  iv0 : XCell
  iv1 : XCell
  iv2 : XCell
  iv3 : XCell
  pt : XCell
  ct : XCell
  bc : XCell
  pollcnt : XCell
  dw0 : XCell
  tmp : XCell
  deriving DecidableEq, Repr

/-- R25: `s.state`. The codes 9 to 15 are never taken. -/
inductive SeqState where
  | idle | clockEnabled | dmaArmed | keyProgrammed | triggered | awaitingDma | done | released | error
  deriving DecidableEq, Repr

/-- R28: `s.status`. -/
inductive Status where
  | ok | invalidLength | hwTimeout | dmaFault
  deriving DecidableEq, Repr

/-- 60_exceptions.md R240: the three architectural exceptions. -/
inductive Exc where
  | invalidLength | hardwareTimeout | dmaFault
  deriving DecidableEq, Repr

/-- R23, R24: the micro-program counter and the control fields of the sequencer. -/
structure Control where
  upc : BitVec 6
  state : SeqState
  busy : Bool
  status : Status
  errinfo : BitVec 2
  eupc : BitVec 6
  chaos : Bool
  deriving DecidableEq, Repr

/-- R30, R245: the model fault set `F`, one bit per name. -/
structure FaultSet where
  unwrittenRead : Bool
  reentry : Bool
  reservedUop : Bool
  deriving DecidableEq, Repr

/-- R45: `dout.st`. -/
inductive DoutSt where
  | idle | fetch | send | wb
  deriving DecidableEq, Repr

/-- R46: `din.st`. No rule enters WB. -/
inductive DinSt where
  | idle | fetch | recv | wb
  deriving DecidableEq, Repr

/-- R45: the DMA-out agent; `k` is the number of bytes sent, 0 to 4095. -/
structure Dout where
  st : DoutSt
  desc : Word
  w0 : Word
  buf : Word
  k : BitVec 12
  deriving DecidableEq, Repr

/-- R46: the DMA-in agent; `k` is the number of bytes received, 0 to 4095. -/
structure Din where
  st : DinSt
  desc : Word
  w0 : Word
  buf : Word
  k : BitVec 12
  deriving DecidableEq, Repr

/-- R47: the AES core: `aes.K`, `aes.C`, `aes.n`, `aes.i`. -/
structure Aes where
  st : AesSt
  key : Block
  ctr : Block
  n : Word
  i : Word
  deriving DecidableEq, Repr

/-- R45 to R48: the three agents, the two byte queues (head first) and the end-of-frame flag. -/
structure Units where
  dout : Dout
  din : Din
  aes : Aes
  qin : List Byte
  qout : List Byte
  qoutEof : Bool
  deriving DecidableEq, Repr

/-- 10_state.md R50: memory, as the list of the bytes that differ from `memDefault`, in rising order of address. -/
abbrev Memory := List Host.Cell

/-- What an unlisted byte of memory reads as (R55 gives no value: DESIGN CHOICE, unsafe, log 10). -/
def memDefault : Byte := 0x00

/-- The canonical form of a memory: addresses strictly rising, no entry equal to what an unlisted byte reads as. -/
abbrev Memory.wf (m : Memory) : Prop :=
  m.Pairwise (fun p q => p.1 < q.1) ∧ ∀ c ∈ m, c.2 ≠ memDefault

/-- A transaction of the sequencer (00_scope.md R13), at a byte address. Read values are not kept (R273). -/
inductive BusEvent where
  | read (a : Nat)
  | write (a : Nat) (v : Word)
  deriving DecidableEq, Repr

/-- The model's own fields: the index of the next free value (log 5), whose turn comes next (log 6), the sequencer's bus
transactions, newest first (log 24), and whether the block has written word 0 of each descriptor since reset (log 26). -/
structure Aux where
  draws : Nat
  script : List Turn
  trace : List BusEvent
  outPrepared : Bool
  inPrepared : Bool
  deriving DecidableEq, Repr

/-- R20: the state of the modelled system. -/
structure State where
  cfg : Params
  rom : List Byte
  x : Session
  ctl : Control
  faults : FaultSet
  per : RegTable
  units : Units
  mem : Memory
  aux : Aux
  deriving DecidableEq, Repr

/-- Why a step stops. -/
inductive Fault where
  /-- Raised by `step` on the sequencer's turn when `busy = 1` and `upc` is past the last entry of the ROM: 10_state.md R23
  says this is never reached and gives it no effect. Safe: the model stops (log 13). -/
  | upcOutsideRom
  deriving DecidableEq, Repr

/-- Why a step is refused. -/
inductive Refusal where
  /-- Raised by an arm of `exec` whose instruction has no meaning yet. Safe. -/
  | notModelled (mnemonic : String)
  /-- Raised by `step` when the parameters break a constraint of the spec: 20_memory.md R65, "refused by the model's
  configuration check". Safe: the model stops (log 12). -/
  | configRefused
  deriving DecidableEq, Repr

/-- R52: a session register nothing has written since reset; the value is the model's (DESIGN CHOICE, log 8). -/
def XCell.unwritten : XCell := ⟨0, false⟩

/-- R52: the session registers after a system reset. -/
def Session.afterReset : Session where
  key0 := .unwritten
  key1 := .unwritten
  key2 := .unwritten
  key3 := .unwritten
  iv0 := .unwritten
  iv1 := .unwritten
  iv2 := .unwritten
  iv3 := .unwritten
  pt := .unwritten
  ct := .unwritten
  bc := .unwritten
  pollcnt := ⟨0, true⟩
  dw0 := .unwritten
  tmp := .unwritten

/-- R52: the control fields after a system reset. -/
def Control.afterReset : Control where
  upc := 0
  state := .idle
  busy := false
  status := .ok
  errinfo := 0
  eupc := 0
  chaos := false

/-- R54: the agents after a system reset; the fields R54 leaves unwritten are 0 (DESIGN CHOICE, log 11). -/
def Units.afterReset : Units where
  dout := ⟨.idle, 0, 0, 0, 0⟩
  din := ⟨.idle, 0, 0, 0, 0⟩
  aes := ⟨.idle, Vector.replicate 16 0, Vector.replicate 16 0, 0, 0⟩
  qin := []
  qout := []
  qoutEof := false

/-- R52 to R55, R270: the state a system reset puts in place, for any parameters, ROM and fault set (R30: reset does not
change it), and for the register and memory contents drawn. -/
def State.afterReset (cfg : Params) (rom : List Byte) (f : FaultSet) (per : RegTable) (mem : Memory) (aux : Aux) : State where
  cfg := cfg
  rom := rom
  x := .afterReset
  ctl := .afterReset
  faults := f
  per := per
  units := .afterReset
  mem := mem
  aux := aux

/-- The register contents `State.reset` carries: the draws 95_test_vectors.md Part 3 starts from, and 0 for the registers it
leaves at any value (R53 gives none: DESIGN CHOICE, unsafe, log 9). -/
def resetRegs : RegTable where
  sysClkEn := 0x00000000
  sysRstEn := 0xFFFFFFFF
  dmaInConf0 := 0
  dmaOutConf0 := 0
  dmaInLink := 0x00100000
  dmaOutLink := 0
  dmaInPeriSel := 0x3F
  dmaOutPeriSel := 0x3F
  aesDmaEnable := 0
  aesIntEna := 0
  aesMode := 0
  aesKey0 := 0
  aesKey1 := 0
  aesKey2 := 0
  aesKey3 := 0
  aesBlockMode := 0
  aesBlockNum := 0
  aesIncSel := 0
  aesIv0 := 0
  aesIv1 := 0
  aesIv2 := 0
  aesIv3 := 0
  aesTrigger := 0
  aesDmaExit := 0

/-- The machine right after reset, with the spec's ROM and its candidate parameters. -/
def State.reset : State :=
  .afterReset .candidate seqRom ⟨false, false, false⟩ resetRegs [] ⟨0, [], [], false, false⟩

end Sys2Proof.Machine
end

