-- ==== Sys2Proof/Machine/Operands.lean ====
section
/-! DEFINITION. Operands: bit fields, byte order (00_scope.md R11, R12), counter blocks (R16), the indexed registers
(30_encoding.md R92), and the descriptor byte length (40_descriptor.md R110). -/

namespace Sys2Proof.Machine

/-- R11: `v[n]`. -/
def bitOf (v : Word) (n : Fin 32) : Bool := v.getLsbD n.val

/-- R11: `1 << n`. -/
def bitMask (n : Fin 32) : Word := 1#32 <<< n.val

/-- R12: `bytes_le(w)[j]`, that is `w[8j+7 : 8j]`. -/
def byteOf (w : Word) (j : Nat) : Byte := w.extractLsb' (8 * j) 8

/-- R12: `le32(b0, b1, b2, b3)`. -/
def le32 (b0 b1 b2 b3 : Byte) : Word := b3 ++ b2 ++ b1 ++ b0

/-- R12: `be32(b0, b1, b2, b3)`. -/
def be32 (b0 b1 b2 b3 : Byte) : Word := b0 ++ b1 ++ b2 ++ b3

/-- 20_memory.md R62: word i of a 16-byte string, `le32(b[4i], b[4i+1], b[4i+2], b[4i+3])`, i in 0 .. 3. -/
def blockWord (b : Block) (i : Fin 4) : Word :=
  le32 (b[4 * i.val]) (b[4 * i.val + 1]) (b[4 * i.val + 2]) (b[4 * i.val + 3])

/-- 20_memory.md R63: `bytes_le(w0) ++ bytes_le(w1) ++ bytes_le(w2) ++ bytes_le(w3)`. -/
def blockOfWords (w0 w1 w2 w3 : Word) : Block :=
  #v[byteOf w0 0, byteOf w0 1, byteOf w0 2, byteOf w0 3, byteOf w1 0, byteOf w1 1, byteOf w1 2, byteOf w1 3,
     byteOf w2 0, byteOf w2 1, byteOf w2 2, byteOf w2 3, byteOf w3 0, byteOf w3 1, byteOf w3 2, byteOf w3 3]

/-- 00_scope.md R16: `inc32(C)`: bytes 12 to 15, read big-endian, plus 1 modulo 2^32; bytes 0 to 11 unchanged. -/
def inc32 (blk : Block) : Block :=
  let n := be32 blk[12] blk[13] blk[14] blk[15] + 1
  #v[blk[0], blk[1], blk[2], blk[3], blk[4], blk[5], blk[6], blk[7], blk[8], blk[9], blk[10], blk[11],
     byteOf n 3, byteOf n 2, byteOf n 1, byteOf n 0]

/-- R12: `a ⊕ b` of two 16-byte strings. -/
def xorBlock (a b : Block) : Block := Vector.zipWith (· ^^^ ·) a b

/-- The first 16 bytes of a queue and the rest, where it holds that many (44_autonomous_units.md R214). -/
def takeBlock : List Byte → Option (Block × List Byte)
  | b0 :: b1 :: b2 :: b3 :: b4 :: b5 :: b6 :: b7 :: b8 :: b9 :: b10 :: b11 :: b12 :: b13 :: b14 :: b15 :: rest =>
    some (#v[b0, b1, b2, b3, b4, b5, b6, b7, b8, b9, b10, b11, b12, b13, b14, b15], rest)
  | _ => none

/-- R92: the session register `KEYi`; the index is `u[1:0]`, so only i modulo 4 counts. -/
def keyX (i : Nat) : XReg :=
  match i % 4 with
  | 0 => .key0
  | 1 => .key1
  | 2 => .key2
  | _ => .key3

/-- R92: the session register `IVi`. -/
def ivX (i : Nat) : XReg :=
  match i % 4 with
  | 0 => .iv0
  | 1 => .iv1
  | 2 => .iv2
  | _ => .iv3

/-- R92: the accelerator register `AES_KEYi`. -/
def keyReg (i : Nat) : PReg :=
  match i % 4 with
  | 0 => .aesKey0
  | 1 => .aesKey1
  | 2 => .aesKey2
  | _ => .aesKey3

/-- R92: the accelerator register `AES_IVi`. -/
def ivReg (i : Nat) : PReg :=
  match i % 4 with
  | 0 => .aesIv0
  | 1 => .aesIv1
  | 2 => .aesIv2
  | _ => .aesIv3

/-- 40_descriptor.md R110: `L = (16 · x[BC]) mod 2^32 & 0xFFF`, as a 12-bit field. -/
def descLength (bc : Word) : BitVec 12 := (16#32 * bc).setWidth 12

/-- R8: `P_BUF_ALIGN` in bytes. -/
def alignBytes : BufAlign → Nat
  | .one => 1
  | .two => 2
  | .four => 4

end Sys2Proof.Machine
end

