-- ==== Sys2Proof/Machine/Flags.lean ====
section
/-! DEFINITION. The descriptor word and its flags (00_scope.md R14, 10_state.md R29, R40, R44), and the codes the host reads
(R24, R25, R28). The block has no arithmetic condition codes (R29). -/

namespace Sys2Proof.Machine

/-- R14: `size(w) = w[11:0]`. -/
def dwSize (w : Word) : BitVec 12 := w.extractLsb' 0 12

/-- R14: `length(w) = w[23:12]`. -/
def dwLength (w : Word) : BitVec 12 := w.extractLsb' 12 12

/-- R14: `err_eof(w) = w[28]`. -/
def dwErrEof (w : Word) : Bool := w.getLsbD 28

/-- R14: `suc_eof(w) = w[30]`. -/
def dwSucEof (w : Word) : Bool := w.getLsbD 30

/-- R14: `owner(w) = w[31]`, 1 = `OWNER_HW`. -/
def dwOwner (w : Word) : Bool := w.getLsbD 31

/-- R14: the word of a flag bit. -/
def flagBit (b : Bool) (n : Nat) : Word := if b then 1#32 <<< n else 0

/-- R14: `size | length << 12 | err_eof << 28 | suc_eof << 30 | owner << 31`. -/
def dw0 (size length : BitVec 12) (errEof sucEof owner : Bool) : Word :=
  size.setWidth 32 ||| (length.setWidth 32 <<< 12) ||| flagBit errEof 28 ||| flagBit sucEof 30 ||| flagBit owner 31

/-- R44: `is_done(w)`, "true when `owner == software`". -/
def isDone (w : Word) : Bool := !dwOwner w

/-- R44: `frame_complete(w)`, "true when `suc_eof == 1` after hardware write-back". -/
def frameComplete (w : Word) : Bool := dwSucEof w

/-- R25: the code of `s.state`. -/
def stateCode : SeqState → BitVec 4
  | .idle => 0
  | .clockEnabled => 1
  | .dmaArmed => 2
  | .keyProgrammed => 3
  | .triggered => 4
  | .awaitingDma => 5
  | .done => 6
  | .released => 7
  | .error => 8

/-- R28: the code of `s.status`. -/
def statusCode : Status → BitVec 2
  | .ok => 0
  | .invalidLength => 1
  | .hwTimeout => 2
  | .dmaFault => 3

/-- R240: `code(E)`, the status an exception sets. -/
def excStatus : Exc → Status
  | .invalidLength => .invalidLength
  | .hardwareTimeout => .hwTimeout
  | .dmaFault => .dmaFault

/-- R24, R170: what the host reads of the sequencer: (state, busy, status, errinfo, eupc). -/
def hostView (s : State) : BitVec 4 × Bool × BitVec 2 × BitVec 2 × BitVec 6 :=
  (stateCode s.ctl.state, s.ctl.busy, statusCode s.ctl.status, s.ctl.errinfo, s.ctl.eupc)

end Sys2Proof.Machine
end

