-- ==== Sys2Proof/Machine/Ops.lean ====
section
/-! DEFINITION. The named operations over memory, registers and control: what the pseudocode primitives of 00_scope.md R13
mean, the write side effects of 44_autonomous_units.md R201, and taking an exception (60_exceptions.md R241). -/

namespace Sys2Proof.Machine

/-! ## Updates of the parts of the state -/

def State.setX (s : State) (x : Session) : State := { s with x := x }
def State.setCtl (s : State) (c : Control) : State := { s with ctl := c }
def State.setFaults (s : State) (f : FaultSet) : State := { s with faults := f }
def State.setPer (s : State) (p : RegTable) : State := { s with per := p }
def State.setUnits (s : State) (u : Units) : State := { s with units := u }
def State.setMem (s : State) (m : Memory) : State := { s with mem := m }
def State.setAux (s : State) (a : Aux) : State := { s with aux := a }

/-! ## Memory (20_memory.md R60, R61) -/

/-- The byte at address `a`. -/
def Memory.read : Memory → Nat → Byte
  | [], _ => memDefault
  | (k, b) :: rest, a => if k = a then b else Memory.read rest a

/-- `(a, b)` put in its place in the rising order; a byte equal to what an unlisted one reads as is not listed. -/
def Memory.place : Memory → Nat → Byte → Memory
  | [], a, b => if b = memDefault then [] else [(a, b)]
  | (k, c) :: rest, a, b =>
    if a < k then (if b = memDefault then (k, c) :: rest else (a, b) :: (k, c) :: rest)
    else (k, c) :: Memory.place rest a b

/-- Memory with the byte at `a` replaced by `b`. -/
def Memory.write (m : Memory) (a : Nat) (b : Byte) : Memory :=
  Memory.place (m.filter fun c => c.1 != a) a b

/-- R61: `MemRead(a, 4)`. -/
def Memory.read32 (m : Memory) (a : Nat) : Word :=
  le32 (m.read a) (m.read (a + 1)) (m.read (a + 2)) (m.read (a + 3))

/-- R61: `MemWrite(a, 4, v)`. -/
def Memory.write32 (m : Memory) (a : Nat) (v : Word) : Memory :=
  (((m.write a (byteOf v 0)).write (a + 1) (byteOf v 1)).write (a + 2) (byteOf v 2)).write (a + 3) (byteOf v 3)

/-- The memory that holds the given cells, the later ones of the list first overwritten; addresses outside the 32-bit
space are left out (R50). -/
def Memory.ofCells : List Host.Cell → Memory
  | [] => []
  | (a, b) :: rest => if a < 2 ^ 32 then (Memory.ofCells rest).write a b else Memory.ofCells rest

/-! ## Session registers (00_scope.md R13, 10_state.md R21, R22) -/

def Session.get (x : Session) : XReg → XCell
  | .key0 => x.key0
  | .key1 => x.key1
  | .key2 => x.key2
  | .key3 => x.key3
  | .iv0 => x.iv0
  | .iv1 => x.iv1
  | .iv2 => x.iv2
  | .iv3 => x.iv3
  | .pt => x.pt
  | .ct => x.ct
  | .bc => x.bc
  | .pollcnt => x.pollcnt
  | .dw0 => x.dw0
  | .tmp => x.tmp

def Session.set (x : Session) (r : XReg) (c : XCell) : Session :=
  match r with
  | .key0 => { x with key0 := c }
  | .key1 => { x with key1 := c }
  | .key2 => { x with key2 := c }
  | .key3 => { x with key3 := c }
  | .iv0 => { x with iv0 := c }
  | .iv1 => { x with iv1 := c }
  | .iv2 => { x with iv2 := c }
  | .iv3 => { x with iv3 := c }
  | .pt => { x with pt := c }
  | .ct => { x with ct := c }
  | .bc => { x with bc := c }
  | .pollcnt => { x with pollcnt := c }
  | .dw0 => { x with dw0 := c }
  | .tmp => { x with tmp := c }

/-- The value `x[N]` reads: the register's value; for one not written since reset, the value the model gave it (log 8). -/
def State.xval (s : State) (r : XReg) : Word := (s.x.get r).val

/-- What a read of `x[N]` does besides giving the value: R22, R245: a read of a register not written since reset adds
`UNWRITTEN_READ` to `F`, and nothing else. -/
def noteRead (r : XReg) (s : State) : State :=
  if (s.x.get r).written then s else s.setFaults { s.faults with unwrittenRead := true }

/-- `x[N] <- v`. -/
def writeX (r : XReg) (v : Word) (s : State) : State := s.setX (s.x.set r ⟨v, true⟩)

/-! ## Control fields -/

/-- R97: `upc <- upc + 1`. -/
def advance (s : State) : State := s.setCtl { s.ctl with upc := s.ctl.upc + 1 }

/-- `s.state <- q`. -/
def enterState (q : SeqState) (s : State) : State := s.setCtl { s.ctl with state := q }

/-- `chaos` (R13): `s.chaos <- 1`. -/
def setChaos (s : State) : State := s.setCtl { s.ctl with chaos := true }

/-- `chaos`, where the condition holds. -/
def chaosIf (c : Bool) (s : State) : State := if c then setChaos s else s

/-- The run ends without an exception: `s.state <- RELEASED; s.busy <- 0` (R173, R179). -/
def endRun (s : State) : State := s.setCtl { s.ctl with state := .released, busy := false }

/-- 60_exceptions.md R241: `raise E(info)` by the micro-op at `upc`. There is no return from it (R248): `ERROR` is left by
the next accepted start, `acceptStart` below. -/
def takeException (e : Exc) (info : BitVec 2) (s : State) : State :=
  s.setCtl { s.ctl with
    status := excStatus e, errinfo := info, eupc := s.ctl.upc, state := .error, busy := false }

/-- 43_orchestrator.md R170: the start `(key, iv, pt, ct, bc)`, accepted. -/
def acceptStart (key iv : Block) (pt ct bc : Word) (s : State) : State :=
  let s := writeX .key0 (blockWord key 0) s
  let s := writeX .key1 (blockWord key 1) s
  let s := writeX .key2 (blockWord key 2) s
  let s := writeX .key3 (blockWord key 3) s
  let s := writeX .iv0 (blockWord iv 0) s
  let s := writeX .iv1 (blockWord iv 1) s
  let s := writeX .iv2 (blockWord iv 2) s
  let s := writeX .iv3 (blockWord iv 3) s
  let s := writeX .pt pt s
  let s := writeX .ct ct s
  let s := writeX .bc bc s
  let s := writeX .pollcnt 0 s
  let s := s.setCtl { s.ctl with status := .ok, errinfo := 0, state := .idle, upc := 0, busy := true }
  chaosIf (pt.toNat % alignBytes s.cfg.bufAlign != 0 || ct.toNat % alignBytes s.cfg.bufAlign != 0) s

/-! ## Free values (00_scope.md R13 `draw`; log 5) -/

/-- The next free word. -/
def nextDraw (s : State) : Word := Config.drawWord s.aux.draws

/-- n free values are used up. -/
def useDraws (n : Nat) (s : State) : State := s.setAux { s.aux with draws := s.aux.draws + n }

/-- The sequencer's transaction goes on record (log 24). -/
def logBus (e : BusEvent) (s : State) : State := s.setAux { s.aux with trace := e :: s.aux.trace }

/-! ## Peripheral registers (10_state.md R33, R34) -/

/-- The word of register `r` (R34: a read returns the stored value). -/
def regGet (p : RegTable) : PReg → Word
  | .sysClkEn => p.sysClkEn
  | .sysRstEn => p.sysRstEn
  | .dmaInConf0 => p.dmaInConf0
  | .dmaOutConf0 => p.dmaOutConf0
  | .dmaInLink => p.dmaInLink
  | .dmaOutLink => p.dmaOutLink
  | .dmaInPeriSel => p.dmaInPeriSel
  | .dmaOutPeriSel => p.dmaOutPeriSel
  | .aesDmaEnable => p.aesDmaEnable
  | .aesIntEna => p.aesIntEna
  | .aesMode => p.aesMode
  | .aesKey0 => p.aesKey0
  | .aesKey1 => p.aesKey1
  | .aesKey2 => p.aesKey2
  | .aesKey3 => p.aesKey3
  | .aesBlockMode => p.aesBlockMode
  | .aesBlockNum => p.aesBlockNum
  | .aesIncSel => p.aesIncSel
  | .aesIv0 => p.aesIv0
  | .aesIv1 => p.aesIv1
  | .aesIv2 => p.aesIv2
  | .aesIv3 => p.aesIv3
  | .aesTrigger => p.aesTrigger
  | .aesDmaExit => p.aesDmaExit

/-- The word of register `r` replaced by `v`. -/
def regSet (p : RegTable) (r : PReg) (v : Word) : RegTable :=
  match r with
  | .sysClkEn => { p with sysClkEn := v }
  | .sysRstEn => { p with sysRstEn := v }
  | .dmaInConf0 => { p with dmaInConf0 := v }
  | .dmaOutConf0 => { p with dmaOutConf0 := v }
  | .dmaInLink => { p with dmaInLink := v }
  | .dmaOutLink => { p with dmaOutLink := v }
  | .dmaInPeriSel => { p with dmaInPeriSel := v }
  | .dmaOutPeriSel => { p with dmaOutPeriSel := v }
  | .aesDmaEnable => { p with aesDmaEnable := v }
  | .aesIntEna => { p with aesIntEna := v }
  | .aesMode => { p with aesMode := v }
  | .aesKey0 => { p with aesKey0 := v }
  | .aesKey1 => { p with aesKey1 := v }
  | .aesKey2 => { p with aesKey2 := v }
  | .aesKey3 => { p with aesKey3 := v }
  | .aesBlockMode => { p with aesBlockMode := v }
  | .aesBlockNum => { p with aesBlockNum := v }
  | .aesIncSel => { p with aesIncSel := v }
  | .aesIv0 => { p with aesIv0 := v }
  | .aesIv1 => { p with aesIv1 := v }
  | .aesIv2 => { p with aesIv2 := v }
  | .aesIv3 => { p with aesIv3 := v }
  | .aesTrigger => { p with aesTrigger := v }
  | .aesDmaExit => { p with aesDmaExit := v }

/-- The DMA registers of channel `P_DMA_CH`. -/
def isDmaReg : PReg → Bool
  | .dmaInConf0 | .dmaOutConf0 | .dmaInLink | .dmaOutLink | .dmaInPeriSel | .dmaOutPeriSel => true
  | _ => false

/-- The registers of the AES accelerator. -/
def isAesReg : PReg → Bool
  | .sysClkEn | .sysRstEn => false
  | r => !isDmaReg r

/-! ### Gating (44_autonomous_units.md R221) -/

/-- The AES unit is held in reset: its own reset bit or the digital-signature reset, which gates its reset line (log 16). -/
def aesHeld (s : State) : Bool := bitOf s.per.sysRstEn s.cfg.bits.aesRst || bitOf s.per.sysRstEn s.cfg.bits.dsRst

/-- The AES unit is gated. -/
def aesGated (s : State) : Bool := !bitOf s.per.sysClkEn s.cfg.bits.aesClk || aesHeld s

/-- The DMA unit is held in reset. -/
def dmaHeld (s : State) : Bool := bitOf s.per.sysRstEn s.cfg.bits.dmaRst

/-- The DMA unit is gated. -/
def dmaGated (s : State) : Bool := !bitOf s.per.sysClkEn s.cfg.bits.dmaClk || dmaHeld s

/-- The unit the register belongs to is gated. -/
def regGated (r : PReg) (s : State) : Bool := isDmaReg r && dmaGated s || isAesReg r && aesGated s

/-! ### Write side effects (44_autonomous_units.md R201) -/

/-- R202: DOUT reset. -/
def doutReset (u : Units) : Units := { u with dout := { u.dout with st := .idle }, qin := [] }

/-- R207: DIN reset. -/
def dinReset (u : Units) : Units := { u with din := { u.din with st := .idle }, qout := [], qoutEof := false }

/-- R221, R54: the agents of a unit held in reset are held at their reset state. R54 lists the queues and `qout_eof` without a
unit: here they go with the DMA unit, and a reset of the AES alone leaves them (DESIGN CHOICE, log 36). The other agent fields,
which R54 leaves unwritten, keep their values here (DESIGN CHOICE, log 38). -/
def holdReset (s : State) : State :=
  let u := if aesHeld s then { s.units with aes := { s.units.aes with st := .idle } } else s.units
  s.setUnits (if dmaHeld s then dinReset (doutReset u) else u)

/-- R203, R208: the peripheral select names the AES. -/
def selectsAes (cfg : Params) (sel : Word) : Bool := sel &&& cfg.periMask == cfg.vals.periAes &&& cfg.periMask

/-- R203, R208: the descriptor address a link register names. -/
def linkAddr (cfg : Params) (v : Word) : Word := cfg.linkBase ||| (v &&& cfg.linkMask)

/-- R203: DOUT start on a write of `v`. -/
def doutStart (v : Word) (s : State) : State :=
  if s.units.dout.st ≠ .idle then setChaos s
  else if !selectsAes s.cfg s.per.dmaOutPeriSel then setChaos s
  else s.setUnits { s.units with dout := { s.units.dout with desc := linkAddr s.cfg v, st := .fetch } }

/-- R208: DIN start on a write of `v`. -/
def dinStart (v : Word) (s : State) : State :=
  if s.units.din.st ≠ .idle then setChaos s
  else if !selectsAes s.cfg s.per.dmaInPeriSel then setChaos s
  else s.setUnits { s.units with din := { s.units.din with desc := linkAddr s.cfg v, st := .fetch } }

/-- R213, R230 (k): the configuration at the trigger is not the one of 42_aes_programmer.md R160. R160 fixes more registers
(`AES_INT_ENA`, the key and counter words, `AES_BLOCK_NUM`) than the four R213 tests under the name of (k): the four are taken
(DEDUCED, log 37). -/
def badAesConfig (s : State) : Bool :=
  s.per.aesDmaEnable != s.cfg.vals.dmaEnableOn || s.per.aesMode != s.cfg.vals.modeEnc128 ||
    s.per.aesBlockMode != s.cfg.vals.blockModeCtr || s.per.aesIncSel != s.cfg.vals.incSelInc32

/-- R213, R230 (e): `AES_BLOCK_NUM = 0` or `AES_BLOCK_NUM > 255`. -/
def badBlockNum (n : Word) : Bool := n == 0 || decide (255 < n.toNat)

/-- R213: AES trigger. An AES held in reset stays at its reset state (R221, log 16); the end of frame is cleared all the same. -/
def aesTriggerEffect (s : State) : State :=
  if s.units.aes.st ≠ .idle then setChaos s
  else
    let s := chaosIf (badAesConfig s) s
    let s := chaosIf (badBlockNum s.per.aesBlockNum) s
    s.setUnits { s.units with
      aes :=
        if aesHeld s then s.units.aes
        else
          { st := .work,
            key := blockOfWords s.per.aesKey0 s.per.aesKey1 s.per.aesKey2 s.per.aesKey3,
            ctr := blockOfWords s.per.aesIv0 s.per.aesIv1 s.per.aesIv2 s.per.aesIv3,
            n := s.per.aesBlockNum, i := 0 },
      qoutEof := false }

/-- R217: AES exit. -/
def aesExitEffect (s : State) : State :=
  match s.units.aes.st with
  | .done => s.setUnits { s.units with aes := { s.units.aes with st := .idle } }
  | .idle => s
  | .work => setChaos s

/-- R201: the side effect of a write of `v`, once the value is stored. The agents of a unit held in reset stay at their
reset state (R221), so a start of one does not take (log 16). -/
def sideEffect (r : PReg) (v : Word) (s : State) : State :=
  match r with
  | .dmaOutConf0 => if bitOf v s.cfg.bits.outRst then s.setUnits (doutReset s.units) else s
  | .dmaInConf0 => if bitOf v s.cfg.bits.inRst then s.setUnits (dinReset s.units) else s
  | .dmaOutLink => if bitOf v s.cfg.bits.outStart && !dmaHeld s then doutStart v s else s
  | .dmaInLink => if bitOf v s.cfg.bits.inStart && !dmaHeld s then dinStart v s else s
  | .aesTrigger => if v == s.cfg.vals.trigger then aesTriggerEffect s else s
  | .aesDmaExit => if v == s.cfg.vals.dmaExit then aesExitEffect s else s
  | .sysRstEn => holdReset s
  | _ => s

/-- R230 (a), (h): the chaos conditions of a write by the sequencer: an AES register other than `AES_DMA_EXIT` while the
AES is not idle, or a register of a gated unit. -/
def writeChaos (r : PReg) (s : State) : Bool :=
  (isAesReg r && r != .aesDmaExit && s.units.aes.st != .idle) || regGated r s

/-- R34: what a write of `v` stores: the start bits act on the write and are stored as 0. -/
def storedValue (cfg : Params) (r : PReg) (v : Word) : Word :=
  match r with
  | .dmaInLink => v &&& ~~~bitMask cfg.bits.inStart
  | .dmaOutLink => v &&& ~~~bitMask cfg.bits.outStart
  | _ => v

/-! ### The sequencer's register transactions -/

/-- `R[NAME] <- v`: `BusWrite32(P_ADDR_NAME, v)` (R13, R34, R68, R201). -/
def regWrite (r : PReg) (v : Word) (s : State) : State :=
  let s := logBus (.write (regGet s.cfg.addr.stored r).toNat v) s
  let s := s.setPer (regSet s.per r (storedValue s.cfg r v))
  let s := chaosIf (writeChaos r s) s
  sideEffect r v s

/-- The value `R[NAME]` reads: the stored value; a draw while the unit is gated (R34, R221). -/
def regValue (r : PReg) (s : State) : Word := if regGated r s then nextDraw s else regGet s.per r

/-- The transaction of `R[NAME]`. -/
def regRead (r : PReg) (s : State) : State :=
  let s := logBus (.read (regGet s.cfg.addr.stored r).toNat) s
  if regGated r s then useDraws 1 s else s

/-- A read-modify-write micro-op (41_dma_channel.md R130): `x[TMP] <- R[NAME]`, then `R[NAME] <- f(x[TMP])`. -/
def regModify (r : PReg) (f : Word → Word) (s : State) : State :=
  let s := writeX .tmp (regValue r s) (regRead r s)
  regWrite r (f (s.xval .tmp)) (noteRead .tmp s)

/-- R216: a read of `AES_STATE` is a draw while the AES unit is gated or `s.chaos = 1`. -/
def aesStateDrawn (s : State) : Bool := aesGated s || s.ctl.chaos

/-- R36, R216: the value `R[AES_STATE]` reads. -/
def aesStateValue (s : State) : Word :=
  if aesStateDrawn s then nextDraw s
  else
    match s.units.aes.st with
    | .idle => s.cfg.vals.stateIdle
    | .work => s.cfg.vals.stateWork
    | .done => s.cfg.vals.stateDone

/-- The transaction of `R[AES_STATE]`. -/
def aesStateRead (s : State) : State :=
  let s := logBus (.read s.cfg.addr.aesState.toNat) s
  if aesStateDrawn s then useDraws 1 s else s

/-- R220: the engine is drained and healthy. -/
def drained (s : State) : Bool :=
  s.units.qin.isEmpty && s.units.qout.isEmpty && (s.units.dout.st == .idle || s.units.dout.st == .wb) &&
    s.units.din.st == .idle && !s.ctl.chaos

/-- R220: `P_FIFO_FAULT(a, b)` of the two status words one `chk.dma` reads. The words are two draws; of a drained engine the
draws are such that the predicate does not hold. Nothing else of the words is ever used (log 4). -/
def fifoFaultSeen (s : State) : Bool :=
  !drained s && Config.fifoFault (Config.drawWord s.aux.draws) (Config.drawWord (s.aux.draws + 1))

/-- The two transactions `R[DMA_INFIFO_STATUS]`, then `R[DMA_OUTFIFO_STATUS]`. -/
def fifoStatusRead (s : State) : State :=
  let s := logBus (.read s.cfg.addr.dmaInfifoStatus.toNat) s
  useDraws 2 (logBus (.read s.cfg.addr.dmaOutfifoStatus.toNat) s)

/-! ## The sequencer's memory transactions -/

/-- `MemWrite(a, 4, v)` by the sequencer. -/
def seqMemWrite (a : Nat) (v : Word) (s : State) : State :=
  let s := logBus (.write a v) s
  s.setMem (s.mem.write32 a v)

/-- The transaction of `MemRead(a, 4)` by the sequencer; the value is `s.mem.read32 a`. -/
def seqMemRead (a : Nat) (s : State) : State := logBus (.read a) s

/-! ## The DMA agents' memory accesses (20_memory.md R74, 44_autonomous_units.md R230 (f)) -/

/-- The value of `MemRead(a, 4)` by a DMA agent: outside `P_DMA_REGION`, a draw. -/
def dmaWord (a : Nat) (s : State) : Word :=
  if s.cfg.rangeInRegion a 4 then s.mem.read32 a else nextDraw s

/-- The value of `MemRead(a, 1)` by a DMA agent. -/
def dmaByte (a : Nat) (s : State) : Byte :=
  if s.cfg.rangeInRegion a 1 then s.mem.read a else byteOf (nextDraw s) 0

/-- What a read of n bytes by a DMA agent does: nothing; outside `P_DMA_REGION`, chaos. -/
def dmaReadEffect (a n : Nat) (s : State) : State :=
  if s.cfg.rangeInRegion a n then s else setChaos (useDraws 1 s)

/-- `MemWrite(a, 4, v)` by a DMA agent: outside `P_DMA_REGION`, chaos and no effect. -/
def dmaWriteWord (a : Nat) (v : Word) (s : State) : State :=
  if s.cfg.rangeInRegion a 4 then s.setMem (s.mem.write32 a v) else setChaos s

/-- `MemWrite(a, 1, b)` by a DMA agent. -/
def dmaWriteByte (a : Nat) (b : Byte) (s : State) : State :=
  if s.cfg.rangeInRegion a 1 then s.setMem (s.mem.write a b) else setChaos s

/-! ## Fetching -/

/-- R97, R172: the code the sequencer executes next, `ROM[upc]`; none past the last entry. -/
def fetchCode (s : State) : Option Byte := s.rom[s.ctl.upc.toNat]?

/-- R94, R245: decoding a reserved code adds `RESERVED_UOP` to `F`; the sequencer takes no further step, since it finds the
same code at every later turn (log 14). -/
def reservedUop (s : State) : State := s.setFaults { s.faults with reservedUop := true }

/-- The ROM with the code at index `n` replaced by `u`, longer where it must be. -/
def romWith (rom : List Byte) (n : Nat) (u : Byte) : List Byte :=
  (rom ++ List.replicate (n + 1 - rom.length) 0).set n u

/-! ## Whose turn it is (log 6) -/

/-- The turn of the next step: the head of the script, or a free value where the script is empty. -/
def State.turn (s : State) : Turn :=
  match s.aux.script with
  | t :: _ => t
  | [] => Config.drawTurn s.aux.draws

/-- The state once the turn is taken off. -/
def popTurn (s : State) : State :=
  match s.aux.script with
  | _ :: rest => s.setAux { s.aux with script := rest }
  | [] => useDraws 1 s

end Sys2Proof.Machine
end

