-- ==== Sys2Proof/Machine/Agents.lean ====
section
/-! DEFINITION. The moves of the autonomous units DMA-out, DMA-in and AES core (44_autonomous_units.md), the descriptor life
cycle (10_state.md R43) and quiescence (43_orchestrator.md R180). A move whose guard is false changes nothing (log 23). -/

namespace Sys2Proof.Machine

/-! ## DMA-out -/

/-- R204: DOUT fetch. -/
def doutFetch (s : State) : State :=
  let d := s.units.dout.desc.toNat
  let w := dmaWord d s
  let s := dmaReadEffect d 4 s
  let b := dmaWord (d + 4) s
  let s := dmaReadEffect (d + 4) 4 s
  s.setUnits { s.units with dout := { s.units.dout with w0 := w, buf := b, k := 0, st := .send } }

/-- R205: DOUT send, one byte in increasing address order (20_memory.md R64). -/
def doutSend (s : State) : State :=
  let d := s.units.dout
  if d.k < dwLength d.w0 then
    let a := d.buf.toNat + d.k.toNat
    let b := dmaByte a s
    let s := dmaReadEffect a 1 s
    s.setUnits { s.units with qin := s.units.qin ++ [b], dout := { d with k := d.k + 1 } }
  else s.setUnits { s.units with dout := { d with st := .wb } }

/-- R206: DOUT end. A descriptor without `suc_eof` is a chain: chaos (R230 (j)). -/
def doutEnd (s : State) : State :=
  let s := chaosIf (!dwSucEof s.units.dout.w0) s
  let s :=
    if s.cfg.outWrback then dmaWriteWord s.units.dout.desc.toNat (s.units.dout.w0 &&& 0x7FFFFFFF) s else s
  s.setUnits { s.units with dout := { s.units.dout with st := .idle } }

/-- R200, R221: the move of DOUT. -/
def doutMove (s : State) : State :=
  if dmaGated s then s
  else
    match s.units.dout.st with
    | .idle => s
    | .fetch => doutFetch s
    | .send => doutSend s
    | .wb => doutEnd s

/-! ## DMA-in -/

/-- R209: DIN fetch. -/
def dinFetch (s : State) : State :=
  let d := s.units.din.desc.toNat
  let w := dmaWord d s
  let s := dmaReadEffect d 4 s
  let b := dmaWord (d + 4) s
  let s := dmaReadEffect (d + 4) 4 s
  s.setUnits { s.units with din := { s.units.din with w0 := w, buf := b, k := 0, st := .recv } }

/-- R210: DIN receives the byte `b`, the head of `QOUT`, whose tail is `rest`; a byte more than the buffer holds is chaos
(R230 (d)). -/
def dinReceive (b : Byte) (rest : List Byte) (s : State) : State :=
  let d := s.units.din
  if d.k < dwSize d.w0 then
    let s := dmaWriteByte (d.buf.toNat + d.k.toNat) b s
    s.setUnits { s.units with qout := rest, din := { d with k := d.k + 1 } }
  else setChaos s

/-- R211: DIN success end. -/
def dinSuccess (s : State) : State :=
  let d := s.units.din
  let s := dmaWriteWord d.desc.toNat (dw0 (dwSize d.w0) d.k false true false) s
  s.setUnits { s.units with qoutEof := false, din := { d with st := .idle } }

/-- R212: DIN error end; `QOUT` and `qout_eof` are left as they are. -/
def dinFail (s : State) : State :=
  let d := s.units.din
  let s := dmaWriteWord d.desc.toNat (dw0 (dwSize d.w0) d.k true false false) s
  s.setUnits { s.units with din := { d with st := .idle } }

/-- R200, R221: the move of DIN other than the error end. -/
def dinMove (s : State) : State :=
  if dmaGated s then s
  else
    match s.units.din.st with
    | .idle | .wb => s
    | .fetch => dinFetch s
    | .recv =>
      match s.units.qout with
      | b :: rest => dinReceive b rest s
      | [] => if s.units.qoutEof then dinSuccess s else s

/-- R212: the guard of the error end. -/
def dinErrorEnabled (s : State) : Bool := !dmaGated s && s.cfg.dmaErrors && s.units.din.st == .recv

/-- R212: the error end of DIN. -/
def dinErrorMove (s : State) : State := if dinErrorEnabled s then dinFail s else s

/-! ## AES core -/

/-- R214: the AES takes the block `p` from `QIN`, whose rest is `rest`. -/
def aesBlock (p : Block) (rest : List Byte) (s : State) : State :=
  let a := s.units.aes
  s.setUnits { s.units with
    qin := rest,
    qout := s.units.qout ++ (xorBlock p (Config.aes128 a.key a.ctr)).toList,
    aes := { a with ctr := inc32 a.ctr, i := a.i + 1 } }

/-- R215: AES done. -/
def aesDone (s : State) : State :=
  s.setUnits { s.units with aes := { s.units.aes with st := .done }, qoutEof := true }

/-- R200, R221: the move of the AES. -/
def aesMove (s : State) : State :=
  if aesGated s then s
  else
    match s.units.aes.st with
    | .idle | .done => s
    | .work =>
      if s.units.aes.i < s.units.aes.n then
        match takeBlock s.units.qin with
        | some (p, rest) => aesBlock p rest s
        | none => s
      else if s.units.aes.i = s.units.aes.n then aesDone s
      else s

/-! ## Chaos moves (R231) -/

/-- R231, R200: the guard of a chaos move, but for `s.chaos = 1`. Gated agents have no move (log 17); DIN's moves need it
armed; a DOUT that is idle has nothing to stop. -/
def chaosGuard (m : ChaosMove) (s : State) : Bool :=
  match m with
  | .aesState _ | .aesQin _ | .aesQout _ => !aesGated s
  | .dinByte off _ => !dmaGated s && s.units.din.st != .idle && decide (off < (dwSize s.units.din.w0).toNat)
  | .dinWord _ => !dmaGated s && s.units.din.st != .idle
  | .doutStop => !dmaGated s && s.units.dout.st != .idle

/-- R231: the effect of a chaos move. -/
def chaosEffect (m : ChaosMove) (s : State) : State :=
  match m with
  | .aesState st => s.setUnits { s.units with aes := { s.units.aes with st := st } }
  | .aesQin q => s.setUnits { s.units with qin := q }
  | .aesQout q => s.setUnits { s.units with qout := q }
  | .dinByte off b => dmaWriteByte (s.units.din.buf.toNat + off) b s
  | .dinWord w => dmaWriteWord s.units.din.desc.toNat w s
  | .doutStop => s.setUnits { s.units with dout := { s.units.dout with st := .idle } }

/-- R231: a chaos move. -/
def chaosMove (m : ChaosMove) (s : State) : State :=
  if s.ctl.chaos && chaosGuard m s then chaosEffect m s else s

/-! ## Enabled moves, fairness and quiescence -/

/-- The agents R232 speaks of: those of 00_scope.md R15 but HOST. -/
inductive Agent where
  | seq | dout | din | aes
  deriving DecidableEq, Repr

/-- SEQ has a step (R97, R172): it is busy and finds a micro-op, or a reserved code that is not on record yet; after
that it takes no further step (30_encoding.md R94; log 14). -/
def seqEnabled (s : State) : Bool :=
  s.ctl.busy &&
    match fetchCode s with
    | none => false
    | some u =>
      match decode u with
      | .ok _ => true
      | .error _ => !s.faults.reservedUop

/-- DOUT has an enabled move (R204 to R206). -/
def doutEnabled (s : State) : Bool := !dmaGated s && s.units.dout.st != .idle

/-- DIN has an enabled move other than the error end (R209 to R211). -/
def dinMoveEnabled (s : State) : Bool :=
  !dmaGated s &&
    (s.units.din.st == .fetch || s.units.din.st == .recv && (!s.units.qout.isEmpty || s.units.qoutEof))

/-- AES has an enabled move (R214, R215). -/
def aesEnabled (s : State) : Bool :=
  !aesGated s && s.units.aes.st == .work &&
    (decide (s.units.aes.i < s.units.aes.n) && (takeBlock s.units.qin).isSome ||
      decide (s.units.aes.i = s.units.aes.n))

/-- R231: the agent that makes a chaos move. -/
def chaosAgent : ChaosMove → Agent
  | .aesState _ | .aesQin _ | .aesQout _ => .aes
  | .dinByte .. | .dinWord _ => .din
  | .doutStop => .dout

/-- R200, R231, R232: the turn `u`, taken in `s`, is a move of the agent: it is the agent's, and the guard of its move holds.
A chaos move is a move (log 17); a turn without its guard is none (log 23). -/
def takesMove (a : Agent) (u : Turn) (s : State) : Bool :=
  match u with
  | .seq => a == .seq && seqEnabled s
  | .dout => a == .dout && doutEnabled s
  | .din => a == .din && dinMoveEnabled s
  | .dinError => a == .din && dinErrorEnabled s
  | .aes => a == .aes && aesEnabled s
  | .chaos m => a == chaosAgent m && s.ctl.chaos && chaosGuard m s
  | .start .. | .store .. | .systemReset => false

/-- R232: the agent has an enabled move, a chaos move included: some turn is a move of it (`agentEnabled_iff`). -/
def agentEnabled (a : Agent) (s : State) : Bool :=
  match a with
  | .seq => seqEnabled s
  | .dout => doutEnabled s
  | .din => dinMoveEnabled s || dinErrorEnabled s || s.ctl.chaos && !dmaGated s && s.units.din.st != .idle
  | .aes => aesEnabled s || s.ctl.chaos && !aesGated s

/-- R180: the system is quiescent: `s.busy = 0` and no agent other than HOST has an enabled step, chaos moves included
(log 21). -/
def quiescent (s : State) : Bool :=
  !s.ctl.busy && !agentEnabled .dout s && !agentEnabled .din s && !agentEnabled .aes s

/-! ## The descriptor life cycle (10_state.md R43) -/

/-- R43: the states of a descriptor. -/
inductive DescLife where
  | stale | prepared | armed | inFlight | complete | failed
  deriving DecidableEq, Repr

/-- R43: the state of the output descriptor. Where the agent is idle the choices are those of `lifeIn`; with
`P_OUT_WRBACK = false` no write-back ends IN_FLIGHT and R43 names no state for the descriptor after DOUT's end: idle agent and
owner still 1, it is PREPARED here (DESIGN CHOICE, log 34). -/
def lifeOut (s : State) : DescLife :=
  match s.units.dout.st with
  | .fetch => .armed
  | .send | .wb => .inFlight
  | .idle =>
    if !s.aux.outPrepared then .stale
    else if dwOwner (s.mem.read32 s.cfg.descOut.toNat) then .prepared
    else .complete

/-- R43: the state of the input descriptor. R43's "software-owned after a run" (STALE) and "owner = 0 written back" (COMPLETE,
FAILED) both fit a descriptor an ended run wrote back: it is COMPLETE or FAILED here until the next run prepares it, and STALE is
a descriptor not prepared since reset (DESIGN CHOICE, log 34). -/
def lifeIn (s : State) : DescLife :=
  match s.units.din.st with
  | .fetch => .armed
  | .recv | .wb => .inFlight
  | .idle =>
    let w := s.mem.read32 s.cfg.descIn.toNat
    if !s.aux.inPrepared then .stale
    else if dwOwner w then .prepared
    else if dwErrEof w then .failed
    else .complete

end Sys2Proof.Machine
end

