-- ==== Sys2Proof/Machine/Caller.lean ====
section
/-! DEFINITION. What the HOST agent may do to the machine: the start (43_orchestrator.md R170, R171), stores to memory within
its duties (R199), and the system reset (70_reset_and_hazards.md R270). -/

namespace Sys2Proof.Machine

/-- R170, R171: a start; while busy it changes no state of the block and adds `REENTRY` to `F`. -/
def startRequest (key iv : Block) (pt ct bc : Word) (s : State) : State :=
  if s.ctl.busy then s.setFaults { s.faults with reentry := true } else acceptStart key iv pt ct bc s

/-- `a` lies in the n bytes from `b`. -/
def within (a b n : Nat) : Bool := decide (b ≤ a) && decide (a < b + n)

/-- R33, R50: `a` is a byte of a peripheral register, not of memory. -/
def isRegisterByte (s : State) (a : Nat) : Bool := s.cfg.addr.all.any fun r => within a r.toNat 4

/-- R199: `a` is a byte of a descriptor or of a data buffer of the current session. -/
def isLentByte (s : State) (a : Nat) : Bool :=
  within a s.cfg.descOut.toNat 12 || within a s.cfg.descIn.toNat 12 ||
    within a (s.xval .pt).toNat (16 * (s.xval .bc).toNat) || within a (s.xval .ct).toNat (16 * (s.xval .bc).toNat)

/-- R199: where the host never stores has no move: registers; descriptors and buffers unless the system is quiescent (log 20). -/
def mayStore (s : State) (a : Nat) : Bool := !isRegisterByte s a && (quiescent s || !isLentByte s a)

/-- 20_memory.md R69, R199: the host stores one byte. The spec gives a host access no width: one byte an event is the model's, and
a wider store is several turns (DESIGN CHOICE, log 35). -/
def hostStore (a : Word) (b : Byte) (s : State) : State :=
  if mayStore s a.toNat then s.setMem (s.mem.write a.toNat b) else s

/-- The 24 free words a system reset leaves in the register file (10_state.md R53); the start bits of the link registers read
back 0 (R34; log 25). -/
def drawnRegs (cfg : Params) (n : Nat) : RegTable where
  sysClkEn := Config.drawWord n
  sysRstEn := Config.drawWord (n + 1)
  dmaInConf0 := Config.drawWord (n + 2)
  dmaOutConf0 := Config.drawWord (n + 3)
  dmaInLink := storedValue cfg .dmaInLink (Config.drawWord (n + 4))
  dmaOutLink := storedValue cfg .dmaOutLink (Config.drawWord (n + 5))
  dmaInPeriSel := Config.drawWord (n + 6)
  dmaOutPeriSel := Config.drawWord (n + 7)
  aesDmaEnable := Config.drawWord (n + 8)
  aesIntEna := Config.drawWord (n + 9)
  aesMode := Config.drawWord (n + 10)
  aesKey0 := Config.drawWord (n + 11)
  aesKey1 := Config.drawWord (n + 12)
  aesKey2 := Config.drawWord (n + 13)
  aesKey3 := Config.drawWord (n + 14)
  aesBlockMode := Config.drawWord (n + 15)
  aesBlockNum := Config.drawWord (n + 16)
  aesIncSel := Config.drawWord (n + 17)
  aesIv0 := Config.drawWord (n + 18)
  aesIv1 := Config.drawWord (n + 19)
  aesIv2 := Config.drawWord (n + 20)
  aesIv3 := Config.drawWord (n + 21)
  aesTrigger := Config.drawWord (n + 22)
  aesDmaExit := Config.drawWord (n + 23)

/-- R270, R52 to R55: the system reset; registers and memory are drawn, `F` is kept (R30); the model's own fields go on, but
the descriptors are unprepared again (log 25). -/
def systemReset (s : State) : State :=
  let n := s.aux.draws
  .afterReset s.cfg s.rom s.faults (drawnRegs s.cfg n) (.ofCells (Config.drawMem (n + 24)))
    { s.aux with draws := n + 25, outPrepared := false, inPrepared := false }

end Sys2Proof.Machine
end

