-- ==== Sys2Proof/Machine/AesProgrammer.lean ====
section
/-! DEFINITION. The family `aes` (42_aes_programmer.md): each micro-op is one write of a whole register (R150). -/

namespace Sys2Proof.Machine

/-- R151 `aes.dmaen`. -/
def execAesDmaen (s : State) : Host.Outcome State Fault Refusal :=
  .next (advance (regWrite .aesDmaEnable s.cfg.vals.dmaEnableOn s))

/-- R152 `aes.intdis`. -/
def execAesIntdis (s : State) : Host.Outcome State Fault Refusal :=
  .next (advance (regWrite .aesIntEna s.cfg.vals.intEnaOff s))

/-- R153 `aes.mode`. -/
def execAesMode (s : State) : Host.Outcome State Fault Refusal :=
  .next (advance (regWrite .aesMode s.cfg.vals.modeEnc128 s))

/-- R155 `aes.blkmode`. -/
def execAesBlkmode (s : State) : Host.Outcome State Fault Refusal :=
  .next (advance (regWrite .aesBlockMode s.cfg.vals.blockModeCtr s))

/-- R154 `aes.key i`. -/
def execAesKey (i : Nat) (s : State) : Host.Outcome State Fault Refusal :=
  let s' := regWrite (keyReg i) (s.xval (keyX i)) (noteRead (keyX i) s)
  .next (advance (if i % 4 = 3 then enterState .keyProgrammed s' else s'))

/-- R156 `aes.blknum`: the whole 32-bit count, without the mask of the descriptor length. -/
def execAesBlknum (s : State) : Host.Outcome State Fault Refusal :=
  .next (advance (regWrite .aesBlockNum (s.xval .bc) (noteRead .bc s)))

/-- R157 `aes.incsel`. -/
def execAesIncsel (s : State) : Host.Outcome State Fault Refusal :=
  .next (advance (regWrite .aesIncSel s.cfg.vals.incSelInc32 s))

/-- R158 `aes.iv i`. -/
def execAesIv (i : Nat) (s : State) : Host.Outcome State Fault Refusal :=
  .next (advance (regWrite (ivReg i) (s.xval (ivX i)) (noteRead (ivX i) s)))

/-- R159 `aes.trigger`. -/
def execAesTrigger (s : State) : Host.Outcome State Fault Refusal :=
  .next (advance (enterState .triggered (regWrite .aesTrigger s.cfg.vals.trigger s)))

end Sys2Proof.Machine
end

