-- ==== Sys2Proof/Machine/Check.lean ====
section
/-! DEFINITION. The family `chk` (43_orchestrator.md, section 3). -/

namespace Sys2Proof.Machine

/-- R173 `chk.len`: the zero test precedes the length test; x[BC] is read where one of the tests is on (log 30). -/
def execChkLen (s : State) : Host.Outcome State Fault Refusal :=
  .next (
    let read := if s.cfg.checks.checkZero || s.cfg.checks.checkLength then noteRead .bc s else s
    if s.cfg.checks.checkZero && s.xval .bc == 0 then endRun read
    else if s.cfg.checks.checkLength && decide (255 < (s.xval .bc).toNat) then takeException .invalidLength 0 read
    else advance read)

/-- R178 `chk.dma`: the err_eof test precedes the FIFO test, and the FIFO registers are read only if it did not raise (R246). -/
def execChkDma (s : State) : Host.Outcome State Fault Refusal :=
  .next (
    let read := if s.cfg.checks.checkErrEof then noteRead .dw0 s else s
    if s.cfg.checks.checkErrEof && dwErrEof (s.xval .dw0) then takeException .dmaFault 1 read
    else if s.cfg.checks.fifoCheck then
      (if fifoFaultSeen read then takeException .dmaFault 2 (fifoStatusRead read)
       else advance (enterState .done (fifoStatusRead read)))
    else advance (enterState .done read))

end Sys2Proof.Machine
end

