-- ==== Sys2Proof/Machine/Clock.lean ====
section
/-! DEFINITION. The family `clk` (43_orchestrator.md, section 4). -/

namespace Sys2Proof.Machine

/-- R174 `clk.en`. -/
def execClkEn (s : State) : Host.Outcome State Fault Refusal :=
  .next (advance (regModify .sysClkEn (fun v => v ||| bitMask s.cfg.bits.aesClk ||| bitMask s.cfg.bits.dmaClk) s))

/-- R175 `clk.rstclr`. -/
def execClkRstclr (s : State) : Host.Outcome State Fault Refusal :=
  .next (advance (enterState .clockEnabled (regModify .sysRstEn
    (fun v => v &&& ~~~(bitMask s.cfg.bits.aesRst ||| bitMask s.cfg.bits.dsRst ||| bitMask s.cfg.bits.dmaRst)) s)))

end Sys2Proof.Machine
end

