-- ==== Sys2Proof/Machine/Descriptor.lean ====
section
/-! DEFINITION. The family `dsc` (40_descriptor.md). -/

namespace Sys2Proof.Machine

/-- R111 `dsc.out.w0`. -/
def execDscOutW0 (s : State) : Host.Outcome State Fault Refusal :=
  let L := descLength (s.xval .bc)
  let s' := seqMemWrite s.cfg.descOut.toNat (dw0 L L false true true) (noteRead .bc s)
  .next (advance (s'.setAux { s'.aux with outPrepared := true }))

/-- R112 `dsc.out.w1`. -/
def execDscOutW1 (s : State) : Host.Outcome State Fault Refusal :=
  .next (advance (seqMemWrite (s.cfg.descOut.toNat + 4) (s.xval .pt) (noteRead .pt s)))

/-- R113 `dsc.out.w2`. -/
def execDscOutW2 (s : State) : Host.Outcome State Fault Refusal :=
  .next (advance (seqMemWrite (s.cfg.descOut.toNat + 8) 0 s))

/-- R114 `dsc.in.w0`. -/
def execDscInW0 (s : State) : Host.Outcome State Fault Refusal :=
  let L := descLength (s.xval .bc)
  let s' := seqMemWrite s.cfg.descIn.toNat (dw0 L 0 false false true) (noteRead .bc s)
  .next (advance (s'.setAux { s'.aux with inPrepared := true }))

/-- R115 `dsc.in.w1`. -/
def execDscInW1 (s : State) : Host.Outcome State Fault Refusal :=
  .next (advance (seqMemWrite (s.cfg.descIn.toNat + 4) (s.xval .ct) (noteRead .ct s)))

/-- R116 `dsc.in.w2`. -/
def execDscInW2 (s : State) : Host.Outcome State Fault Refusal :=
  .next (advance (seqMemWrite (s.cfg.descIn.toNat + 8) 0 s))

end Sys2Proof.Machine
end

