-- ==== Sys2Proof/Machine/DmaChannel.lean ====
section
/-! DEFINITION. The family `dma` (41_dma_channel.md): each micro-op is a read-modify-write of one register (R130). -/

namespace Sys2Proof.Machine

/-- R131 `dma.in.rst.set`. -/
def execDmaInRstSet (s : State) : Host.Outcome State Fault Refusal :=
  .next (advance (regModify .dmaInConf0 (fun v => v ||| bitMask s.cfg.bits.inRst) s))

/-- R132 `dma.in.rst.clr`. -/
def execDmaInRstClr (s : State) : Host.Outcome State Fault Refusal :=
  .next (advance (regModify .dmaInConf0 (fun v => v &&& ~~~bitMask s.cfg.bits.inRst) s))

/-- R133 `dma.out.rst.set`. -/
def execDmaOutRstSet (s : State) : Host.Outcome State Fault Refusal :=
  .next (advance (regModify .dmaOutConf0 (fun v => v ||| bitMask s.cfg.bits.outRst) s))

/-- R134 `dma.out.rst.clr`. -/
def execDmaOutRstClr (s : State) : Host.Outcome State Fault Refusal :=
  .next (advance (regModify .dmaOutConf0 (fun v => v &&& ~~~bitMask s.cfg.bits.outRst) s))

/-- R135 `dma.in.link`. -/
def execDmaInLink (s : State) : Host.Outcome State Fault Refusal :=
  .next (advance (regModify .dmaInLink
    (fun v => (v &&& ~~~s.cfg.linkMask) ||| (s.cfg.descIn &&& s.cfg.linkMask)) s))

/-- R136 `dma.out.link`. -/
def execDmaOutLink (s : State) : Host.Outcome State Fault Refusal :=
  .next (advance (regModify .dmaOutLink
    (fun v => (v &&& ~~~s.cfg.linkMask) ||| (s.cfg.descOut &&& s.cfg.linkMask)) s))

/-- R137 `dma.in.peri`. -/
def execDmaInPeri (s : State) : Host.Outcome State Fault Refusal :=
  .next (advance (regModify .dmaInPeriSel
    (fun v => (v &&& ~~~s.cfg.periMask) ||| (s.cfg.vals.periAes &&& s.cfg.periMask)) s))

/-- R138 `dma.out.peri`. -/
def execDmaOutPeri (s : State) : Host.Outcome State Fault Refusal :=
  .next (advance (regModify .dmaOutPeriSel
    (fun v => (v &&& ~~~s.cfg.periMask) ||| (s.cfg.vals.periAes &&& s.cfg.periMask)) s))

/-- R139 `dma.in.start`. -/
def execDmaInStart (s : State) : Host.Outcome State Fault Refusal :=
  .next (advance (regModify .dmaInLink (fun v => v ||| bitMask s.cfg.bits.inStart) s))

/-- R140 `dma.out.start`. -/
def execDmaOutStart (s : State) : Host.Outcome State Fault Refusal :=
  .next (advance (enterState .dmaArmed (regModify .dmaOutLink (fun v => v ||| bitMask s.cfg.bits.outStart) s)))

end Sys2Proof.Machine
end

