-- ==== Sys2Proof/Machine/Poll.lean ====
section
/-! DEFINITION. The families `poll` and `rel` (43_orchestrator.md, sections 5 and 6). -/

namespace Sys2Proof.Machine

/-- R176, R177: what a poll does after a read that does not meet its exit condition: it stays, or it counts the failed read
and raises `HardwareTimeout(info)` at the limit. -/
def pollMiss (info : BitVec 2) (s : State) : State :=
  match s.cfg.checks.pollLimit with
  | .unbounded => s
  | .bounded n =>
    let counted := writeX .pollcnt (s.xval .pollcnt + 1) (noteRead .pollcnt s)
    if counted.xval .pollcnt = n then takeException .hardwareTimeout info counted else counted

/-- R176 `poll.aes`. -/
def execPollAes (s : State) : Host.Outcome State Fault Refusal :=
  .next (
    if aesStateValue s = s.cfg.vals.stateDone then
      advance (enterState .awaitingDma (writeX .pollcnt 0 (aesStateRead s)))
    else pollMiss 1 (aesStateRead s))

/-- R177: `done` of the input-descriptor word `w`. -/
def descDone (cfg : Params) (w : Word) : Bool :=
  match cfg.checks.doneMode with
  | .or => isDone w || frameComplete w
  | .and => isDone w && frameComplete w

/-- R177: `fault_seen` of the input-descriptor word `w`. -/
def descFaultSeen (cfg : Params) (w : Word) : Bool := cfg.checks.checkErrEof && isDone w && dwErrEof w

/-- R177 `poll.desc`. -/
def execPollDesc (s : State) : Host.Outcome State Fault Refusal :=
  let w := s.mem.read32 s.cfg.descIn.toNat
  .next (
    if descDone s.cfg w || descFaultSeen s.cfg w then
      advance (writeX .pollcnt 0 (writeX .dw0 w (seqMemRead s.cfg.descIn.toNat s)))
    else pollMiss 2 (seqMemRead s.cfg.descIn.toNat s))

/-- R179 `rel.exit`: the run ends and `upc` stays (R97). -/
def execRelExit (s : State) : Host.Outcome State Fault Refusal :=
  .next (endRun (regWrite .aesDmaExit s.cfg.vals.dmaExit s))

end Sys2Proof.Machine
end

