-- ==== Sys2Proof/Machine/Dispatch.lean ====
section
/-! DEFINITION. The meaning of every micro-op, one arm per constructor (43_orchestrator.md R172). -/

namespace Sys2Proof.Machine

def exec (i : Instr) (s : State) : Host.Outcome State Fault Refusal :=
  match i with
  | .chkLen => Sys2Proof.Machine.execChkLen s
  | .chkDma => Sys2Proof.Machine.execChkDma s
  | .clkEn => Sys2Proof.Machine.execClkEn s
  | .clkRstclr => Sys2Proof.Machine.execClkRstclr s
  | .dscOutW0 => Sys2Proof.Machine.execDscOutW0 s
  | .dscOutW1 => Sys2Proof.Machine.execDscOutW1 s
  | .dscOutW2 => Sys2Proof.Machine.execDscOutW2 s
  | .dscInW0 => Sys2Proof.Machine.execDscInW0 s
  | .dscInW1 => Sys2Proof.Machine.execDscInW1 s
  | .dscInW2 => Sys2Proof.Machine.execDscInW2 s
  | .dmaInRstSet => Sys2Proof.Machine.execDmaInRstSet s
  | .dmaInRstClr => Sys2Proof.Machine.execDmaInRstClr s
  | .dmaOutRstSet => Sys2Proof.Machine.execDmaOutRstSet s
  | .dmaOutRstClr => Sys2Proof.Machine.execDmaOutRstClr s
  | .dmaInLink => Sys2Proof.Machine.execDmaInLink s
  | .dmaOutLink => Sys2Proof.Machine.execDmaOutLink s
  | .dmaInPeri => Sys2Proof.Machine.execDmaInPeri s
  | .dmaOutPeri => Sys2Proof.Machine.execDmaOutPeri s
  | .dmaInStart => Sys2Proof.Machine.execDmaInStart s
  | .dmaOutStart => Sys2Proof.Machine.execDmaOutStart s
  | .aesDmaen => Sys2Proof.Machine.execAesDmaen s
  | .aesIntdis => Sys2Proof.Machine.execAesIntdis s
  | .aesMode => Sys2Proof.Machine.execAesMode s
  | .aesBlkmode => Sys2Proof.Machine.execAesBlkmode s
  | .aesKey n => Sys2Proof.Machine.execAesKey n s
  | .aesBlknum => Sys2Proof.Machine.execAesBlknum s
  | .aesIncsel => Sys2Proof.Machine.execAesIncsel s
  | .aesTrigger => Sys2Proof.Machine.execAesTrigger s
  | .aesIv n => Sys2Proof.Machine.execAesIv n s
  | .pollAes => Sys2Proof.Machine.execPollAes s
  | .pollDesc => Sys2Proof.Machine.execPollDesc s
  | .relExit => Sys2Proof.Machine.execRelExit s

end Sys2Proof.Machine
end

