-- ==== Sys2Proof/Machine/Step.lean ====
section
/-! DEFINITION. One step of the system: one move of one agent (20_memory.md R69, 43_orchestrator.md R172, 44_autonomous_units.md
R200). -/

namespace Sys2Proof.Machine

/-- R172, R97: the sequencer's turn. While `s.busy = 0` it has no step (R27). -/
def seqTurn (s : State) : Host.Outcome State Fault Refusal :=
  if s.ctl.busy then
    match fetchCode s with
    | none => .fault .upcOutsideRom
    | some u =>
      match decode u with
      | .ok i => exec i s
      | .error _ => .next (reservedUop s)
  else .next s

/-- The move of the agent whose turn it is. -/
def takeTurn (t : Turn) (s : State) : Host.Outcome State Fault Refusal :=
  match t with
  | .seq => seqTurn s
  | .dout => .next (doutMove s)
  | .din => .next (dinMove s)
  | .dinError => .next (dinErrorMove s)
  | .aes => .next (aesMove s)
  | .chaos m => .next (chaosMove m s)
  | .start key iv pt ct bc => .next (startRequest key iv pt ct bc s)
  | .store a b => .next (hostStore a b s)
  | .systemReset => .next (systemReset s)

/-- One step; parameters that break the spec's constraints are refused (20_memory.md R65). -/
def step (s : State) : Host.Outcome State Fault Refusal :=
  if s.cfg.wf then takeTurn s.turn (popTurn s) else .refused .configRefused

/-- `s` with the code `w` where the sequencer fetches next: in the ROM at `upc`, the sequencer busy and the next turn its own
(log 7). -/
def State.withFetchWord (s : State) (_nbits w : Nat) : State :=
  { s with
    rom := romWith s.rom s.ctl.upc.toNat (BitVec.ofNat 8 w),
    ctl := { s.ctl with busy := true },
    aux := { s.aux with script := .seq :: s.aux.script } }

end Sys2Proof.Machine
end

