-- ==== Sys2Proof/Safety.lean ====
section
/-! DEFINITION. The terms claims use of runs: a run along a list of turns, the safe states, and fairness. -/

namespace Sys2Proof.Machine

/-- The sequencer and the agents take the given turns, one after the other, from `s`; none where a turn stops the machine. -/
def runTurns : List Turn → State → Option State
  | [], s => some s
  | t :: ts, s =>
    match takeTurn t s with
    | .next s' => runTurns ts s'
    | _ => none

/-- The addresses a memory lists are 32-bit addresses (10_state.md R50). -/
def Memory.inSpace (m : Memory) : Prop := ∀ c ∈ m, c.1 < 2 ^ 32

/-- The model fault set is empty (10_state.md R30: "a claim takes `F = ∅` as a premise"). -/
def State.noFault (s : State) : Bool := s.faults == ⟨false, false, false⟩

/-- The premises a claim about defined behaviour takes (R30, 44_autonomous_units.md R231). -/
def State.defined (s : State) : Bool := s.noFault && !s.ctl.chaos

/-- The state after n steps of the machine from `s`, none once it has stopped. -/
def stateAt (s : State) : Nat → Option State
  | 0 => some s
  | n + 1 =>
    match stateAt s n with
    | some t => (match step t with | .next t' => some t' | _ => none)
    | none => none

/-- 44_autonomous_units.md R232, weak fairness, of the run from `s`: an agent that has an enabled move at every state of the run
from some point on takes a move later. A run that stops is fair. A premise of claims; the step does not build it in (log 27). -/
def weaklyFair (s : State) : Prop :=
  ∀ a n, (∀ m, n ≤ m → ∃ t, stateAt s m = some t ∧ agentEnabled a t = true) →
    ∃ m t, n ≤ m ∧ stateAt s m = some t ∧ takesMove a t.turn t = true

/-! ## Frames -/

/-- Every byte of memory reads as before. -/
def memSame (s t : State) : Prop := ∀ b, t.mem.read b = s.mem.read b

/-- Every byte of memory outside the n bytes from `a` reads as before. -/
def memSameOutside (s t : State) (a n : Nat) : Prop := ∀ b, (b < a ∨ a + n ≤ b) → t.mem.read b = s.mem.read b

/-- Every session register but those listed is as before. -/
def xSameBut (s t : State) (rs : List XReg) : Prop := ∀ r, r ∉ rs → t.x.get r = s.x.get r

/-- Every peripheral register but those listed is as before. -/
def regsSameBut (s t : State) (rs : List PReg) : Prop := ∀ r, r ∉ rs → regGet t.per r = regGet s.per r

/-! ## Micro-ops one after the other, no other agent between them -/

/-- The micro-ops of the list, executed in order. -/
def runMicroOps : List Instr → State → Option State
  | [], s => some s
  | i :: is, s =>
    match exec i s with
    | .next t => runMicroOps is t
    | _ => none

/-- The peripheral register a micro-op writes, if any (30_encoding.md R93, "bus effect"). -/
def writtenReg : Instr → Option PReg
  | .clkEn => some .sysClkEn
  | .clkRstclr => some .sysRstEn
  | .dmaInRstSet | .dmaInRstClr => some .dmaInConf0
  | .dmaOutRstSet | .dmaOutRstClr => some .dmaOutConf0
  | .dmaInLink | .dmaInStart => some .dmaInLink
  | .dmaOutLink | .dmaOutStart => some .dmaOutLink
  | .dmaInPeri => some .dmaInPeriSel
  | .dmaOutPeri => some .dmaOutPeriSel
  | .aesDmaen => some .aesDmaEnable
  | .aesIntdis => some .aesIntEna
  | .aesMode => some .aesMode
  | .aesBlkmode => some .aesBlockMode
  | .aesKey i => some (keyReg i)
  | .aesBlknum => some .aesBlockNum
  | .aesIncsel => some .aesIncSel
  | .aesTrigger => some .aesTrigger
  | .aesIv i => some (ivReg i)
  | .relExit => some .aesDmaExit
  | _ => none

/-! ## Invariants -/

/-- 10_state.md R26, 30_encoding.md R96: `s.state` while the sequencer stands at ROM index n. -/
def stateAtUpc (n : Nat) : SeqState :=
  if n ≤ 2 then .idle
  else if n ≤ 18 then .clockEnabled
  else if n ≤ 25 then .dmaArmed
  else if n ≤ 33 then .keyProgrammed
  else if n ≤ 34 then .triggered
  else if n ≤ 36 then .awaitingDma
  else .done

/-- 60_exceptions.md R240: the status, detail and `eupc` an exception leaves. -/
def errorCode (st : Status) (info : BitVec 2) (eupc : BitVec 6) : Prop :=
  (st = .invalidLength ∧ info = 0 ∧ eupc = 0) ∨ (st = .hwTimeout ∧ info = 1 ∧ eupc = 34) ∨
    (st = .hwTimeout ∧ info = 2 ∧ eupc = 35) ∨ (st = .dmaFault ∧ info = 1 ∧ eupc = 36) ∨
    (st = .dmaFault ∧ info = 2 ∧ eupc = 36)

/-- 10_state.md R27, R28, R23: the control fields while a run is in progress, and between runs. -/
def controlLegal (c : Control) : Prop :=
  (c.busy = true → c.upc.toNat ≤ 37 ∧ c.state = stateAtUpc c.upc.toNat ∧ c.status = .ok ∧ c.errinfo = 0) ∧
    (c.busy = false →
      (c.state = .idle ∧ c.status = .ok ∧ c.errinfo = 0 ∧ c.upc = 0) ∨
      (c.state = .released ∧ c.status = .ok ∧ c.errinfo = 0 ∧ (c.upc = 0 ∨ c.upc = 37)) ∨
      (c.state = .error ∧ errorCode c.status c.errinfo c.eupc ∧ c.upc = c.eupc))

/-- 43_orchestrator.md R176: while a run is in progress the failed reads counted stay below a finite limit. -/
def pollBelowLimit (s : State) : Prop :=
  s.ctl.busy = true → ∀ n, s.cfg.checks.pollLimit = .bounded n → (s.xval .pollcnt).toNat < n.toNat

/-- 10_state.md R22: while a run is in progress the session registers its micro-ops read have been written. -/
def sessionWritten (s : State) : Prop :=
  s.ctl.busy = true →
    (∀ r, r ≠ .dw0 → r ≠ .tmp → (s.x.get r).written = true) ∧
      (s.ctl.upc.toNat = 36 → (s.x.get .dw0).written = true)

/-- The sequencer's invariant: the spec's ROM, legal control fields, the poll count below its limit, and neither
`UNWRITTEN_READ` nor `RESERVED_UOP` recorded (60_exceptions.md R245). -/
def seqInv (s : State) : Prop :=
  s.rom = seqRom ∧ controlLegal s.ctl ∧ pollBelowLimit s ∧ sessionWritten s ∧
    s.faults.unwrittenRead = false ∧ s.faults.reservedUop = false

/-- 10_state.md R34: the start bits of the link registers read back 0. -/
def startBitsZero (s : State) : Prop :=
  bitOf s.per.dmaInLink s.cfg.bits.inStart = false ∧ bitOf s.per.dmaOutLink s.cfg.bits.outStart = false

/-- 44_autonomous_units.md R221: the agents of a unit held in reset are idle. -/
def heldIdle (s : State) : Prop :=
  (aesHeld s = true → s.units.aes.st = .idle) ∧
    (dmaHeld s = true → s.units.dout.st = .idle ∧ s.units.din.st = .idle)

/-- 10_state.md R42, "`length ≤ size`": DIN never counts more bytes than the segment holds, nor DOUT more than its length. -/
def segmentsBounded (s : State) : Prop :=
  (s.units.din.st = .recv → s.units.din.k ≤ dwSize s.units.din.w0) ∧
    (s.units.dout.st = .send → s.units.dout.k ≤ dwLength s.units.dout.w0)

/-- 44_autonomous_units.md R213, R214: while no misuse has been seen, an AES that works, or is done, works with the key in
the key registers and the block count in `AES_BLOCK_NUM`, and after i blocks its counter block is `inc32^i` of the IV
registers; a done AES has made all its blocks. -/
def aesFollowsRegisters (s : State) : Prop :=
  s.ctl.chaos = false → s.units.aes.st ≠ .idle →
    s.units.aes.key = blockOfWords s.per.aesKey0 s.per.aesKey1 s.per.aesKey2 s.per.aesKey3 ∧
    s.units.aes.ctr = inc32^[s.units.aes.i.toNat] (blockOfWords s.per.aesIv0 s.per.aesIv1 s.per.aesIv2 s.per.aesIv3) ∧
    s.units.aes.n = s.per.aesBlockNum ∧ 1 ≤ s.units.aes.n.toNat ∧ s.units.aes.n.toNat ≤ 255 ∧
    s.units.aes.i.toNat ≤ s.units.aes.n.toNat ∧
    (s.units.aes.st = .done → s.units.aes.i = s.units.aes.n)

/-! ## Runs -/

/-- A turn of the sequencer or of an agent, not of the host. -/
def isMachineTurn : Turn → Bool
  | .seq | .dout | .din | .dinError | .aes | .chaos _ => true
  | .start .. | .store .. | .systemReset => false

/-- A turn that is neither a start nor a system reset. -/
def staysInRun : Turn → Bool
  | .start .. | .systemReset => false
  | _ => true

/-- The two address ranges have no byte in common. -/
def disjointRanges (a n b m : Nat) : Prop := a + n ≤ b ∨ b + m ≤ a

/-- 43_orchestrator.md R199: the host's duties at a start with buffers `pt`, `ct` of 16·bc bytes: both inside
`P_DMA_REGION`, disjoint from each other and from the descriptors, and every unit idle. -/
def hostDuties (s : State) (pt ct bc : Word) : Prop :=
  s.cfg.rangeInRegion pt.toNat (16 * bc.toNat) = true ∧ s.cfg.rangeInRegion ct.toNat (16 * bc.toNat) = true ∧
    disjointRanges pt.toNat (16 * bc.toNat) ct.toNat (16 * bc.toNat) ∧
    disjointRanges pt.toNat (16 * bc.toNat) s.cfg.descOut.toNat 12 ∧
    disjointRanges pt.toNat (16 * bc.toNat) s.cfg.descIn.toNat 12 ∧
    disjointRanges ct.toNat (16 * bc.toNat) s.cfg.descOut.toNat 12 ∧
    disjointRanges ct.toNat (16 * bc.toNat) s.cfg.descIn.toNat 12 ∧
    s.units.dout.st = .idle ∧ s.units.din.st = .idle ∧ s.units.aes.st = .idle

/-- `t` is the end of a successful run of the start `(key, iv, pt, ct, bc)` from `s`, along the turns `ts` of the sequencer
and the agents, in profile REIMPL with the spec's ROM, on an idle system and with the host's duties kept
(43_orchestrator.md R181); the start bits read 0 (10_state.md R34), as they do in every state a run reaches. -/
def successfulRun (s : State) (key iv : Block) (pt ct bc : Word) (ts : List Turn) (t : State) : Prop :=
  s.cfg.wf = true ∧ s.cfg.checks.isReimpl = true ∧ s.rom = seqRom ∧ s.ctl.busy = false ∧ s.noFault = true ∧
    startBitsZero s ∧ hostDuties s pt ct bc ∧ 1 ≤ bc.toNat ∧ bc.toNat ≤ 255 ∧
    (∀ u ∈ ts, isMachineTurn u = true) ∧ runTurns (.start key iv pt ct bc :: ts) s = some t ∧
    t.ctl.state = .released ∧ t.ctl.status = .ok ∧ t.ctl.chaos = false ∧ t.noFault = true

/-- Byte `16·i + j` of the CTR ciphertext of the bytes `p` under `key` and `iv` (43_orchestrator.md R181). -/
def ctrByte (p : Nat → Byte) (key iv : Block) (i : Nat) (j : Fin 16) : Byte :=
  p (16 * i + j.val) ^^^ (Config.aes128 key (inc32^[i] iv))[j]

end Sys2Proof.Machine
end

