-- ==== Sys2Proof/Certificates/Slice0/Obligations.lean ====
section
/-! DEFINITION. The statements for the provers, from the numbered rules of spec/. Each docstring names the rules; what rests
on a choice of the model says so. -/

open Sys2Proof Sys2Proof.Machine

namespace Sys2Proof.Machine

/-- The frame and the result of a read-modify-write micro-op (41_dma_channel.md R130, 10_state.md R34): one read, then one
write of the value changed by `f`; only the register and `TMP` change, no byte of memory, no fault name. -/
def readModifyWrites (r : PReg) (f : Word → Word) (s t : State) : Prop :=
  regGet t.per r = storedValue s.cfg r (f (regValue r s)) ∧ regsSameBut s t [r] ∧
    t.xval .tmp = regValue r s ∧ xSameBut s t [.tmp] ∧
    memSame s t ∧ t.faults = s.faults ∧ t.cfg = s.cfg ∧ t.rom = s.rom ∧
    t.aux.trace = .write (regGet s.cfg.addr.stored r).toNat (f (regValue r s)) ::
      .read (regGet s.cfg.addr.stored r).toNat :: s.aux.trace

/-- The frame of a micro-op that writes one descriptor word `v` at `a` and nothing else (40_descriptor.md). -/
def writesDescriptorWord (a : Nat) (v : Word) (s t : State) : Prop :=
  t.mem.read32 a = v ∧ memSameOutside s t a 4 ∧ t.x = s.x ∧ t.per = s.per ∧ t.units = s.units ∧
    t.ctl = { s.ctl with upc := s.ctl.upc + 1 } ∧ t.cfg = s.cfg ∧ t.rom = s.rom ∧
    t.aux.trace = .write a v :: s.aux.trace

/-- 42_aes_programmer.md R151 to R158: the register an `aes` micro-op other than the trigger writes, and the value. -/
def aesOperand (i : Instr) (s : State) : Option (PReg × Word) :=
  match i with
  | .aesDmaen => some (.aesDmaEnable, s.cfg.vals.dmaEnableOn)
  | .aesIntdis => some (.aesIntEna, s.cfg.vals.intEnaOff)
  | .aesMode => some (.aesMode, s.cfg.vals.modeEnc128)
  | .aesBlkmode => some (.aesBlockMode, s.cfg.vals.blockModeCtr)
  | .aesKey 0 => some (.aesKey0, s.xval .key0)
  | .aesKey 1 => some (.aesKey1, s.xval .key1)
  | .aesKey 2 => some (.aesKey2, s.xval .key2)
  | .aesKey 3 => some (.aesKey3, s.xval .key3)
  | .aesBlknum => some (.aesBlockNum, s.xval .bc)
  | .aesIncsel => some (.aesIncSel, s.cfg.vals.incSelInc32)
  | .aesIv 0 => some (.aesIv0, s.xval .iv0)
  | .aesIv 1 => some (.aesIv1, s.xval .iv1)
  | .aesIv 2 => some (.aesIv2, s.xval .iv2)
  | .aesIv 3 => some (.aesIv3, s.xval .iv3)
  | _ => none

/-- 42_aes_programmer.md R154, R156, R158: the session register an `aes` micro-op reads, if any; a register not written since
reset goes on record in `F` (10_state.md R22). -/
def aesSource (i : Instr) : Option XReg :=
  match i with
  | .aesKey 0 => some .key0
  | .aesKey 1 => some .key1
  | .aesKey 2 => some .key2
  | .aesKey 3 => some .key3
  | .aesBlknum => some .bc
  | .aesIv 0 => some .iv0
  | .aesIv 1 => some .iv1
  | .aesIv 2 => some .iv2
  | .aesIv 3 => some .iv3
  | _ => none

/-- 30_encoding.md R96, upc 19 to 32: the accelerator's configuration, in ROM order. -/
def aesConfigOps : List Instr :=
  [.aesDmaen, .aesIntdis, .aesMode, .aesKey 0, .aesKey 1, .aesKey 2, .aesKey 3, .aesBlkmode, .aesBlknum, .aesIncsel,
   .aesIv 0, .aesIv 1, .aesIv 2, .aesIv 3]

/-- R96, upc 0 to 18: the checks, the clocks, the descriptors and the DMA channel, in ROM order. -/
def setUpOps : List Instr :=
  [.chkLen, .clkEn, .clkRstclr, .dscOutW0, .dscOutW1, .dscOutW2, .dscInW0, .dscInW1, .dscInW2,
   .dmaInRstSet, .dmaInRstClr, .dmaOutRstSet, .dmaOutRstClr, .dmaInLink, .dmaOutLink, .dmaInPeri, .dmaOutPeri,
   .dmaInStart, .dmaOutStart]

/-- R96, upc 33 to 37, in ROM order. -/
def finishOps : List Instr := [.aesTrigger, .pollAes, .pollDesc, .chkDma, .relExit]

/-- The transactions the sequencer may make in one micro-op, by micro-op (30_encoding.md R93, column "bus effect"). -/
def allowedEvent (i : Instr) (cfg : Params) (e : BusEvent) : Prop :=
  match e with
  | .write a _ =>
    (∃ r, writtenReg i = some r ∧ a = (regGet cfg.addr.stored r).toNat) ∨
      (i = .dscOutW0 ∧ a = cfg.descOut.toNat) ∨ (i = .dscOutW1 ∧ a = cfg.descOut.toNat + 4) ∨
      (i = .dscOutW2 ∧ a = cfg.descOut.toNat + 8) ∨ (i = .dscInW0 ∧ a = cfg.descIn.toNat) ∨
      (i = .dscInW1 ∧ a = cfg.descIn.toNat + 4) ∨ (i = .dscInW2 ∧ a = cfg.descIn.toNat + 8)
  | .read a =>
    (∃ r, writtenReg i = some r ∧ isAesReg r = false ∧ a = (regGet cfg.addr.stored r).toNat) ∨
      (i = .pollAes ∧ a = cfg.addr.aesState.toNat) ∨ (i = .pollDesc ∧ a = cfg.descIn.toNat) ∨
      (i = .chkDma ∧ cfg.checks.fifoCheck = true ∧
        (a = cfg.addr.dmaInfifoStatus.toNat ∨ a = cfg.addr.dmaOutfifoStatus.toNat))

/-- The transactions a micro-op adds to the record. -/
def newEvents (s t : State) : List BusEvent := t.aux.trace.take (t.aux.trace.length - s.aux.trace.length)

/-- 44_autonomous_units.md R204, R209, R230 (f): an agent's fetch of the descriptor at `a` from `s` to `t` gives the words `w` and
`b`: those of memory, and for a word outside `P_DMA_REGION`, were it only partly (log 19), a free value (log 5), which is misuse.
Nothing else changes but the agents. -/
def fetchesDescriptor (a : Nat) (w b : Word) (s t : State) : Prop :=
  let in0 := s.cfg.rangeInRegion a 4
  let in1 := s.cfg.rangeInRegion (a + 4) 4
  w = (if in0 then s.mem.read32 a else Config.drawWord s.aux.draws) ∧
    b = (if in1 then s.mem.read32 (a + 4) else Config.drawWord (if in0 then s.aux.draws else s.aux.draws + 1)) ∧
    t.ctl = { s.ctl with chaos := s.ctl.chaos || !in0 || !in1 } ∧ memSame s t ∧ t.per = s.per ∧ t.x = s.x ∧
    t.faults = s.faults ∧ t.cfg = s.cfg ∧ t.rom = s.rom

/-- R70, R230 (f): an agent's write of the word `v` at `a`, or of nothing, with misuse, outside `P_DMA_REGION`, were it only partly
(log 19); the control fields otherwise become `c`. -/
def writesBack (a : Nat) (v : Word) (c : Control) (s t : State) : Prop :=
  (s.cfg.rangeInRegion a 4 = true → t.mem.read32 a = v ∧ memSameOutside s t a 4 ∧ t.ctl = c) ∧
    (s.cfg.rangeInRegion a 4 = false → memSame s t ∧ t.ctl = { c with chaos := true }) ∧ t.per = s.per ∧ t.x = s.x ∧
    t.faults = s.faults ∧ t.cfg = s.cfg ∧ t.rom = s.rom

/-- The address of a transaction. -/
def eventAddr : BusEvent → Nat
  | .read a => a
  | .write a _ => a

end Sys2Proof.Machine

/-! ## Encoding and fetching -/

/-- R90, R93: no bit of an encoding is dropped: decoding the code of a well-formed micro-op gives it back. -/
def Obligations.DecodeOfEncodeIsTheMicroOp : Prop :=
  ∀ i : Instr, i.wf = true → decode (encode i) = .ok i

/-- R93, R100: a byte has one meaning: what the decoder reads is well-formed and encodes to that byte. -/
def Obligations.EncodeOfDecodeIsTheByte : Prop :=
  ∀ (u : Byte) (i : Instr), decode u = .ok i → i.wf = true ∧ encode i = u

/-- R100: "find the row of rule R93 with `u & mask = code`; if there is none the code is reserved; for `aes.key`/`aes.iv` set
`i = u[1:0]`", on every byte. -/
def Obligations.DecodingFindsTheMatchingRow : Prop :=
  ∀ u : Byte,
    (∃ r ∈ opRows, u &&& r.mask = r.code ∧ decode u = .ok (r.make (u.extractLsb' 0 2).toNat)) ∨
      ((∀ r ∈ opRows, u &&& r.mask ≠ r.code) ∧ decode u = .error (.reservedCode u))

/-- R94: the reserved codes are those of the rule's list, and no entry of the ROM is one. -/
def Obligations.ReservedCodesAreTheListedOnes : Prop :=
  (∀ u : Byte, decode u = .error (.reservedCode u) ↔
    (0x02 ≤ u.toNat ∧ u.toNat ≤ 0x1F) ∨ (0x22 ≤ u.toNat ∧ u.toNat ≤ 0x3F) ∨ u.toNat = 0x43 ∨
      (0x47 ≤ u.toNat ∧ u.toNat ≤ 0x5F) ∨ (0x6A ≤ u.toNat ∧ u.toNat ≤ 0x7F) ∨ u.toNat = 0x8B ∨
      (0x90 ≤ u.toNat ∧ u.toNat ≤ 0x9F) ∨ (0xA2 ≤ u.toNat ∧ u.toNat ≤ 0xBF) ∨ 0xC1 ≤ u.toNat) ∧
  ∀ u ∈ seqRom, ∃ i, decode u = .ok i

/-- R93: a few codes, written out from the opcode map. -/
def Obligations.SampleCodesDecode : Prop :=
  decode 0b00000000 = .ok .chkLen ∧ decode 0b00100001 = .ok .clkRstclr ∧ decode 0b01000100 = .ok .dscInW0 ∧
    decode 0b01101001 = .ok .dmaOutStart ∧ decode 0b10000110 = .ok (.aesKey 2) ∧ decode 0b10001111 = .ok (.aesIv 3) ∧
    decode 0b10001010 = .ok .aesTrigger ∧ decode 0b10100001 = .ok .pollDesc ∧ decode 0b11000000 = .ok .relExit

/-- R96: the ROM, decoded, is the micro-program, and the machine carries it after reset. -/
def Obligations.RomIsTheMicroProgram : Prop :=
  State.reset.rom = seqRom ∧
  seqRom.map (fun u => (decode u).toOption) =
    (setUpOps ++ aesConfigOps ++ finishOps).map some

/-- R172, R97: on the sequencer's turn, while busy, a step is the meaning of the micro-op the code at `upc` decodes to; the
step itself only takes the turn off the script (log 6). -/
def Obligations.StepRunsTheDecodedMicroOp : Prop :=
  ∀ (s : State) (u : Byte) (i : Instr) (rest : List Turn),
    s.cfg.wf = true → s.aux.script = .seq :: rest → s.ctl.busy = true → s.rom[s.ctl.upc.toNat]? = some u →
      decode u = .ok i → step s = exec i { s with aux := { s.aux with script := rest } }

/-- The word placed by `withFetchWord` is what the very next step runs (the model's interface; log 7). -/
def Obligations.StepRunsTheFetchWord : Prop :=
  ∀ (s : State) (w : Nat) (i : Instr), s.cfg.wf = true → decodeTableWord 8 w = some i →
    step (s.withFetchWord 8 w) = exec i { s.withFetchWord 8 w with aux := s.aux }

/-- R94, R245: decoding a reserved code adds `RESERVED_UOP` to `F`, changes nothing else, and the sequencer is stuck: any
number of further turns of its own changes nothing more, and `s.busy` stays 1. -/
def Obligations.ReservedCodeStopsTheSequencer : Prop :=
  ∀ (s : State) (u : Byte) (n : Nat),
    s.ctl.busy = true → s.rom[s.ctl.upc.toNat]? = some u → decode u = .error (.reservedCode u) →
      runTurns (List.replicate (n + 1) .seq) s = some { s with faults := { s.faults with reservedUop := true } }

/-- R27, R172: while `s.busy = 0` the sequencer takes no step. -/
def Obligations.IdleSequencerTakesNoStep : Prop :=
  ∀ (s : State) (n : Nat), s.ctl.busy = false → runTurns (List.replicate n .seq) s = some s

/-- R65: every transaction of a micro-op is at a multiple of 4, for parameters that pass the configuration check; parameters
with an unaligned register or descriptor address are refused. -/
def Obligations.SequencerAccessesAreAligned : Prop :=
  (∀ (i : Instr) (s t : State), s.cfg.wf = true → exec i s = .next t → ∀ e ∈ newEvents s t, eventAddr e % 4 = 0) ∧
  (∀ s : State, (s.cfg.descOut.toNat % 4 ≠ 0 ∨ s.cfg.descIn.toNat % 4 ≠ 0 ∨ ∃ a ∈ s.cfg.addr.all, a.toNat % 4 ≠ 0) →
    step s = .refused .configRefused)

/-! ## The family `chk` -/

/-- R173: the three outcomes of `chk.len`; no transaction in any of them. -/
def Obligations.ChkLenOutcomes : Prop :=
  ∀ s : State, (s.x.get .bc).written = true →
    (s.cfg.checks.checkZero = true → s.xval .bc = 0 →
      exec .chkLen s = .next { s with ctl := { s.ctl with state := .released, busy := false } }) ∧
    (¬(s.cfg.checks.checkZero = true ∧ s.xval .bc = 0) → s.cfg.checks.checkLength = true → 255 < (s.xval .bc).toNat →
      exec .chkLen s = .next { s with ctl := { s.ctl with
        status := .invalidLength, errinfo := 0, eupc := s.ctl.upc, state := .error, busy := false } }) ∧
    (¬(s.cfg.checks.checkZero = true ∧ s.xval .bc = 0) →
      ¬(s.cfg.checks.checkLength = true ∧ 255 < (s.xval .bc).toNat) →
      exec .chkLen s = .next { s with ctl := { s.ctl with upc := s.ctl.upc + 1 } })

/-- R178, R246: the outcomes of `chk.dma`: err_eof before the FIFO predicate, the FIFO registers read (inbound first) only
where err_eof did not raise and `P_FIFO_CHECK` is on, and R220: a drained engine reports no fault. -/
def Obligations.ChkDmaOutcomes : Prop :=
  ∀ s : State, (s.x.get .dw0).written = true →
    (s.cfg.checks.checkErrEof = true → dwErrEof (s.xval .dw0) = true →
      exec .chkDma s = .next { s with ctl := { s.ctl with
        status := .dmaFault, errinfo := 1, eupc := s.ctl.upc, state := .error, busy := false } }) ∧
    (¬(s.cfg.checks.checkErrEof = true ∧ dwErrEof (s.xval .dw0) = true) → s.cfg.checks.fifoCheck = false →
      exec .chkDma s = .next { s with ctl := { s.ctl with state := .done, upc := s.ctl.upc + 1 } }) ∧
    (¬(s.cfg.checks.checkErrEof = true ∧ dwErrEof (s.xval .dw0) = true) → s.cfg.checks.fifoCheck = true →
      ∃ t faulty, exec .chkDma s = .next t ∧
        (drained s = true → faulty = false) ∧ (drained s = false → ∃ a b, faulty = Config.fifoFault a b) ∧
        t.ctl = (if faulty then { s.ctl with
            status := .dmaFault, errinfo := 2, eupc := s.ctl.upc, state := .error, busy := false }
          else { s.ctl with state := .done, upc := s.ctl.upc + 1 }) ∧
        t.x = s.x ∧ t.per = s.per ∧ t.units = s.units ∧ memSame s t ∧ t.faults = s.faults ∧
        t.aux.trace = .read s.cfg.addr.dmaOutfifoStatus.toNat :: .read s.cfg.addr.dmaInfifoStatus.toNat :: s.aux.trace)

/-! ## The family `clk` -/

/-- R174, R175: the two micro-ops set the clock bits and clear the reset bits, by read-modify-write, and change nothing else but
`s.state` and `upc`. -/
def Obligations.ClockAndResetBits : Prop :=
  ∀ s : State,
    (∃ t, exec .clkEn s = .next t ∧
      readModifyWrites .sysClkEn (fun v => v ||| bitMask s.cfg.bits.aesClk ||| bitMask s.cfg.bits.dmaClk) s t ∧
      t.per.sysClkEn = s.per.sysClkEn ||| bitMask s.cfg.bits.aesClk ||| bitMask s.cfg.bits.dmaClk ∧
      t.units = s.units ∧ t.ctl = { s.ctl with upc := s.ctl.upc + 1 }) ∧
    (∃ t, exec .clkRstclr s = .next t ∧
      readModifyWrites .sysRstEn (fun v => v &&&
        ~~~(bitMask s.cfg.bits.aesRst ||| bitMask s.cfg.bits.dsRst ||| bitMask s.cfg.bits.dmaRst)) s t ∧
      t.per.sysRstEn = s.per.sysRstEn &&&
        ~~~(bitMask s.cfg.bits.aesRst ||| bitMask s.cfg.bits.dsRst ||| bitMask s.cfg.bits.dmaRst) ∧
      t.units = s.units ∧ t.ctl = { s.ctl with upc := s.ctl.upc + 1, state := .clockEnabled })

/-- R221, R257: after `clk.en` and `clk.rstclr` neither unit is gated, and no micro-op gates one again. -/
def Obligations.UnitsAreUngatedForTheRun : Prop :=
  (∀ s : State, ∃ t, runMicroOps [.clkEn, .clkRstclr] s = some t ∧ aesGated t = false ∧ dmaGated t = false) ∧
  (∀ (i : Instr) (s t : State), exec i s = .next t →
    (aesGated s = false → aesGated t = false) ∧ (dmaGated s = false → dmaGated t = false))

/-! ## The family `dsc` -/

/-- R110, R111, R114: word 0 of the two descriptors, all of it written: `L = 16 · (x[BC] mod 256)`, the flags, and the
reserved bits 27:24 and 29 as 0. -/
def Obligations.DescriptorWordZero : Prop :=
  ∀ s : State,
    (∃ t w, exec .dscOutW0 s = .next t ∧ writesDescriptorWord s.cfg.descOut.toNat w s t ∧
      t.faults = (noteRead .bc s).faults ∧
      (dwSize w).toNat = 16 * ((s.xval .bc).toNat % 256) ∧ (dwLength w).toNat = 16 * ((s.xval .bc).toNat % 256) ∧
      dwErrEof w = false ∧ dwSucEof w = true ∧ dwOwner w = true ∧ w.extractLsb' 24 4 = 0 ∧ w.getLsbD 29 = false) ∧
    (∃ t w, exec .dscInW0 s = .next t ∧ writesDescriptorWord s.cfg.descIn.toNat w s t ∧
      t.faults = (noteRead .bc s).faults ∧
      (dwSize w).toNat = 16 * ((s.xval .bc).toNat % 256) ∧ dwLength w = 0 ∧
      dwErrEof w = false ∧ dwSucEof w = false ∧ dwOwner w = true ∧ w.extractLsb' 24 4 = 0 ∧ w.getLsbD 29 = false)

/-- R112, R113, R115, R116: words 1 and 2 of the two descriptors. -/
def Obligations.DescriptorBufferAndNext : Prop :=
  ∀ s : State,
    (∃ t, exec .dscOutW1 s = .next t ∧ writesDescriptorWord (s.cfg.descOut.toNat + 4) (s.xval .pt) s t ∧
      t.faults = (noteRead .pt s).faults) ∧
    (∃ t, exec .dscOutW2 s = .next t ∧ writesDescriptorWord (s.cfg.descOut.toNat + 8) 0 s t ∧ t.faults = s.faults) ∧
    (∃ t, exec .dscInW1 s = .next t ∧ writesDescriptorWord (s.cfg.descIn.toNat + 4) (s.xval .ct) s t ∧
      t.faults = (noteRead .ct s).faults) ∧
    (∃ t, exec .dscInW2 s = .next t ∧ writesDescriptorWord (s.cfg.descIn.toNat + 8) 0 s t ∧ t.faults = s.faults)

/-! ## The family `dma` -/

/-- R131 to R134, R202, R207: the four sub-channel reset micro-ops. The agent and its queue are reset by the write that
sets the bit, on a gated or held unit as on any other (R201); a write to a gated unit is misuse (R230 (h)). On a unit that is
not gated the register keeps every other bit as it was stored (R34). -/
def Obligations.SubChannelResets : Prop :=
  ∀ s : State,
    (∃ t, exec .dmaInRstSet s = .next t ∧
      readModifyWrites .dmaInConf0 (fun v => v ||| bitMask s.cfg.bits.inRst) s t ∧
      t.ctl = { s.ctl with upc := s.ctl.upc + 1, chaos := s.ctl.chaos || dmaGated s } ∧
      (dmaGated s = false → t.per.dmaInConf0 = s.per.dmaInConf0 ||| bitMask s.cfg.bits.inRst) ∧
      t.units = { s.units with din := { s.units.din with st := .idle }, qout := [], qoutEof := false }) ∧
    (∃ t, exec .dmaInRstClr s = .next t ∧
      readModifyWrites .dmaInConf0 (fun v => v &&& ~~~bitMask s.cfg.bits.inRst) s t ∧
      (dmaGated s = false → t.per.dmaInConf0 = s.per.dmaInConf0 &&& ~~~bitMask s.cfg.bits.inRst) ∧
      t.ctl = { s.ctl with upc := s.ctl.upc + 1, chaos := s.ctl.chaos || dmaGated s } ∧ t.units = s.units) ∧
    (∃ t, exec .dmaOutRstSet s = .next t ∧
      readModifyWrites .dmaOutConf0 (fun v => v ||| bitMask s.cfg.bits.outRst) s t ∧
      t.ctl = { s.ctl with upc := s.ctl.upc + 1, chaos := s.ctl.chaos || dmaGated s } ∧
      (dmaGated s = false → t.per.dmaOutConf0 = s.per.dmaOutConf0 ||| bitMask s.cfg.bits.outRst) ∧
      t.units = { s.units with dout := { s.units.dout with st := .idle }, qin := [] }) ∧
    (∃ t, exec .dmaOutRstClr s = .next t ∧
      readModifyWrites .dmaOutConf0 (fun v => v &&& ~~~bitMask s.cfg.bits.outRst) s t ∧
      (dmaGated s = false → t.per.dmaOutConf0 = s.per.dmaOutConf0 &&& ~~~bitMask s.cfg.bits.outRst) ∧
      t.ctl = { s.ctl with upc := s.ctl.upc + 1, chaos := s.ctl.chaos || dmaGated s } ∧ t.units = s.units)

/-- R135 to R138: the link and peripheral-select micro-ops write their field and, on a unit that is not gated, do nothing else:
the start bits read 0 (R34) and lie outside the link field (log 12). -/
def Obligations.LinkAndPeripheralSelect : Prop :=
  ∀ s : State,
    (∃ t, exec .dmaInLink s = .next t ∧
      readModifyWrites .dmaInLink
        (fun v => (v &&& ~~~s.cfg.linkMask) ||| (s.cfg.descIn &&& s.cfg.linkMask)) s t ∧
      t.ctl.upc = s.ctl.upc + 1 ∧
      (s.cfg.wf = true → dmaGated s = false → startBitsZero s →
        t.per.dmaInLink = (s.per.dmaInLink &&& ~~~s.cfg.linkMask) ||| (s.cfg.descIn &&& s.cfg.linkMask) ∧
        t.units = s.units ∧ t.ctl = { s.ctl with upc := s.ctl.upc + 1 })) ∧
    (∃ t, exec .dmaOutLink s = .next t ∧
      readModifyWrites .dmaOutLink
        (fun v => (v &&& ~~~s.cfg.linkMask) ||| (s.cfg.descOut &&& s.cfg.linkMask)) s t ∧
      t.ctl.upc = s.ctl.upc + 1 ∧
      (s.cfg.wf = true → dmaGated s = false → startBitsZero s →
        t.per.dmaOutLink = (s.per.dmaOutLink &&& ~~~s.cfg.linkMask) ||| (s.cfg.descOut &&& s.cfg.linkMask) ∧
        t.units = s.units ∧ t.ctl = { s.ctl with upc := s.ctl.upc + 1 })) ∧
    (∃ t, exec .dmaInPeri s = .next t ∧
      readModifyWrites .dmaInPeriSel
        (fun v => (v &&& ~~~s.cfg.periMask) ||| (s.cfg.vals.periAes &&& s.cfg.periMask)) s t ∧
      (dmaGated s = false → t.per.dmaInPeriSel =
        (s.per.dmaInPeriSel &&& ~~~s.cfg.periMask) ||| (s.cfg.vals.periAes &&& s.cfg.periMask)) ∧
      t.units = s.units ∧ t.ctl = { s.ctl with upc := s.ctl.upc + 1, chaos := s.ctl.chaos || dmaGated s }) ∧
    (∃ t, exec .dmaOutPeri s = .next t ∧
      readModifyWrites .dmaOutPeriSel
        (fun v => (v &&& ~~~s.cfg.periMask) ||| (s.cfg.vals.periAes &&& s.cfg.periMask)) s t ∧
      (dmaGated s = false → t.per.dmaOutPeriSel =
        (s.per.dmaOutPeriSel &&& ~~~s.cfg.periMask) ||| (s.cfg.vals.periAes &&& s.cfg.periMask)) ∧
      t.units = s.units ∧ t.ctl = { s.ctl with upc := s.ctl.upc + 1, chaos := s.ctl.chaos || dmaGated s })

/-- R139, R140, R203, R208, R34: the start micro-ops: the start bit acts and is stored as 0; an idle agent whose peripheral
select is the AES goes to FETCH on the descriptor its link field names; any other start is misuse (R230 (c)). Of a unit held in
reset a start is misuse (R230 (h)) and does not take: the agent stays at its reset state (R221; log 16, DEDUCED). -/
def Obligations.SubChannelStarts : Prop :=
  ∀ s : State,
    (∃ t, exec .dmaInStart s = .next t ∧
      readModifyWrites .dmaInLink (fun v => v ||| bitMask s.cfg.bits.inStart) s t ∧
      (dmaGated s = false → t.per.dmaInLink = s.per.dmaInLink &&& ~~~bitMask s.cfg.bits.inStart) ∧
      bitOf t.per.dmaInLink s.cfg.bits.inStart = false ∧ t.ctl.upc = s.ctl.upc + 1 ∧ t.ctl.state = s.ctl.state ∧
      (dmaGated s = false → s.units.din.st = .idle → selectsAes s.cfg s.per.dmaInPeriSel = true →
        t.ctl.chaos = s.ctl.chaos ∧
        t.units = { s.units with din := { s.units.din with
          desc := s.cfg.linkBase ||| ((s.per.dmaInLink ||| bitMask s.cfg.bits.inStart) &&& s.cfg.linkMask),
          st := .fetch } }) ∧
      (dmaGated s = false → (s.units.din.st ≠ .idle ∨ selectsAes s.cfg s.per.dmaInPeriSel = false) →
        t.ctl.chaos = true ∧ t.units = s.units) ∧
      (dmaHeld s = true → t.ctl.chaos = true ∧ t.units = s.units)) ∧
    (∃ t, exec .dmaOutStart s = .next t ∧
      readModifyWrites .dmaOutLink (fun v => v ||| bitMask s.cfg.bits.outStart) s t ∧
      (dmaGated s = false → t.per.dmaOutLink = s.per.dmaOutLink &&& ~~~bitMask s.cfg.bits.outStart) ∧
      bitOf t.per.dmaOutLink s.cfg.bits.outStart = false ∧ t.ctl.upc = s.ctl.upc + 1 ∧ t.ctl.state = .dmaArmed ∧
      (dmaGated s = false → s.units.dout.st = .idle → selectsAes s.cfg s.per.dmaOutPeriSel = true →
        t.ctl.chaos = s.ctl.chaos ∧
        t.units = { s.units with dout := { s.units.dout with
          desc := s.cfg.linkBase ||| ((s.per.dmaOutLink ||| bitMask s.cfg.bits.outStart) &&& s.cfg.linkMask),
          st := .fetch } }) ∧
      (dmaGated s = false → (s.units.dout.st ≠ .idle ∨ selectsAes s.cfg s.per.dmaOutPeriSel = false) →
        t.ctl.chaos = true ∧ t.units = s.units) ∧
      (dmaHeld s = true → t.ctl.chaos = true ∧ t.units = s.units))

/-- R73, R135, R136, R141: link, select and start, in ROM order on an ungated unit with both agents reset, arm DIN on the
input descriptor and DOUT on the output descriptor, without misuse. -/
def Obligations.ArmingNamesTheDescriptors : Prop :=
  ∀ s : State, s.cfg.wf = true → dmaGated s = false → startBitsZero s → s.units.din.st = .idle → s.units.dout.st = .idle →
    ∃ t, runMicroOps [.dmaInLink, .dmaOutLink, .dmaInPeri, .dmaOutPeri, .dmaInStart, .dmaOutStart] s = some t ∧
      t.units.din.desc = s.cfg.descIn ∧ t.units.din.st = .fetch ∧ t.units.dout.desc = s.cfg.descOut ∧
      t.units.dout.st = .fetch ∧ t.ctl.chaos = s.ctl.chaos ∧ t.ctl.state = .dmaArmed ∧ memSame s t

/-! ## The family `aes` -/

/-- R150 to R158: every `aes` micro-op but the trigger is one write of one whole register, with no read, no flag effect and no
exception; a write while the AES is not idle, or while it is gated, is misuse (R230 (a), (h)). -/
def Obligations.AesWholeRegisterWrites : Prop :=
  ∀ (i : Instr) (r : PReg) (v : Word) (s : State), aesOperand i s = some (r, v) →
    ∃ t, exec i s = .next t ∧ regGet t.per r = v ∧ regsSameBut s t [r] ∧ t.x = s.x ∧ t.units = s.units ∧ memSame s t ∧
      t.aux = { s.aux with trace := .write (regGet s.cfg.addr.stored r).toNat v :: s.aux.trace } ∧
      t.faults = (match aesSource i with | some q => (noteRead q s).faults | none => s.faults) ∧
      t.ctl = { s.ctl with
        upc := s.ctl.upc + 1,
        state := if i = .aesKey 3 then .keyProgrammed else s.ctl.state,
        chaos := s.ctl.chaos || s.units.aes.st != .idle || aesGated s }

/-- R159, R213, R63: the trigger. From idle it latches the configuration and starts the AES; a configuration other than R160's,
or a block count of 0 or above 255, is misuse (R230 (k), (e)), and so is one of a gated AES (R230 (h)); a trigger of an AES that is
not idle only is misuse (R230 (b)). Of an AES held in reset it clears the end of frame and starts nothing: the AES stays at its
reset state (R221; log 16, DEDUCED). That (k) is about the four registers R213 tests is the model's reading (log 37, DEDUCED). -/
def Obligations.TriggerLatchesTheConfiguration : Prop :=
  ∀ s : State, ∃ t, exec .aesTrigger s = .next t ∧
    t.per.aesTrigger = s.cfg.vals.trigger ∧ regsSameBut s t [.aesTrigger] ∧ t.x = s.x ∧ t.faults = s.faults ∧ memSame s t ∧
    t.ctl.upc = s.ctl.upc + 1 ∧ t.ctl.state = .triggered ∧ t.ctl.busy = s.ctl.busy ∧ t.ctl.status = s.ctl.status ∧
    t.ctl.errinfo = s.ctl.errinfo ∧ t.ctl.eupc = s.ctl.eupc ∧
    t.aux.trace = .write s.cfg.addr.stored.aesTrigger.toNat s.cfg.vals.trigger :: s.aux.trace ∧
    (aesHeld s = false → s.units.aes.st = .idle →
      t.units = { s.units with
        aes := { st := .work,
                 key := blockOfWords s.per.aesKey0 s.per.aesKey1 s.per.aesKey2 s.per.aesKey3,
                 ctr := blockOfWords s.per.aesIv0 s.per.aesIv1 s.per.aesIv2 s.per.aesIv3,
                 n := s.per.aesBlockNum, i := 0 },
        qoutEof := false } ∧
      (t.ctl.chaos = true ↔ s.ctl.chaos = true ∨ aesGated s = true ∨ s.per.aesDmaEnable ≠ s.cfg.vals.dmaEnableOn ∨
        s.per.aesMode ≠ s.cfg.vals.modeEnc128 ∨ s.per.aesBlockMode ≠ s.cfg.vals.blockModeCtr ∨
        s.per.aesIncSel ≠ s.cfg.vals.incSelInc32 ∨ s.per.aesBlockNum = 0 ∨ 255 < s.per.aesBlockNum.toNat)) ∧
    (s.units.aes.st ≠ .idle → t.units = s.units ∧ t.ctl.chaos = true) ∧
    (aesHeld s = true → s.units.aes.st = .idle →
      t.units = { s.units with qoutEof := false } ∧ t.ctl.chaos = true)

/-- R160: after the fourteen configuration micro-ops in ROM order the accelerator's registers hold exactly these values,
whatever they held before, and every other register is as before. -/
def Obligations.AesConfigurationIsComplete : Prop :=
  ∀ s : State, ∃ t, runMicroOps aesConfigOps s = some t ∧
    t.per = { s.per with
      aesDmaEnable := s.cfg.vals.dmaEnableOn, aesIntEna := s.cfg.vals.intEnaOff, aesMode := s.cfg.vals.modeEnc128,
      aesKey0 := s.xval .key0, aesKey1 := s.xval .key1, aesKey2 := s.xval .key2, aesKey3 := s.xval .key3,
      aesBlockMode := s.cfg.vals.blockModeCtr, aesBlockNum := s.xval .bc, aesIncSel := s.cfg.vals.incSelInc32,
      aesIv0 := s.xval .iv0, aesIv1 := s.xval .iv1, aesIv2 := s.xval .iv2, aesIv3 := s.xval .iv3 } ∧
    t.units = s.units ∧ memSame s t

/-- R14, R62, R63: packing is inverted: the accessors read back the fields `dw0` was made of, the two reserved fields being 0,
and the key or counter block the accelerator takes out of its registers is the byte string the words were packed from. -/
def Obligations.PackedWordsReadBack : Prop :=
  (∀ (size length : BitVec 12) (e f o : Bool),
    dwSize (dw0 size length e f o) = size ∧ dwLength (dw0 size length e f o) = length ∧
      dwErrEof (dw0 size length e f o) = e ∧ dwSucEof (dw0 size length e f o) = f ∧
      dwOwner (dw0 size length e f o) = o ∧ (dw0 size length e f o).extractLsb' 24 4 = 0 ∧
      (dw0 size length e f o).getLsbD 29 = false) ∧
  ∀ b : Block, blockOfWords (blockWord b 0) (blockWord b 1) (blockWord b 2) (blockWord b 3) = b

/-! ## The families `poll` and `rel` -/

/-- R176: the outcomes of `poll.aes`, for the value `v` its one read gives. -/
def Obligations.PollAesOutcomes : Prop :=
  ∀ s : State, (s.x.get .pollcnt).written = true → ∃ t, exec .pollAes s = .next t ∧
    t.per = s.per ∧ t.units = s.units ∧ memSame s t ∧ t.faults = s.faults ∧ xSameBut s t [.pollcnt] ∧
    t.aux.trace = .read s.cfg.addr.aesState.toNat :: s.aux.trace ∧
    (aesStateValue s = s.cfg.vals.stateDone →
      t.xval .pollcnt = 0 ∧ t.ctl = { s.ctl with upc := s.ctl.upc + 1, state := .awaitingDma }) ∧
    (aesStateValue s ≠ s.cfg.vals.stateDone → s.cfg.checks.pollLimit = .unbounded → t.x = s.x ∧ t.ctl = s.ctl) ∧
    (∀ n, aesStateValue s ≠ s.cfg.vals.stateDone → s.cfg.checks.pollLimit = .bounded n →
      t.xval .pollcnt = s.xval .pollcnt + 1 ∧
      t.ctl = (if s.xval .pollcnt + 1 = n then { s.ctl with
          status := .hwTimeout, errinfo := 1, eupc := s.ctl.upc, state := .error, busy := false }
        else s.ctl))

/-- R36, R216: what a read of `AES_STATE` gives: the value of the AES agent's state, or a free value (log 5) while the AES unit
is gated or misuse has been seen. -/
def Obligations.AesStateReads : Prop :=
  ∀ s : State,
    (aesGated s = false → s.ctl.chaos = false →
      (s.units.aes.st = .idle → aesStateValue s = s.cfg.vals.stateIdle) ∧
      (s.units.aes.st = .work → aesStateValue s = s.cfg.vals.stateWork) ∧
      (s.units.aes.st = .done → aesStateValue s = s.cfg.vals.stateDone)) ∧
    (aesGated s = true ∨ s.ctl.chaos = true → aesStateValue s = Config.drawWord s.aux.draws)

/-- R177: the outcomes of `poll.desc`, for the input-descriptor word `w`. -/
def Obligations.PollDescOutcomes : Prop :=
  ∀ s : State, (s.x.get .pollcnt).written = true →
    let w := s.mem.read32 s.cfg.descIn.toNat
    let done : Prop := (s.cfg.checks.doneMode = .or ∧ (dwOwner w = false ∨ dwSucEof w = true)) ∨
      (s.cfg.checks.doneMode = .and ∧ dwOwner w = false ∧ dwSucEof w = true)
    let faultSeen : Prop := s.cfg.checks.checkErrEof = true ∧ dwOwner w = false ∧ dwErrEof w = true
    ∃ t, exec .pollDesc s = .next t ∧
      t.per = s.per ∧ t.units = s.units ∧ memSame s t ∧ t.faults = s.faults ∧ xSameBut s t [.pollcnt, .dw0] ∧
      t.aux.trace = .read s.cfg.descIn.toNat :: s.aux.trace ∧
      (done ∨ faultSeen → t.xval .dw0 = w ∧ t.xval .pollcnt = 0 ∧ t.ctl = { s.ctl with upc := s.ctl.upc + 1 }) ∧
      (¬(done ∨ faultSeen) → s.cfg.checks.pollLimit = .unbounded → t.x = s.x ∧ t.ctl = s.ctl) ∧
      (∀ n, ¬(done ∨ faultSeen) → s.cfg.checks.pollLimit = .bounded n →
        t.xval .pollcnt = s.xval .pollcnt + 1 ∧ t.x.get .dw0 = s.x.get .dw0 ∧
        t.ctl = (if s.xval .pollcnt + 1 = n then { s.ctl with
            status := .hwTimeout, errinfo := 2, eupc := s.ctl.upc, state := .error, busy := false }
          else s.ctl))

/-- R179, R217: `rel.exit` writes the exit register and ends the run; a done AES becomes idle, an idle one stays idle, a
working one is misuse (R230 (i)), and so is the write to a gated AES (R230 (h)). -/
def Obligations.ReleaseEndsTheRun : Prop :=
  ∀ s : State, ∃ t, exec .relExit s = .next t ∧
    t.per.aesDmaExit = s.cfg.vals.dmaExit ∧ regsSameBut s t [.aesDmaExit] ∧ t.x = s.x ∧ t.faults = s.faults ∧ memSame s t ∧
    t.ctl.state = .released ∧ t.ctl.busy = false ∧ t.ctl.upc = s.ctl.upc ∧ t.ctl.status = s.ctl.status ∧
    t.ctl.errinfo = s.ctl.errinfo ∧ t.ctl.eupc = s.ctl.eupc ∧
    t.aux.trace = .write s.cfg.addr.stored.aesDmaExit.toNat s.cfg.vals.dmaExit :: s.aux.trace ∧
    (s.units.aes.st ≠ .work →
      t.units = { s.units with aes := { s.units.aes with st := .idle } } ∧ t.ctl.chaos = (s.ctl.chaos || aesGated s)) ∧
    (s.units.aes.st = .work → t.units = s.units ∧ t.ctl.chaos = true)

/-! ## Exceptions -/

/-- R241: what a raise does, for whichever micro-op raises: status, errinfo, eupc, state and busy; `upc` stays; no register, no
unit and no byte of memory changes, and of the session registers at most the poll count. -/
def Obligations.ExceptionEntry : Prop :=
  ∀ (i : Instr) (s t : State), exec i s = .next t → s.ctl.state ≠ .error → t.ctl.state = .error →
    t.ctl.busy = false ∧ t.ctl.eupc = s.ctl.upc ∧ t.ctl.upc = s.ctl.upc ∧ t.ctl.status ≠ .ok ∧
      t.ctl.chaos = s.ctl.chaos ∧ t.per = s.per ∧ t.units = s.units ∧ memSame s t ∧ xSameBut s t [.pollcnt] ∧
      ∀ e ∈ newEvents s t, ∃ a, e = .read a

/-- R240: the exceptions and the micro-ops that raise them, with the parameter that enables each; and what the host then reads
(R24, R25, R28): (state, busy, status, errinfo, eupc). -/
def Obligations.ExceptionTaxonomy : Prop :=
  ∀ (i : Instr) (s t : State), exec i s = .next t → s.ctl.state ≠ .error → t.ctl.state = .error →
    (i = .chkLen ∧ t.ctl.status = .invalidLength ∧ t.ctl.errinfo = 0 ∧ s.cfg.checks.checkLength = true ∧
        255 < (s.xval .bc).toNat ∧ hostView t = (8, false, 1, 0, s.ctl.upc)) ∨
      (i = .pollAes ∧ t.ctl.status = .hwTimeout ∧ t.ctl.errinfo = 1 ∧
        s.cfg.checks.pollLimit = .bounded (s.xval .pollcnt + 1) ∧ hostView t = (8, false, 2, 1, s.ctl.upc)) ∨
      (i = .pollDesc ∧ t.ctl.status = .hwTimeout ∧ t.ctl.errinfo = 2 ∧
        s.cfg.checks.pollLimit = .bounded (s.xval .pollcnt + 1) ∧ hostView t = (8, false, 2, 2, s.ctl.upc)) ∨
      (i = .chkDma ∧ t.ctl.status = .dmaFault ∧ t.ctl.errinfo = 1 ∧ s.cfg.checks.checkErrEof = true ∧
        dwErrEof (s.xval .dw0) = true ∧ hostView t = (8, false, 3, 1, s.ctl.upc)) ∨
      (i = .chkDma ∧ t.ctl.status = .dmaFault ∧ t.ctl.errinfo = 2 ∧ s.cfg.checks.fifoCheck = true ∧ drained s = false ∧
        hostView t = (8, false, 3, 2, s.ctl.upc))

/-! ## The host -/

/-- R170: an accepted start. -/
def Obligations.StartAccepted : Prop :=
  ∀ (s : State) (key iv : Block) (pt ct bc : Word), s.ctl.busy = false →
    ∃ t, takeTurn (.start key iv pt ct bc) s = .next t ∧
      t.xval .key0 = blockWord key 0 ∧ t.xval .key1 = blockWord key 1 ∧ t.xval .key2 = blockWord key 2 ∧
      t.xval .key3 = blockWord key 3 ∧ t.xval .iv0 = blockWord iv 0 ∧ t.xval .iv1 = blockWord iv 1 ∧
      t.xval .iv2 = blockWord iv 2 ∧ t.xval .iv3 = blockWord iv 3 ∧ t.xval .pt = pt ∧ t.xval .ct = ct ∧ t.xval .bc = bc ∧
      t.xval .pollcnt = 0 ∧ xSameBut s t [.key0, .key1, .key2, .key3, .iv0, .iv1, .iv2, .iv3, .pt, .ct, .bc, .pollcnt] ∧
      t.ctl = { upc := 0, state := .idle, busy := true, status := .ok, errinfo := 0, eupc := s.ctl.eupc,
                chaos := s.ctl.chaos || decide (pt.toNat % alignBytes s.cfg.bufAlign ≠ 0) ||
                  decide (ct.toNat % alignBytes s.cfg.bufAlign ≠ 0) } ∧
      t.per = s.per ∧ t.units = s.units ∧ t.mem = s.mem ∧ t.faults = s.faults ∧ t.aux = s.aux

/-- R171: a start while busy changes no state of the block and adds `REENTRY` to `F`. -/
def Obligations.StartWhileBusy : Prop :=
  ∀ (s : State) (key iv : Block) (pt ct bc : Word), s.ctl.busy = true →
    takeTurn (.start key iv pt ct bc) s = .next { s with faults := { s.faults with reentry := true } }

/-- R52: what a system reset leaves of the sequencer, from any state; R54: of the agents and the queues; R30: `F` is kept. That
the system reset is a turn of the host, and keeps the parameters and the ROM, is the model's reading (log 25, DEDUCED). And R24,
R25, R28: the codes the host reads, of every `s.state` and every `s.status`. -/
def Obligations.SystemResetState : Prop :=
  (∀ s : State, hostView s = (stateCode s.ctl.state, s.ctl.busy, statusCode s.ctl.status, s.ctl.errinfo, s.ctl.eupc)) ∧
  (stateCode .idle = 0 ∧ stateCode .clockEnabled = 1 ∧ stateCode .dmaArmed = 2 ∧ stateCode .keyProgrammed = 3 ∧
    stateCode .triggered = 4 ∧ stateCode .awaitingDma = 5 ∧ stateCode .done = 6 ∧ stateCode .released = 7 ∧
    stateCode .error = 8) ∧
  (statusCode .ok = 0 ∧ statusCode .invalidLength = 1 ∧ statusCode .hwTimeout = 2 ∧ statusCode .dmaFault = 3) ∧
  ∀ s : State, ∃ t, takeTurn .systemReset s = .next t ∧
    t.ctl = { upc := 0, state := .idle, busy := false, status := .ok, errinfo := 0, eupc := 0, chaos := false } ∧
    t.xval .pollcnt = 0 ∧ (∀ r, r ≠ .pollcnt → (t.x.get r).written = false) ∧
    t.units.dout.st = .idle ∧ t.units.din.st = .idle ∧ t.units.aes.st = .idle ∧ t.units.qin = [] ∧ t.units.qout = [] ∧
    t.units.qoutEof = false ∧ t.faults = s.faults ∧ t.cfg = s.cfg ∧ t.rom = s.rom ∧ hostView t = (0, false, 0, 0, 0)

/-- R182: in profile REIMPL a start with no blocks ends at the first sequencer step, RELEASED and OK, with no transaction, no
byte of memory written and no register changed. -/
def Obligations.ZeroBlockRunEndsAtOnce : Prop :=
  ∀ (s : State) (key iv : Block) (pt ct : Word), s.ctl.busy = false → s.cfg.checks.isReimpl = true → s.rom = seqRom →
    ∃ t, runTurns [.start key iv pt ct 0, .seq] s = some t ∧ t.ctl.state = .released ∧ t.ctl.status = .ok ∧
      t.ctl.busy = false ∧ t.ctl.upc = 0 ∧ t.per = s.per ∧ t.units = s.units ∧ t.mem = s.mem ∧ t.aux = s.aux ∧
      t.faults = s.faults

/-- R199: a host store that keeps the duties puts its byte in memory, and changes no other; one that breaks them (a byte of a
register, or of a descriptor or a buffer of the session while the system is not quiescent) changes nothing. That a forbidden store
has no effect is the model's reading (log 20), and that a store is one byte wide its choice (log 35). -/
def Obligations.HostStoresWithinItsDuties : Prop :=
  ∀ (s : State) (a : Word) (b : Byte), ∃ t, takeTurn (.store a b) s = .next t ∧
    memSameOutside s t a.toNat 1 ∧ t.x = s.x ∧ t.ctl = s.ctl ∧ t.faults = s.faults ∧ t.per = s.per ∧ t.units = s.units ∧
    (isRegisterByte s a.toNat = false → (isLentByte s a.toNat = true → quiescent s = true) → t.mem.read a.toNat = b) ∧
    (t.mem.read a.toNat ≠ s.mem.read a.toNat →
      t.mem.read a.toNat = b ∧ isRegisterByte s a.toNat = false ∧
        (isLentByte s a.toNat = true → quiescent s = true))

/-! ## The agents -/

/-- R204, R205, R206: the moves of an ungated DOUT, on any descriptor and buffer. An access outside `P_DMA_REGION` is misuse
(R74, R230 (f)): the read is a free value (log 5) and the write has no effect. That a word partly outside counts as outside as a
whole is the model's reading (log 19, DEDUCED). Misuse too is the end of a descriptor with `suc_eof` 0 (R230 (j)). -/
def Obligations.DoutMoves : Prop :=
  ∀ s : State, dmaGated s = false → let d := s.units.dout
    (d.st = .fetch → s.cfg.rangeInRegion d.desc.toNat 4 = true → s.cfg.rangeInRegion (d.desc.toNat + 4) 4 = true →
      takeTurn .dout s = .next { s with units := { s.units with dout := { d with
        w0 := s.mem.read32 d.desc.toNat, buf := s.mem.read32 (d.desc.toNat + 4), k := 0, st := .send } } }) ∧
    (d.st = .fetch → ∃ t w b, takeTurn .dout s = .next t ∧ fetchesDescriptor d.desc.toNat w b s t ∧
      t.units = { s.units with dout := { d with w0 := w, buf := b, k := 0, st := .send } }) ∧
    (d.st = .send → d.k < dwLength d.w0 → s.cfg.rangeInRegion (d.buf.toNat + d.k.toNat) 1 = true →
      takeTurn .dout s = .next { s with units := { s.units with
        qin := s.units.qin ++ [s.mem.read (d.buf.toNat + d.k.toNat)], dout := { d with k := d.k + 1 } } }) ∧
    (d.st = .send → d.k < dwLength d.w0 → s.cfg.rangeInRegion (d.buf.toNat + d.k.toNat) 1 = false →
      ∃ t, takeTurn .dout s = .next t ∧ t.units = { s.units with
          qin := s.units.qin ++ [byteOf (Config.drawWord s.aux.draws) 0], dout := { d with k := d.k + 1 } } ∧
        t.ctl = { s.ctl with chaos := true } ∧ memSame s t ∧ t.per = s.per ∧ t.x = s.x) ∧
    (d.st = .send → ¬d.k < dwLength d.w0 →
      takeTurn .dout s = .next { s with units := { s.units with dout := { d with st := .wb } } }) ∧
    (d.st = .wb →
      ∃ t, takeTurn .dout s = .next t ∧ t.units = { s.units with dout := { d with st := .idle } } ∧
        (s.cfg.outWrback = true → writesBack d.desc.toNat (d.w0 &&& 0x7FFFFFFF)
          { s.ctl with chaos := s.ctl.chaos || !dwSucEof d.w0 } s t) ∧
        (s.cfg.outWrback = false → memSame s t ∧ t.ctl = { s.ctl with chaos := s.ctl.chaos || !dwSucEof d.w0 } ∧
          t.per = s.per ∧ t.x = s.x))

/-- R209, R210: fetch and receive of an ungated DIN, on any descriptor and buffer, and its wait for a byte or the end of the frame
(log 23). A byte more than the buffer holds is misuse (R230 (d)), and so is an access outside `P_DMA_REGION` (R74, R230 (f)): the
read is a free value (log 5) and the write has no effect. That a descriptor word partly outside counts as outside as a whole is
the model's reading (log 19, DEDUCED). -/
def Obligations.DinFetchAndReceive : Prop :=
  ∀ s : State, dmaGated s = false → let d := s.units.din
    (d.st = .fetch → s.cfg.rangeInRegion d.desc.toNat 4 = true → s.cfg.rangeInRegion (d.desc.toNat + 4) 4 = true →
      takeTurn .din s = .next { s with units := { s.units with din := { d with
        w0 := s.mem.read32 d.desc.toNat, buf := s.mem.read32 (d.desc.toNat + 4), k := 0, st := .recv } } }) ∧
    (d.st = .fetch → ∃ t w b, takeTurn .din s = .next t ∧ fetchesDescriptor d.desc.toNat w b s t ∧
      t.units = { s.units with din := { d with w0 := w, buf := b, k := 0, st := .recv } }) ∧
    (∀ b rest, d.st = .recv → s.units.qout = b :: rest → d.k < dwSize d.w0 →
      s.cfg.rangeInRegion (d.buf.toNat + d.k.toNat) 1 = true →
      ∃ t, takeTurn .din s = .next t ∧ t.mem.read (d.buf.toNat + d.k.toNat) = b ∧
        memSameOutside s t (d.buf.toNat + d.k.toNat) 1 ∧
        t.units = { s.units with qout := rest, din := { d with k := d.k + 1 } } ∧ t.ctl = s.ctl ∧ t.x = s.x ∧ t.per = s.per) ∧
    (∀ b rest, d.st = .recv → s.units.qout = b :: rest → d.k < dwSize d.w0 →
      s.cfg.rangeInRegion (d.buf.toNat + d.k.toNat) 1 = false →
      ∃ t, takeTurn .din s = .next t ∧ memSame s t ∧ t.ctl = { s.ctl with chaos := true } ∧
        t.units = { s.units with qout := rest, din := { d with k := d.k + 1 } } ∧ t.x = s.x ∧ t.per = s.per) ∧
    (∀ b rest, d.st = .recv → s.units.qout = b :: rest → ¬d.k < dwSize d.w0 →
      takeTurn .din s = .next { s with ctl := { s.ctl with chaos := true } }) ∧
    (d.st = .recv → s.units.qout = [] → s.units.qoutEof = false → takeTurn .din s = .next s)

/-- R211, R212, R70: the two write-backs of an ungated DIN: one word, with the received length and the flags; outside
`P_DMA_REGION` it has no effect and is misuse (R74, R230 (f)). That a word partly outside counts as outside as a whole is the
model's reading (log 19, DEDUCED). -/
def Obligations.DinWriteBacks : Prop :=
  ∀ s : State, dmaGated s = false → s.units.din.st = .recv → let d := s.units.din
    (s.units.qout = [] → s.units.qoutEof = true →
      ∃ t, takeTurn .din s = .next t ∧
        writesBack d.desc.toNat (dw0 (dwSize d.w0) d.k false true false) s.ctl s t ∧
        t.units = { s.units with qoutEof := false, din := { d with st := .idle } }) ∧
    (s.cfg.dmaErrors = true →
      ∃ t, takeTurn .dinError s = .next t ∧
        writesBack d.desc.toNat (dw0 (dwSize d.w0) d.k true false false) s.ctl s t ∧
        t.units = { s.units with din := { d with st := .idle } }) ∧
    (s.cfg.dmaErrors = false → takeTurn .dinError s = .next s)

/-- R214, R215, R219: the moves of an ungated AES: one block of the stream is `P ⊕ AES128(K, C)` and the counter goes on by
`inc32`; fewer than 16 bytes are never processed; done is announced after the last block. -/
def Obligations.AesMoves : Prop :=
  ∀ s : State, aesGated s = false → s.units.aes.st = .work → let a := s.units.aes
    (∀ (p : Block) (rest : List Byte), a.i < a.n → s.units.qin = p.toList ++ rest →
      takeTurn .aes s = .next { s with units := { s.units with
        qin := rest, qout := s.units.qout ++ (xorBlock p (Config.aes128 a.key a.ctr)).toList,
        aes := { a with ctr := inc32 a.ctr, i := a.i + 1 } } }) ∧
    (a.i < a.n → s.units.qin.length < 16 → takeTurn .aes s = .next s) ∧
    (a.i = a.n → takeTurn .aes s = .next { s with units := { s.units with aes := { a with st := .done }, qoutEof := true } })

/-- R16, R157: `inc32` adds 1 to the big-endian number of bytes 12 to 15, modulo 2^32, and leaves bytes 0 to 11 alone. -/
def Obligations.Inc32IsThe32BitIncrement : Prop :=
  ∀ b : Block,
    be32 (inc32 b)[12] (inc32 b)[13] (inc32 b)[14] (inc32 b)[15] = be32 b[12] b[13] b[14] b[15] + 1 ∧
      ∀ (j : Fin 16), j.val < 12 → (inc32 b)[j] = b[j]

/-- R221: when a unit is gated, by the clock and reset bits; R200: the agents of a gated unit have no move, nor a chaos move
(log 17: chaos moves are moves); R230 (h): a micro-op that writes a register of a gated unit sets `s.chaos`, and what one reads of
such a register is a free value (log 5). -/
def Obligations.GatedUnits : Prop :=
  (∀ s : State,
    (aesGated s = true ↔ s.per.sysClkEn.getLsbD s.cfg.bits.aesClk = false ∨ s.per.sysRstEn.getLsbD s.cfg.bits.aesRst = true ∨
      s.per.sysRstEn.getLsbD s.cfg.bits.dsRst = true) ∧
    (dmaGated s = true ↔ s.per.sysClkEn.getLsbD s.cfg.bits.dmaClk = false ∨ s.per.sysRstEn.getLsbD s.cfg.bits.dmaRst = true)) ∧
  (∀ s : State,
    (dmaGated s = true → takeTurn .dout s = .next s ∧ takeTurn .din s = .next s ∧ takeTurn .dinError s = .next s ∧
      takeTurn (.chaos .doutStop) s = .next s ∧ (∀ off b, takeTurn (.chaos (.dinByte off b)) s = .next s) ∧
      ∀ w, takeTurn (.chaos (.dinWord w)) s = .next s) ∧
    (aesGated s = true → takeTurn .aes s = .next s ∧ (∀ st, takeTurn (.chaos (.aesState st)) s = .next s) ∧
      ∀ q, takeTurn (.chaos (.aesQin q)) s = .next s ∧ takeTurn (.chaos (.aesQout q)) s = .next s)) ∧
  (∀ (i : Instr) (r : PReg) (s : State), writtenReg i = some r → regGated r s = true →
    ∃ t, exec i s = .next t ∧ t.ctl.chaos = true) ∧
  ∀ (i : Instr) (r : PReg) (s : State), writtenReg i = some r → isDmaReg r = true → dmaGated s = true →
    ∃ t, exec i s = .next t ∧ t.ctl.chaos = true ∧ t.xval .tmp = Config.drawWord s.aux.draws

/-- R230 (f): a write of a DMA agent outside `P_DMA_REGION` has no effect: every byte an agent's turn changes lies in the region.
That such an access sets `s.chaos` is said by `DoutMoves`, `DinFetchAndReceive` and `DinWriteBacks`. -/
def Obligations.AgentsWriteOnlyInTheRegion : Prop :=
  ∀ (u : Turn) (s t : State), isMachineTurn u = true → u ≠ .seq → takeTurn u s = .next t →
    ∀ a, t.mem.read a ≠ s.mem.read a → s.cfg.inRegion a = true

/-- R231, R50, R119: DOUT writes only its descriptor word; DIN, its error end and every chaos move only the armed buffer of DIN
and its descriptor word; the AES no memory at all. -/
def Obligations.AgentsWriteOnlyTheirSegments : Prop :=
  (∀ s t, takeTurn .dout s = .next t → memSameOutside s t s.units.dout.desc.toNat 4) ∧
  (∀ u s t, (u = .din ∨ u = .dinError ∨ ∃ m, u = .chaos m) → takeTurn u s = .next t →
    ∀ a, t.mem.read a ≠ s.mem.read a →
      (s.units.din.buf.toNat ≤ a ∧ a < s.units.din.buf.toNat + (dwSize s.units.din.w0).toNat) ∨
        (s.units.din.desc.toNat ≤ a ∧ a < s.units.din.desc.toNat + 4)) ∧
  (∀ s t, takeTurn .aes s = .next t → memSame s t)

/-- R231, R36: the agents never write the sequencer's state, a peripheral register, the parameters, the ROM or `F`; of the
control fields they can only set `s.chaos`. -/
def Obligations.AgentsLeaveTheSequencerAlone : Prop :=
  ∀ (u : Turn) (s t : State), isMachineTurn u = true → u ≠ .seq → takeTurn u s = .next t →
    t.cfg = s.cfg ∧ t.rom = s.rom ∧ t.x = s.x ∧ t.per = s.per ∧ t.faults = s.faults ∧ t.aux.trace = s.aux.trace ∧
      ∃ c, t.ctl = { s.ctl with chaos := s.ctl.chaos || c }

/-- R180: in a quiescent system no turn of the sequencer or of an agent changes anything. That a quiescent system has no chaos move
either is the model's reading (log 21, DEDUCED), and that a turn without a move changes nothing its choice (log 23). -/
def Obligations.QuiescentSystemStaysPut : Prop :=
  ∀ (u : Turn) (s : State), quiescent s = true → isMachineTurn u = true → takeTurn u s = .next s

/-- R43: the life cycle of the input descriptor, and the same of the output descriptor, on the micro-ops and moves that drive it:
stale after a system reset, prepared by the write of word 0, armed by the start, in flight by the fetch, complete or failed by a
write-back, and prepared again by a sub-channel reset. The marks of log 26 say whether word 0 was written since reset. That an
output descriptor DOUT ended without a write-back is PREPARED, and that STALE is only what was not prepared since reset, is the
model's choice (log 34). -/
def Obligations.InputDescriptorLifeCycle : Prop :=
  (∀ s t, takeTurn .systemReset s = .next t → lifeIn t = .stale ∧ lifeOut t = .stale) ∧
  ((∀ s t, s.units.din.st = .idle → exec .dscInW0 s = .next t → lifeIn t = .prepared) ∧
    (∀ s t, dmaGated s = false → s.units.din.st = .idle → selectsAes s.cfg s.per.dmaInPeriSel = true →
      exec .dmaInStart s = .next t → lifeIn t = .armed) ∧
    (∀ s t, dmaGated s = false → s.units.din.st = .fetch → takeTurn .din s = .next t → lifeIn t = .inFlight) ∧
    (∀ s t, s.cfg.wf = true → dmaGated s = false → s.aux.inPrepared = true → s.units.din.st = .recv →
      s.units.din.desc = s.cfg.descIn → s.units.qout = [] → s.units.qoutEof = true → takeTurn .din s = .next t →
        lifeIn t = .complete) ∧
    (∀ s t, s.cfg.wf = true → dmaGated s = false → s.cfg.dmaErrors = true → s.aux.inPrepared = true →
      s.units.din.st = .recv → s.units.din.desc = s.cfg.descIn → takeTurn .dinError s = .next t → lifeIn t = .failed) ∧
    (∀ s t, dmaGated s = false → s.aux.inPrepared = true → dwOwner (s.mem.read32 s.cfg.descIn.toNat) = true →
      exec .dmaInRstSet s = .next t → lifeIn t = .prepared)) ∧
  (∀ s t, s.units.dout.st = .idle → exec .dscOutW0 s = .next t → lifeOut t = .prepared) ∧
  (∀ s t, dmaGated s = false → s.units.dout.st = .idle → selectsAes s.cfg s.per.dmaOutPeriSel = true →
    exec .dmaOutStart s = .next t → lifeOut t = .armed) ∧
  (∀ s t, dmaGated s = false → s.units.dout.st = .fetch → takeTurn .dout s = .next t → lifeOut t = .inFlight) ∧
  (∀ s t, s.cfg.wf = true → dmaGated s = false → s.cfg.outWrback = true → s.aux.outPrepared = true →
    s.units.dout.st = .wb → s.units.dout.desc = s.cfg.descOut → takeTurn .dout s = .next t → lifeOut t = .complete) ∧
  (∀ s t, dmaGated s = false → s.cfg.outWrback = false → s.aux.outPrepared = true → s.units.dout.st = .wb →
    dwOwner (s.mem.read32 s.cfg.descOut.toNat) = true → takeTurn .dout s = .next t → lifeOut t = .prepared) ∧
  (∀ s t, dmaGated s = false → s.aux.outPrepared = true → dwOwner (s.mem.read32 s.cfg.descOut.toNat) = true →
    exec .dmaOutRstSet s = .next t → lifeOut t = .prepared)

/-! ## Rules about the whole machine -/

/-- R38, R119, R93: the transactions of a micro-op are those of its row: the sequencer never writes AES_STATE or the FIFO status
registers, reads no AES register but AES_STATE, and reads no descriptor word but word 0 of the input descriptor. -/
def Obligations.TransactionsAreThoseOfTheRow : Prop :=
  ∀ (i : Instr) (s t : State), exec i s = .next t →
    t.aux.trace = newEvents s t ++ s.aux.trace ∧ ∀ e ∈ newEvents s t, allowedEvent i s.cfg e

/-- R26: the points at which `s.state` changes, in a step of any agent. -/
def Obligations.StateChangesOnlyAtItsPoints : Prop :=
  ∀ s t : State, step s = .next t → t.ctl.state ≠ s.ctl.state →
    (s.ctl.busy = false ∧ t.ctl.state = .idle ∧ ∃ key iv pt ct bc, s.turn = .start key iv pt ct bc) ∨
      (t.ctl.state = .idle ∧ s.turn = .systemReset) ∨
      (s.turn = .seq ∧ s.ctl.busy = true ∧ ∃ u i, s.rom[s.ctl.upc.toNat]? = some u ∧ decode u = .ok i ∧
        ((i = .clkRstclr ∧ t.ctl.state = .clockEnabled) ∨ (i = .dmaOutStart ∧ t.ctl.state = .dmaArmed) ∨
          (i = .aesKey 3 ∧ t.ctl.state = .keyProgrammed) ∨ (i = .aesTrigger ∧ t.ctl.state = .triggered) ∨
          (i = .pollAes ∧ t.ctl.state = .awaitingDma) ∨ (i = .chkDma ∧ t.ctl.state = .done) ∨
          ((i = .relExit ∨ i = .chkLen) ∧ t.ctl.state = .released) ∨ t.ctl.state = .error))

/-- R30, R49, R95: no step changes the parameters or the ROM, removes a name from `F`, or clears `s.chaos`, but that the system
reset clears `s.chaos`. -/
def Obligations.FixedAndStickyParts : Prop :=
  ∀ s t : State, step s = .next t →
    t.cfg = s.cfg ∧ t.rom = s.rom ∧
      (s.faults.unwrittenRead = true → t.faults.unwrittenRead = true) ∧
      (s.faults.reentry = true → t.faults.reentry = true) ∧
      (s.faults.reservedUop = true → t.faults.reservedUop = true) ∧
      (s.ctl.chaos = true → s.turn ≠ .systemReset → t.ctl.chaos = true)

/-! ## Invariants -/

/-- Every step keeps memory in canonical form and inside the 32-bit space (R50, R60). -/
def Obligations.MemoryStaysCanonical : Prop :=
  ∀ s t : State, step s = .next t → s.mem.wf ∧ s.mem.inSpace → t.mem.wf ∧ t.mem.inSpace

/-- R23, R25 to R28, R96, R97, R176, R22, R245: every step keeps the sequencer's invariant. -/
def Obligations.SequencerInvariantIsKept : Prop :=
  ∀ s t : State, step s = .next t → seqInv s → seqInv t

/-- R34, R221: every step keeps the stored start bits 0, and keeps the agents of a unit held in reset idle. On a step that is a
system reset the start bits are 0 by the model's reading only (log 25, DEDUCED): R53 leaves every register unspecified there. -/
def Obligations.StartBitsStayZeroAndHeldUnitsIdle : Prop :=
  ∀ s t : State, step s = .next t → (startBitsZero s → startBitsZero t) ∧ (heldIdle s → heldIdle t)

/-- R42, R205, R210: every step keeps the byte counts of the segments within their bounds. -/
def Obligations.SegmentsStayBounded : Prop :=
  ∀ s t : State, step s = .next t → segmentsBounded s → segmentsBounded t

/-- R213, R214, R230 (a): every step keeps a working AES on the key, the count and the counter its registers give. -/
def Obligations.AesFollowsItsRegisters : Prop :=
  ∀ s t : State, step s = .next t → aesFollowsRegisters s → aesFollowsRegisters t

/-- The invariants hold at reset. -/
def Obligations.InvariantsHoldAtReset : Prop :=
  State.reset.cfg.wf = true ∧ State.reset.mem.wf ∧ State.reset.mem.inSpace ∧ seqInv State.reset ∧ startBitsZero State.reset ∧
    heldIdle State.reset ∧ segmentsBounded State.reset ∧ aesFollowsRegisters State.reset

/-! ## Runs -/

/-- R232, R288: with a finite poll limit N every run ends after at most 36 + 2·N sequencer steps, whatever the other agents do,
under chaos too: along any turns without a start or a reset, of which at least that many are the sequencer's, the machine does
not stop and `s.busy` is 0 at the end. -/
def Obligations.EveryBoundedRunEnds : Prop :=
  ∀ (s : State) (key iv : Block) (pt ct bc limit : Word) (ts : List Turn),
    s.cfg.wf = true → s.cfg.checks.pollLimit = .bounded limit → s.rom = seqRom → s.ctl.busy = false →
      (∀ u ∈ ts, staysInRun u = true) → 36 + 2 * limit.toNat ≤ ts.count .seq →
      ∃ t, runTurns (.start key iv pt ct bc :: ts) s = some t ∧ t.ctl.busy = false

/-- R181: at the end of a successful run the ciphertext buffer holds, block by block, the plaintext block at `PT` exclusive or
`AES128(key, inc32^i(iv))`, and nothing else of memory but the two descriptors has changed. -/
def Obligations.SuccessfulRunWritesTheCiphertext : Prop :=
  ∀ (s t : State) (key iv : Block) (pt ct bc : Word) (ts : List Turn), successfulRun s key iv pt ct bc ts t →
    (∀ (i : Nat) (j : Fin 16), i < bc.toNat →
      t.mem.read (ct.toNat + 16 * i + j.val) = ctrByte (fun n => s.mem.read (pt.toNat + n)) key iv i j) ∧
    ∀ a, (a < ct.toNat ∨ ct.toNat + 16 * bc.toNat ≤ a) →
      (a < s.cfg.descOut.toNat ∨ s.cfg.descOut.toNat + 12 ≤ a) → (a < s.cfg.descIn.toNat ∨ s.cfg.descIn.toNat + 12 ≤ a) →
      t.mem.read a = s.mem.read a

/-- R273, 95_test_vectors.md V26: two successful runs with the same key, counter block and count, on any two idle systems whose
plaintext buffers hold the same bytes, leave the same ciphertext. -/
def Obligations.RerunGivesTheSameCiphertext : Prop :=
  ∀ (s t s' t' : State) (key iv : Block) (pt ct pt' ct' bc : Word) (ts ts' : List Turn),
    successfulRun s key iv pt ct bc ts t → successfulRun s' key iv pt' ct' bc ts' t' →
      (∀ n, n < 16 * bc.toNat → s'.mem.read (pt'.toNat + n) = s.mem.read (pt.toNat + n)) →
      ∀ n, n < 16 * bc.toNat → t'.mem.read (ct'.toNat + n) = t.mem.read (ct.toNat + n)

/-- 95_test_vectors.md V6, from R181: encrypting a ciphertext again with the same key and counter block gives the plaintext back:
a successful run whose plaintext buffer holds the CTR encryption of the bytes `p` leaves `p` in the ciphertext buffer. -/
def Obligations.SecondEncryptionDecrypts : Prop :=
  ∀ (s t : State) (key iv : Block) (pt ct bc : Word) (ts : List Turn) (p : Nat → Byte),
    successfulRun s key iv pt ct bc ts t →
      (∀ (i : Nat) (j : Fin 16), i < bc.toNat → s.mem.read (pt.toNat + (16 * i + j.val)) = ctrByte p key iv i j) →
      ∀ n, n < 16 * bc.toNat → t.mem.read (ct.toNat + n) = p n
end

