-- ==== Sys2Proof/Laws/State.lean ====
section
/-! SUPPORT. One lemma per field of the state per update: what each `State.set…` leaves and what it puts in place. -/

namespace Sys2Proof.Machine.State

variable (s : State)

@[simp] theorem setX_cfg (x : Session) : (s.setX x).cfg = s.cfg := rfl
@[simp] theorem setX_rom (x : Session) : (s.setX x).rom = s.rom := rfl
@[simp] theorem setX_x (x : Session) : (s.setX x).x = x := rfl
@[simp] theorem setX_ctl (x : Session) : (s.setX x).ctl = s.ctl := rfl
@[simp] theorem setX_faults (x : Session) : (s.setX x).faults = s.faults := rfl
@[simp] theorem setX_per (x : Session) : (s.setX x).per = s.per := rfl
@[simp] theorem setX_units (x : Session) : (s.setX x).units = s.units := rfl
@[simp] theorem setX_mem (x : Session) : (s.setX x).mem = s.mem := rfl
@[simp] theorem setX_aux (x : Session) : (s.setX x).aux = s.aux := rfl

@[simp] theorem setCtl_cfg (c : Control) : (s.setCtl c).cfg = s.cfg := rfl
@[simp] theorem setCtl_rom (c : Control) : (s.setCtl c).rom = s.rom := rfl
@[simp] theorem setCtl_x (c : Control) : (s.setCtl c).x = s.x := rfl
@[simp] theorem setCtl_ctl (c : Control) : (s.setCtl c).ctl = c := rfl
@[simp] theorem setCtl_faults (c : Control) : (s.setCtl c).faults = s.faults := rfl
@[simp] theorem setCtl_per (c : Control) : (s.setCtl c).per = s.per := rfl
@[simp] theorem setCtl_units (c : Control) : (s.setCtl c).units = s.units := rfl
@[simp] theorem setCtl_mem (c : Control) : (s.setCtl c).mem = s.mem := rfl
@[simp] theorem setCtl_aux (c : Control) : (s.setCtl c).aux = s.aux := rfl

@[simp] theorem setFaults_cfg (f : FaultSet) : (s.setFaults f).cfg = s.cfg := rfl
@[simp] theorem setFaults_rom (f : FaultSet) : (s.setFaults f).rom = s.rom := rfl
@[simp] theorem setFaults_x (f : FaultSet) : (s.setFaults f).x = s.x := rfl
@[simp] theorem setFaults_ctl (f : FaultSet) : (s.setFaults f).ctl = s.ctl := rfl
@[simp] theorem setFaults_faults (f : FaultSet) : (s.setFaults f).faults = f := rfl
@[simp] theorem setFaults_per (f : FaultSet) : (s.setFaults f).per = s.per := rfl
@[simp] theorem setFaults_units (f : FaultSet) : (s.setFaults f).units = s.units := rfl
@[simp] theorem setFaults_mem (f : FaultSet) : (s.setFaults f).mem = s.mem := rfl
@[simp] theorem setFaults_aux (f : FaultSet) : (s.setFaults f).aux = s.aux := rfl

@[simp] theorem setPer_cfg (p : RegTable) : (s.setPer p).cfg = s.cfg := rfl
@[simp] theorem setPer_rom (p : RegTable) : (s.setPer p).rom = s.rom := rfl
@[simp] theorem setPer_x (p : RegTable) : (s.setPer p).x = s.x := rfl
@[simp] theorem setPer_ctl (p : RegTable) : (s.setPer p).ctl = s.ctl := rfl
@[simp] theorem setPer_faults (p : RegTable) : (s.setPer p).faults = s.faults := rfl
@[simp] theorem setPer_per (p : RegTable) : (s.setPer p).per = p := rfl
@[simp] theorem setPer_units (p : RegTable) : (s.setPer p).units = s.units := rfl
@[simp] theorem setPer_mem (p : RegTable) : (s.setPer p).mem = s.mem := rfl
@[simp] theorem setPer_aux (p : RegTable) : (s.setPer p).aux = s.aux := rfl

@[simp] theorem setUnits_cfg (u : Units) : (s.setUnits u).cfg = s.cfg := rfl
@[simp] theorem setUnits_rom (u : Units) : (s.setUnits u).rom = s.rom := rfl
@[simp] theorem setUnits_x (u : Units) : (s.setUnits u).x = s.x := rfl
@[simp] theorem setUnits_ctl (u : Units) : (s.setUnits u).ctl = s.ctl := rfl
@[simp] theorem setUnits_faults (u : Units) : (s.setUnits u).faults = s.faults := rfl
@[simp] theorem setUnits_per (u : Units) : (s.setUnits u).per = s.per := rfl
@[simp] theorem setUnits_units (u : Units) : (s.setUnits u).units = u := rfl
@[simp] theorem setUnits_mem (u : Units) : (s.setUnits u).mem = s.mem := rfl
@[simp] theorem setUnits_aux (u : Units) : (s.setUnits u).aux = s.aux := rfl

@[simp] theorem setMem_cfg (m : Memory) : (s.setMem m).cfg = s.cfg := rfl
@[simp] theorem setMem_rom (m : Memory) : (s.setMem m).rom = s.rom := rfl
@[simp] theorem setMem_x (m : Memory) : (s.setMem m).x = s.x := rfl
@[simp] theorem setMem_ctl (m : Memory) : (s.setMem m).ctl = s.ctl := rfl
@[simp] theorem setMem_faults (m : Memory) : (s.setMem m).faults = s.faults := rfl
@[simp] theorem setMem_per (m : Memory) : (s.setMem m).per = s.per := rfl
@[simp] theorem setMem_units (m : Memory) : (s.setMem m).units = s.units := rfl
@[simp] theorem setMem_mem (m : Memory) : (s.setMem m).mem = m := rfl
@[simp] theorem setMem_aux (m : Memory) : (s.setMem m).aux = s.aux := rfl

@[simp] theorem setAux_cfg (a : Aux) : (s.setAux a).cfg = s.cfg := rfl
@[simp] theorem setAux_rom (a : Aux) : (s.setAux a).rom = s.rom := rfl
@[simp] theorem setAux_x (a : Aux) : (s.setAux a).x = s.x := rfl
@[simp] theorem setAux_ctl (a : Aux) : (s.setAux a).ctl = s.ctl := rfl
@[simp] theorem setAux_faults (a : Aux) : (s.setAux a).faults = s.faults := rfl
@[simp] theorem setAux_per (a : Aux) : (s.setAux a).per = s.per := rfl
@[simp] theorem setAux_units (a : Aux) : (s.setAux a).units = s.units := rfl
@[simp] theorem setAux_mem (a : Aux) : (s.setAux a).mem = s.mem := rfl
@[simp] theorem setAux_aux (a : Aux) : (s.setAux a).aux = a := rfl

@[simp] theorem setX_xval (x : Session) (r : XReg) : (s.setX x).xval r = (x.get r).val := rfl
@[simp] theorem setCtl_xval (c : Control) (r : XReg) : (s.setCtl c).xval r = s.xval r := rfl
@[simp] theorem setFaults_xval (f : FaultSet) (r : XReg) : (s.setFaults f).xval r = s.xval r := rfl
@[simp] theorem setPer_xval (p : RegTable) (r : XReg) : (s.setPer p).xval r = s.xval r := rfl
@[simp] theorem setUnits_xval (u : Units) (r : XReg) : (s.setUnits u).xval r = s.xval r := rfl
@[simp] theorem setMem_xval (m : Memory) (r : XReg) : (s.setMem m).xval r = s.xval r := rfl
@[simp] theorem setAux_xval (a : Aux) (r : XReg) : (s.setAux a).xval r = s.xval r := rfl

end Sys2Proof.Machine.State
end

