-- ==== Sys2Proof/Laws/Registers.lean ====
section
/-! SUPPORT. The laws of the two register files: a read after a write, and the indexed registers of `aes.key` and `aes.iv`. -/

namespace Sys2Proof.Machine

theorem Session.get_set (x : Session) (r r' : XReg) (c : XCell) :
    (x.set r c).get r' = if r' = r then c else x.get r' := by
  cases r <;> cases r' <;> rfl

@[simp] theorem Session.get_set_same (x : Session) (r : XReg) (c : XCell) : (x.set r c).get r = c := by
  simp [Session.get_set]

theorem Session.get_set_of_ne (x : Session) (r r' : XReg) (c : XCell) (h : r' ≠ r) : (x.set r c).get r' = x.get r' := by
  simp [Session.get_set, h]

theorem regGet_regSet (p : RegTable) (r r' : PReg) (v : Word) :
    regGet (regSet p r v) r' = if r' = r then v else regGet p r' := by
  cases r <;> cases r' <;> rfl

@[simp] theorem regGet_regSet_same (p : RegTable) (r : PReg) (v : Word) : regGet (regSet p r v) r = v := by
  simp [regGet_regSet]

theorem regGet_regSet_of_ne (p : RegTable) (r r' : PReg) (v : Word) (h : r' ≠ r) :
    regGet (regSet p r v) r' = regGet p r' := by
  simp [regGet_regSet, h]

theorem mod_four_cases (i : Nat) : i % 4 = 0 ∨ i % 4 = 1 ∨ i % 4 = 2 ∨ i % 4 = 3 := by omega

/-- The registers `aes.key` writes are key registers of the accelerator. -/
theorem keyReg_cases (i : Nat) :
    keyReg i = .aesKey0 ∨ keyReg i = .aesKey1 ∨ keyReg i = .aesKey2 ∨ keyReg i = .aesKey3 := by
  unfold keyReg; rcases mod_four_cases i with h | h | h | h <;> simp [h]

theorem ivReg_cases (i : Nat) :
    ivReg i = .aesIv0 ∨ ivReg i = .aesIv1 ∨ ivReg i = .aesIv2 ∨ ivReg i = .aesIv3 := by
  unfold ivReg; rcases mod_four_cases i with h | h | h | h <;> simp [h]

/-- A write to a register that is no clock or reset register leaves the gating bits alone. -/
theorem regSet_sys (p : RegTable) (r : PReg) (v : Word) (h1 : r ≠ .sysClkEn) (h2 : r ≠ .sysRstEn) :
    (regSet p r v).sysClkEn = p.sysClkEn ∧ (regSet p r v).sysRstEn = p.sysRstEn := by
  cases r <;> simp_all [regSet]

end Sys2Proof.Machine
end

