-- ==== Sys2Proof/Laws/Ops.lean ====
section
/-! SUPPORT. What each shared operation of Machine/Ops.lean leaves unchanged, one lemma per field, and what it does to the
fields it writes. Later proofs cite these and do not unfold the operations. -/

namespace Sys2Proof.Machine

variable (s : State)

/-! ## What an operation leaves unchanged -/

@[simp] theorem noteRead_cfg (r : XReg) : (noteRead r s).cfg = s.cfg := by unfold noteRead; split <;> rfl
@[simp] theorem noteRead_rom (r : XReg) : (noteRead r s).rom = s.rom := by unfold noteRead; split <;> rfl
@[simp] theorem noteRead_x (r : XReg) : (noteRead r s).x = s.x := by unfold noteRead; split <;> rfl
@[simp] theorem noteRead_ctl (r : XReg) : (noteRead r s).ctl = s.ctl := by unfold noteRead; split <;> rfl
@[simp] theorem noteRead_per (r : XReg) : (noteRead r s).per = s.per := by unfold noteRead; split <;> rfl
@[simp] theorem noteRead_units (r : XReg) : (noteRead r s).units = s.units := by unfold noteRead; split <;> rfl
@[simp] theorem noteRead_mem (r : XReg) : (noteRead r s).mem = s.mem := by unfold noteRead; split <;> rfl
@[simp] theorem noteRead_aux (r : XReg) : (noteRead r s).aux = s.aux := by unfold noteRead; split <;> rfl
@[simp] theorem noteRead_xval (r : XReg) (xr : XReg) : (noteRead r s).xval xr = s.xval xr := by simp [State.xval]

@[simp] theorem writeX_cfg (r : XReg) (v : Word) : (writeX r v s).cfg = s.cfg := by rfl
@[simp] theorem writeX_rom (r : XReg) (v : Word) : (writeX r v s).rom = s.rom := by rfl
@[simp] theorem writeX_ctl (r : XReg) (v : Word) : (writeX r v s).ctl = s.ctl := by rfl
@[simp] theorem writeX_faults (r : XReg) (v : Word) : (writeX r v s).faults = s.faults := by rfl
@[simp] theorem writeX_per (r : XReg) (v : Word) : (writeX r v s).per = s.per := by rfl
@[simp] theorem writeX_units (r : XReg) (v : Word) : (writeX r v s).units = s.units := by rfl
@[simp] theorem writeX_mem (r : XReg) (v : Word) : (writeX r v s).mem = s.mem := by rfl
@[simp] theorem writeX_aux (r : XReg) (v : Word) : (writeX r v s).aux = s.aux := by rfl

@[simp] theorem advance_cfg : (advance s).cfg = s.cfg := by rfl
@[simp] theorem advance_rom : (advance s).rom = s.rom := by rfl
@[simp] theorem advance_x : (advance s).x = s.x := by rfl
@[simp] theorem advance_faults : (advance s).faults = s.faults := by rfl
@[simp] theorem advance_per : (advance s).per = s.per := by rfl
@[simp] theorem advance_units : (advance s).units = s.units := by rfl
@[simp] theorem advance_mem : (advance s).mem = s.mem := by rfl
@[simp] theorem advance_aux : (advance s).aux = s.aux := by rfl
@[simp] theorem advance_xval (xr : XReg) : (advance s).xval xr = s.xval xr := by simp [State.xval]

@[simp] theorem enterState_cfg (q : SeqState) : (enterState q s).cfg = s.cfg := by rfl
@[simp] theorem enterState_rom (q : SeqState) : (enterState q s).rom = s.rom := by rfl
@[simp] theorem enterState_x (q : SeqState) : (enterState q s).x = s.x := by rfl
@[simp] theorem enterState_faults (q : SeqState) : (enterState q s).faults = s.faults := by rfl
@[simp] theorem enterState_per (q : SeqState) : (enterState q s).per = s.per := by rfl
@[simp] theorem enterState_units (q : SeqState) : (enterState q s).units = s.units := by rfl
@[simp] theorem enterState_mem (q : SeqState) : (enterState q s).mem = s.mem := by rfl
@[simp] theorem enterState_aux (q : SeqState) : (enterState q s).aux = s.aux := by rfl
@[simp] theorem enterState_xval (q : SeqState) (xr : XReg) : (enterState q s).xval xr = s.xval xr := by simp [State.xval]

@[simp] theorem setChaos_cfg : (setChaos s).cfg = s.cfg := by rfl
@[simp] theorem setChaos_rom : (setChaos s).rom = s.rom := by rfl
@[simp] theorem setChaos_x : (setChaos s).x = s.x := by rfl
@[simp] theorem setChaos_faults : (setChaos s).faults = s.faults := by rfl
@[simp] theorem setChaos_per : (setChaos s).per = s.per := by rfl
@[simp] theorem setChaos_units : (setChaos s).units = s.units := by rfl
@[simp] theorem setChaos_mem : (setChaos s).mem = s.mem := by rfl
@[simp] theorem setChaos_aux : (setChaos s).aux = s.aux := by rfl
@[simp] theorem setChaos_xval (xr : XReg) : (setChaos s).xval xr = s.xval xr := by simp [State.xval]

@[simp] theorem chaosIf_cfg (c : Bool) : (chaosIf c s).cfg = s.cfg := by cases c <;> rfl
@[simp] theorem chaosIf_rom (c : Bool) : (chaosIf c s).rom = s.rom := by cases c <;> rfl
@[simp] theorem chaosIf_x (c : Bool) : (chaosIf c s).x = s.x := by cases c <;> rfl
@[simp] theorem chaosIf_faults (c : Bool) : (chaosIf c s).faults = s.faults := by cases c <;> rfl
@[simp] theorem chaosIf_per (c : Bool) : (chaosIf c s).per = s.per := by cases c <;> rfl
@[simp] theorem chaosIf_units (c : Bool) : (chaosIf c s).units = s.units := by cases c <;> rfl
@[simp] theorem chaosIf_mem (c : Bool) : (chaosIf c s).mem = s.mem := by cases c <;> rfl
@[simp] theorem chaosIf_aux (c : Bool) : (chaosIf c s).aux = s.aux := by cases c <;> rfl
@[simp] theorem chaosIf_xval (c : Bool) (xr : XReg) : (chaosIf c s).xval xr = s.xval xr := by simp [State.xval]

@[simp] theorem endRun_cfg : (endRun s).cfg = s.cfg := by rfl
@[simp] theorem endRun_rom : (endRun s).rom = s.rom := by rfl
@[simp] theorem endRun_x : (endRun s).x = s.x := by rfl
@[simp] theorem endRun_faults : (endRun s).faults = s.faults := by rfl
@[simp] theorem endRun_per : (endRun s).per = s.per := by rfl
@[simp] theorem endRun_units : (endRun s).units = s.units := by rfl
@[simp] theorem endRun_mem : (endRun s).mem = s.mem := by rfl
@[simp] theorem endRun_aux : (endRun s).aux = s.aux := by rfl
@[simp] theorem endRun_xval (xr : XReg) : (endRun s).xval xr = s.xval xr := by simp [State.xval]

@[simp] theorem takeException_cfg (e : Exc) (i : BitVec 2) : (takeException e i s).cfg = s.cfg := by rfl
@[simp] theorem takeException_rom (e : Exc) (i : BitVec 2) : (takeException e i s).rom = s.rom := by rfl
@[simp] theorem takeException_x (e : Exc) (i : BitVec 2) : (takeException e i s).x = s.x := by rfl
@[simp] theorem takeException_faults (e : Exc) (i : BitVec 2) : (takeException e i s).faults = s.faults := by rfl
@[simp] theorem takeException_per (e : Exc) (i : BitVec 2) : (takeException e i s).per = s.per := by rfl
@[simp] theorem takeException_units (e : Exc) (i : BitVec 2) : (takeException e i s).units = s.units := by rfl
@[simp] theorem takeException_mem (e : Exc) (i : BitVec 2) : (takeException e i s).mem = s.mem := by rfl
@[simp] theorem takeException_aux (e : Exc) (i : BitVec 2) : (takeException e i s).aux = s.aux := by rfl
@[simp] theorem takeException_xval (e : Exc) (i : BitVec 2) (xr : XReg) : (takeException e i s).xval xr = s.xval xr := by simp [State.xval]

@[simp] theorem useDraws_cfg (n : Nat) : (useDraws n s).cfg = s.cfg := by rfl
@[simp] theorem useDraws_rom (n : Nat) : (useDraws n s).rom = s.rom := by rfl
@[simp] theorem useDraws_x (n : Nat) : (useDraws n s).x = s.x := by rfl
@[simp] theorem useDraws_ctl (n : Nat) : (useDraws n s).ctl = s.ctl := by rfl
@[simp] theorem useDraws_faults (n : Nat) : (useDraws n s).faults = s.faults := by rfl
@[simp] theorem useDraws_per (n : Nat) : (useDraws n s).per = s.per := by rfl
@[simp] theorem useDraws_units (n : Nat) : (useDraws n s).units = s.units := by rfl
@[simp] theorem useDraws_mem (n : Nat) : (useDraws n s).mem = s.mem := by rfl
@[simp] theorem useDraws_xval (n : Nat) (xr : XReg) : (useDraws n s).xval xr = s.xval xr := by simp [State.xval]

@[simp] theorem logBus_cfg (e : BusEvent) : (logBus e s).cfg = s.cfg := by rfl
@[simp] theorem logBus_rom (e : BusEvent) : (logBus e s).rom = s.rom := by rfl
@[simp] theorem logBus_x (e : BusEvent) : (logBus e s).x = s.x := by rfl
@[simp] theorem logBus_ctl (e : BusEvent) : (logBus e s).ctl = s.ctl := by rfl
@[simp] theorem logBus_faults (e : BusEvent) : (logBus e s).faults = s.faults := by rfl
@[simp] theorem logBus_per (e : BusEvent) : (logBus e s).per = s.per := by rfl
@[simp] theorem logBus_units (e : BusEvent) : (logBus e s).units = s.units := by rfl
@[simp] theorem logBus_mem (e : BusEvent) : (logBus e s).mem = s.mem := by rfl
@[simp] theorem logBus_xval (e : BusEvent) (xr : XReg) : (logBus e s).xval xr = s.xval xr := by simp [State.xval]

@[simp] theorem regRead_cfg (r : PReg) : (regRead r s).cfg = s.cfg := by unfold regRead; simp only; split <;> rfl
@[simp] theorem regRead_rom (r : PReg) : (regRead r s).rom = s.rom := by unfold regRead; simp only; split <;> rfl
@[simp] theorem regRead_x (r : PReg) : (regRead r s).x = s.x := by unfold regRead; simp only; split <;> rfl
@[simp] theorem regRead_ctl (r : PReg) : (regRead r s).ctl = s.ctl := by unfold regRead; simp only; split <;> rfl
@[simp] theorem regRead_faults (r : PReg) : (regRead r s).faults = s.faults := by unfold regRead; simp only; split <;> rfl
@[simp] theorem regRead_per (r : PReg) : (regRead r s).per = s.per := by unfold regRead; simp only; split <;> rfl
@[simp] theorem regRead_units (r : PReg) : (regRead r s).units = s.units := by unfold regRead; simp only; split <;> rfl
@[simp] theorem regRead_mem (r : PReg) : (regRead r s).mem = s.mem := by unfold regRead; simp only; split <;> rfl
@[simp] theorem regRead_xval (r : PReg) (xr : XReg) : (regRead r s).xval xr = s.xval xr := by simp [State.xval]

@[simp] theorem aesStateRead_cfg : (aesStateRead s).cfg = s.cfg := by unfold aesStateRead; simp only; split <;> rfl
@[simp] theorem aesStateRead_rom : (aesStateRead s).rom = s.rom := by unfold aesStateRead; simp only; split <;> rfl
@[simp] theorem aesStateRead_x : (aesStateRead s).x = s.x := by unfold aesStateRead; simp only; split <;> rfl
@[simp] theorem aesStateRead_ctl : (aesStateRead s).ctl = s.ctl := by unfold aesStateRead; simp only; split <;> rfl
@[simp] theorem aesStateRead_faults : (aesStateRead s).faults = s.faults := by unfold aesStateRead; simp only; split <;> rfl
@[simp] theorem aesStateRead_per : (aesStateRead s).per = s.per := by unfold aesStateRead; simp only; split <;> rfl
@[simp] theorem aesStateRead_units : (aesStateRead s).units = s.units := by unfold aesStateRead; simp only; split <;> rfl
@[simp] theorem aesStateRead_mem : (aesStateRead s).mem = s.mem := by unfold aesStateRead; simp only; split <;> rfl
@[simp] theorem aesStateRead_xval (xr : XReg) : (aesStateRead s).xval xr = s.xval xr := by simp [State.xval]

@[simp] theorem fifoStatusRead_cfg : (fifoStatusRead s).cfg = s.cfg := by rfl
@[simp] theorem fifoStatusRead_rom : (fifoStatusRead s).rom = s.rom := by rfl
@[simp] theorem fifoStatusRead_x : (fifoStatusRead s).x = s.x := by rfl
@[simp] theorem fifoStatusRead_ctl : (fifoStatusRead s).ctl = s.ctl := by rfl
@[simp] theorem fifoStatusRead_faults : (fifoStatusRead s).faults = s.faults := by rfl
@[simp] theorem fifoStatusRead_per : (fifoStatusRead s).per = s.per := by rfl
@[simp] theorem fifoStatusRead_units : (fifoStatusRead s).units = s.units := by rfl
@[simp] theorem fifoStatusRead_mem : (fifoStatusRead s).mem = s.mem := by rfl
@[simp] theorem fifoStatusRead_xval (xr : XReg) : (fifoStatusRead s).xval xr = s.xval xr := by simp [State.xval]

@[simp] theorem seqMemRead_cfg (a : Nat) : (seqMemRead a s).cfg = s.cfg := by rfl
@[simp] theorem seqMemRead_rom (a : Nat) : (seqMemRead a s).rom = s.rom := by rfl
@[simp] theorem seqMemRead_x (a : Nat) : (seqMemRead a s).x = s.x := by rfl
@[simp] theorem seqMemRead_ctl (a : Nat) : (seqMemRead a s).ctl = s.ctl := by rfl
@[simp] theorem seqMemRead_faults (a : Nat) : (seqMemRead a s).faults = s.faults := by rfl
@[simp] theorem seqMemRead_per (a : Nat) : (seqMemRead a s).per = s.per := by rfl
@[simp] theorem seqMemRead_units (a : Nat) : (seqMemRead a s).units = s.units := by rfl
@[simp] theorem seqMemRead_mem (a : Nat) : (seqMemRead a s).mem = s.mem := by rfl
@[simp] theorem seqMemRead_xval (a : Nat) (xr : XReg) : (seqMemRead a s).xval xr = s.xval xr := by simp [State.xval]

@[simp] theorem seqMemWrite_cfg (a : Nat) (v : Word) : (seqMemWrite a v s).cfg = s.cfg := by rfl
@[simp] theorem seqMemWrite_rom (a : Nat) (v : Word) : (seqMemWrite a v s).rom = s.rom := by rfl
@[simp] theorem seqMemWrite_x (a : Nat) (v : Word) : (seqMemWrite a v s).x = s.x := by rfl
@[simp] theorem seqMemWrite_ctl (a : Nat) (v : Word) : (seqMemWrite a v s).ctl = s.ctl := by rfl
@[simp] theorem seqMemWrite_faults (a : Nat) (v : Word) : (seqMemWrite a v s).faults = s.faults := by rfl
@[simp] theorem seqMemWrite_per (a : Nat) (v : Word) : (seqMemWrite a v s).per = s.per := by rfl
@[simp] theorem seqMemWrite_units (a : Nat) (v : Word) : (seqMemWrite a v s).units = s.units := by rfl
@[simp] theorem seqMemWrite_xval (a : Nat) (v : Word) (xr : XReg) : (seqMemWrite a v s).xval xr = s.xval xr := by simp [State.xval]

@[simp] theorem dmaReadEffect_cfg (a n : Nat) : (dmaReadEffect a n s).cfg = s.cfg := by unfold dmaReadEffect; split <;> rfl
@[simp] theorem dmaReadEffect_rom (a n : Nat) : (dmaReadEffect a n s).rom = s.rom := by unfold dmaReadEffect; split <;> rfl
@[simp] theorem dmaReadEffect_x (a n : Nat) : (dmaReadEffect a n s).x = s.x := by unfold dmaReadEffect; split <;> rfl
@[simp] theorem dmaReadEffect_faults (a n : Nat) : (dmaReadEffect a n s).faults = s.faults := by unfold dmaReadEffect; split <;> rfl
@[simp] theorem dmaReadEffect_per (a n : Nat) : (dmaReadEffect a n s).per = s.per := by unfold dmaReadEffect; split <;> rfl
@[simp] theorem dmaReadEffect_units (a n : Nat) : (dmaReadEffect a n s).units = s.units := by unfold dmaReadEffect; split <;> rfl
@[simp] theorem dmaReadEffect_mem (a n : Nat) : (dmaReadEffect a n s).mem = s.mem := by unfold dmaReadEffect; split <;> rfl
@[simp] theorem dmaReadEffect_xval (a n : Nat) (xr : XReg) : (dmaReadEffect a n s).xval xr = s.xval xr := by simp [State.xval]

@[simp] theorem dmaWriteWord_cfg (a : Nat) (v : Word) : (dmaWriteWord a v s).cfg = s.cfg := by unfold dmaWriteWord; split <;> rfl
@[simp] theorem dmaWriteWord_rom (a : Nat) (v : Word) : (dmaWriteWord a v s).rom = s.rom := by unfold dmaWriteWord; split <;> rfl
@[simp] theorem dmaWriteWord_x (a : Nat) (v : Word) : (dmaWriteWord a v s).x = s.x := by unfold dmaWriteWord; split <;> rfl
@[simp] theorem dmaWriteWord_faults (a : Nat) (v : Word) : (dmaWriteWord a v s).faults = s.faults := by unfold dmaWriteWord; split <;> rfl
@[simp] theorem dmaWriteWord_per (a : Nat) (v : Word) : (dmaWriteWord a v s).per = s.per := by unfold dmaWriteWord; split <;> rfl
@[simp] theorem dmaWriteWord_units (a : Nat) (v : Word) : (dmaWriteWord a v s).units = s.units := by unfold dmaWriteWord; split <;> rfl
@[simp] theorem dmaWriteWord_aux (a : Nat) (v : Word) : (dmaWriteWord a v s).aux = s.aux := by unfold dmaWriteWord; split <;> rfl
@[simp] theorem dmaWriteWord_xval (a : Nat) (v : Word) (xr : XReg) : (dmaWriteWord a v s).xval xr = s.xval xr := by simp [State.xval]

@[simp] theorem dmaWriteByte_cfg (a : Nat) (b : Byte) : (dmaWriteByte a b s).cfg = s.cfg := by unfold dmaWriteByte; split <;> rfl
@[simp] theorem dmaWriteByte_rom (a : Nat) (b : Byte) : (dmaWriteByte a b s).rom = s.rom := by unfold dmaWriteByte; split <;> rfl
@[simp] theorem dmaWriteByte_x (a : Nat) (b : Byte) : (dmaWriteByte a b s).x = s.x := by unfold dmaWriteByte; split <;> rfl
@[simp] theorem dmaWriteByte_faults (a : Nat) (b : Byte) : (dmaWriteByte a b s).faults = s.faults := by unfold dmaWriteByte; split <;> rfl
@[simp] theorem dmaWriteByte_per (a : Nat) (b : Byte) : (dmaWriteByte a b s).per = s.per := by unfold dmaWriteByte; split <;> rfl
@[simp] theorem dmaWriteByte_units (a : Nat) (b : Byte) : (dmaWriteByte a b s).units = s.units := by unfold dmaWriteByte; split <;> rfl
@[simp] theorem dmaWriteByte_aux (a : Nat) (b : Byte) : (dmaWriteByte a b s).aux = s.aux := by unfold dmaWriteByte; split <;> rfl
@[simp] theorem dmaWriteByte_xval (a : Nat) (b : Byte) (xr : XReg) : (dmaWriteByte a b s).xval xr = s.xval xr := by simp [State.xval]

@[simp] theorem holdReset_cfg : (holdReset s).cfg = s.cfg := by rfl
@[simp] theorem holdReset_rom : (holdReset s).rom = s.rom := by rfl
@[simp] theorem holdReset_x : (holdReset s).x = s.x := by rfl
@[simp] theorem holdReset_ctl : (holdReset s).ctl = s.ctl := by rfl
@[simp] theorem holdReset_faults : (holdReset s).faults = s.faults := by rfl
@[simp] theorem holdReset_per : (holdReset s).per = s.per := by rfl
@[simp] theorem holdReset_mem : (holdReset s).mem = s.mem := by rfl
@[simp] theorem holdReset_aux : (holdReset s).aux = s.aux := by rfl
@[simp] theorem holdReset_xval (xr : XReg) : (holdReset s).xval xr = s.xval xr := by simp [State.xval]

@[simp] theorem doutStart_cfg (v : Word) : (doutStart v s).cfg = s.cfg := by unfold doutStart; split <;> [rfl; (split <;> rfl)]
@[simp] theorem doutStart_rom (v : Word) : (doutStart v s).rom = s.rom := by unfold doutStart; split <;> [rfl; (split <;> rfl)]
@[simp] theorem doutStart_x (v : Word) : (doutStart v s).x = s.x := by unfold doutStart; split <;> [rfl; (split <;> rfl)]
@[simp] theorem doutStart_faults (v : Word) : (doutStart v s).faults = s.faults := by unfold doutStart; split <;> [rfl; (split <;> rfl)]
@[simp] theorem doutStart_per (v : Word) : (doutStart v s).per = s.per := by unfold doutStart; split <;> [rfl; (split <;> rfl)]
@[simp] theorem doutStart_mem (v : Word) : (doutStart v s).mem = s.mem := by unfold doutStart; split <;> [rfl; (split <;> rfl)]
@[simp] theorem doutStart_aux (v : Word) : (doutStart v s).aux = s.aux := by unfold doutStart; split <;> [rfl; (split <;> rfl)]
@[simp] theorem doutStart_xval (v : Word) (xr : XReg) : (doutStart v s).xval xr = s.xval xr := by simp [State.xval]

@[simp] theorem dinStart_cfg (v : Word) : (dinStart v s).cfg = s.cfg := by unfold dinStart; split <;> [rfl; (split <;> rfl)]
@[simp] theorem dinStart_rom (v : Word) : (dinStart v s).rom = s.rom := by unfold dinStart; split <;> [rfl; (split <;> rfl)]
@[simp] theorem dinStart_x (v : Word) : (dinStart v s).x = s.x := by unfold dinStart; split <;> [rfl; (split <;> rfl)]
@[simp] theorem dinStart_faults (v : Word) : (dinStart v s).faults = s.faults := by unfold dinStart; split <;> [rfl; (split <;> rfl)]
@[simp] theorem dinStart_per (v : Word) : (dinStart v s).per = s.per := by unfold dinStart; split <;> [rfl; (split <;> rfl)]
@[simp] theorem dinStart_mem (v : Word) : (dinStart v s).mem = s.mem := by unfold dinStart; split <;> [rfl; (split <;> rfl)]
@[simp] theorem dinStart_aux (v : Word) : (dinStart v s).aux = s.aux := by unfold dinStart; split <;> [rfl; (split <;> rfl)]
@[simp] theorem dinStart_xval (v : Word) (xr : XReg) : (dinStart v s).xval xr = s.xval xr := by simp [State.xval]

@[simp] theorem aesTriggerEffect_cfg : (aesTriggerEffect s).cfg = s.cfg := by unfold aesTriggerEffect; split <;> simp
@[simp] theorem aesTriggerEffect_rom : (aesTriggerEffect s).rom = s.rom := by unfold aesTriggerEffect; split <;> simp
@[simp] theorem aesTriggerEffect_x : (aesTriggerEffect s).x = s.x := by unfold aesTriggerEffect; split <;> simp
@[simp] theorem aesTriggerEffect_faults : (aesTriggerEffect s).faults = s.faults := by unfold aesTriggerEffect; split <;> simp
@[simp] theorem aesTriggerEffect_per : (aesTriggerEffect s).per = s.per := by unfold aesTriggerEffect; split <;> simp
@[simp] theorem aesTriggerEffect_mem : (aesTriggerEffect s).mem = s.mem := by unfold aesTriggerEffect; split <;> simp
@[simp] theorem aesTriggerEffect_aux : (aesTriggerEffect s).aux = s.aux := by unfold aesTriggerEffect; split <;> simp
@[simp] theorem aesTriggerEffect_xval (xr : XReg) : (aesTriggerEffect s).xval xr = s.xval xr := by simp [State.xval]

@[simp] theorem aesExitEffect_cfg : (aesExitEffect s).cfg = s.cfg := by unfold aesExitEffect; split <;> rfl
@[simp] theorem aesExitEffect_rom : (aesExitEffect s).rom = s.rom := by unfold aesExitEffect; split <;> rfl
@[simp] theorem aesExitEffect_x : (aesExitEffect s).x = s.x := by unfold aesExitEffect; split <;> rfl
@[simp] theorem aesExitEffect_faults : (aesExitEffect s).faults = s.faults := by unfold aesExitEffect; split <;> rfl
@[simp] theorem aesExitEffect_per : (aesExitEffect s).per = s.per := by unfold aesExitEffect; split <;> rfl
@[simp] theorem aesExitEffect_mem : (aesExitEffect s).mem = s.mem := by unfold aesExitEffect; split <;> rfl
@[simp] theorem aesExitEffect_aux : (aesExitEffect s).aux = s.aux := by unfold aesExitEffect; split <;> rfl
@[simp] theorem aesExitEffect_xval (xr : XReg) : (aesExitEffect s).xval xr = s.xval xr := by simp [State.xval]

@[simp] theorem sideEffect_cfg (r : PReg) (v : Word) : (sideEffect r v s).cfg = s.cfg := by unfold sideEffect; (repeat' split) <;> simp
@[simp] theorem sideEffect_rom (r : PReg) (v : Word) : (sideEffect r v s).rom = s.rom := by unfold sideEffect; (repeat' split) <;> simp
@[simp] theorem sideEffect_x (r : PReg) (v : Word) : (sideEffect r v s).x = s.x := by unfold sideEffect; (repeat' split) <;> simp
@[simp] theorem sideEffect_faults (r : PReg) (v : Word) : (sideEffect r v s).faults = s.faults := by unfold sideEffect; (repeat' split) <;> simp
@[simp] theorem sideEffect_per (r : PReg) (v : Word) : (sideEffect r v s).per = s.per := by unfold sideEffect; (repeat' split) <;> simp
@[simp] theorem sideEffect_mem (r : PReg) (v : Word) : (sideEffect r v s).mem = s.mem := by unfold sideEffect; (repeat' split) <;> simp
@[simp] theorem sideEffect_aux (r : PReg) (v : Word) : (sideEffect r v s).aux = s.aux := by unfold sideEffect; (repeat' split) <;> simp
@[simp] theorem sideEffect_xval (r : PReg) (v : Word) (xr : XReg) : (sideEffect r v s).xval xr = s.xval xr := by simp [State.xval]

@[simp] theorem regWrite_cfg (r : PReg) (v : Word) : (regWrite r v s).cfg = s.cfg := by simp [regWrite]
@[simp] theorem regWrite_rom (r : PReg) (v : Word) : (regWrite r v s).rom = s.rom := by simp [regWrite]
@[simp] theorem regWrite_x (r : PReg) (v : Word) : (regWrite r v s).x = s.x := by simp [regWrite]
@[simp] theorem regWrite_faults (r : PReg) (v : Word) : (regWrite r v s).faults = s.faults := by simp [regWrite]
@[simp] theorem regWrite_mem (r : PReg) (v : Word) : (regWrite r v s).mem = s.mem := by simp [regWrite]
@[simp] theorem regWrite_xval (r : PReg) (v : Word) (xr : XReg) : (regWrite r v s).xval xr = s.xval xr := by simp [State.xval]

@[simp] theorem reservedUop_cfg : (reservedUop s).cfg = s.cfg := by rfl
@[simp] theorem reservedUop_rom : (reservedUop s).rom = s.rom := by rfl
@[simp] theorem reservedUop_x : (reservedUop s).x = s.x := by rfl
@[simp] theorem reservedUop_ctl : (reservedUop s).ctl = s.ctl := by rfl
@[simp] theorem reservedUop_per : (reservedUop s).per = s.per := by rfl
@[simp] theorem reservedUop_units : (reservedUop s).units = s.units := by rfl
@[simp] theorem reservedUop_mem : (reservedUop s).mem = s.mem := by rfl
@[simp] theorem reservedUop_aux : (reservedUop s).aux = s.aux := by rfl
@[simp] theorem reservedUop_xval (xr : XReg) : (reservedUop s).xval xr = s.xval xr := by simp [State.xval]

@[simp] theorem popTurn_cfg : (popTurn s).cfg = s.cfg := by unfold popTurn; split <;> rfl
@[simp] theorem popTurn_rom : (popTurn s).rom = s.rom := by unfold popTurn; split <;> rfl
@[simp] theorem popTurn_x : (popTurn s).x = s.x := by unfold popTurn; split <;> rfl
@[simp] theorem popTurn_ctl : (popTurn s).ctl = s.ctl := by unfold popTurn; split <;> rfl
@[simp] theorem popTurn_faults : (popTurn s).faults = s.faults := by unfold popTurn; split <;> rfl
@[simp] theorem popTurn_per : (popTurn s).per = s.per := by unfold popTurn; split <;> rfl
@[simp] theorem popTurn_units : (popTurn s).units = s.units := by unfold popTurn; split <;> rfl
@[simp] theorem popTurn_mem : (popTurn s).mem = s.mem := by unfold popTurn; split <;> rfl
@[simp] theorem popTurn_xval (xr : XReg) : (popTurn s).xval xr = s.xval xr := by simp [State.xval]

/-! ## What an operation does to the fields it writes -/

@[simp] theorem writeX_x (r : XReg) (v : Word) : (writeX r v s).x = s.x.set r ⟨v, true⟩ := rfl
@[simp] theorem writeX_xval_same (r : XReg) (v : Word) : (writeX r v s).xval r = v := by simp [State.xval]
theorem writeX_xval_of_ne (r q : XReg) (v : Word) (h : q ≠ r) : (writeX r v s).xval q = s.xval q := by
  simp [State.xval, Session.get_set_of_ne _ _ _ _ h]

/-- A read of a register written since reset changes nothing (10_state.md R22). -/
theorem noteRead_of_written (r : XReg) (h : (s.x.get r).written = true) : noteRead r s = s := by simp [noteRead, h]

/-- A read of a register not written since reset adds `UNWRITTEN_READ` to `F` (60_exceptions.md R245). -/
theorem noteRead_faults (r : XReg) :
    (noteRead r s).faults = { s.faults with unwrittenRead := s.faults.unwrittenRead || !(s.x.get r).written } := by
  unfold noteRead; split <;> simp_all

@[simp] theorem advance_ctl : (advance s).ctl = { s.ctl with upc := s.ctl.upc + 1 } := rfl
@[simp] theorem enterState_ctl (q : SeqState) : (enterState q s).ctl = { s.ctl with state := q } := rfl
@[simp] theorem setChaos_ctl : (setChaos s).ctl = { s.ctl with chaos := true } := rfl
@[simp] theorem endRun_ctl : (endRun s).ctl = { s.ctl with state := .released, busy := false } := rfl
@[simp] theorem takeException_ctl (e : Exc) (i : BitVec 2) :
    (takeException e i s).ctl =
      { s.ctl with status := excStatus e, errinfo := i, eupc := s.ctl.upc, state := .error, busy := false } := rfl

theorem chaosIf_aesHeld (c : Bool) : aesHeld (chaosIf c s) = aesHeld s := by simp [aesHeld]
@[simp] theorem chaosIf_ctl (c : Bool) : (chaosIf c s).ctl = { s.ctl with chaos := s.ctl.chaos || c } := by
  cases c <;> simp [chaosIf]

@[simp] theorem useDraws_aux (n : Nat) : (useDraws n s).aux = { s.aux with draws := s.aux.draws + n } := rfl
@[simp] theorem logBus_aux (e : BusEvent) : (logBus e s).aux = { s.aux with trace := e :: s.aux.trace } := rfl
@[simp] theorem seqMemRead_aux (a : Nat) : (seqMemRead a s).aux = { s.aux with trace := .read a :: s.aux.trace } := rfl
@[simp] theorem seqMemWrite_aux (a : Nat) (v : Word) :
    (seqMemWrite a v s).aux = { s.aux with trace := .write a v :: s.aux.trace } := rfl
@[simp] theorem seqMemWrite_mem (a : Nat) (v : Word) : (seqMemWrite a v s).mem = s.mem.write32 a v := rfl

@[simp] theorem regRead_trace (r : PReg) :
    (regRead r s).aux.trace = .read (regGet s.cfg.addr.stored r).toNat :: s.aux.trace := by
  unfold regRead; simp only; split <;> rfl
@[simp] theorem regRead_script (r : PReg) : (regRead r s).aux.script = s.aux.script := by
  unfold regRead; simp only; split <;> rfl
@[simp] theorem regRead_outPrepared (r : PReg) : (regRead r s).aux.outPrepared = s.aux.outPrepared := by
  unfold regRead; simp only; split <;> rfl
@[simp] theorem regRead_inPrepared (r : PReg) : (regRead r s).aux.inPrepared = s.aux.inPrepared := by
  unfold regRead; simp only; split <;> rfl

/-- R221: a register of a unit that is not gated reads as stored. -/
theorem regValue_of_not_gated (r : PReg) (h : regGated r s = false) : regValue r s = regGet s.per r := by
  simp [regValue, h]

theorem regRead_of_not_gated (r : PReg) (h : regGated r s = false) :
    regRead r s = logBus (.read (regGet s.cfg.addr.stored r).toNat) s := by
  have : regGated r (logBus (.read (regGet s.cfg.addr.stored r).toNat) s) = regGated r s := rfl
  simp [regRead, this, h]

/-! ### Register writes -/

/-- What a register write reads of the gating and the agents does not depend on the value stored. -/
theorem writeChaos_store (r : PReg) (v : Word) (e : BusEvent) :
    writeChaos r ((logBus e s).setPer (regSet s.per r v)) = writeChaos r s := by
  cases r <;> rfl

@[simp] theorem regWrite_per (r : PReg) (v : Word) :
    (regWrite r v s).per = regSet s.per r (storedValue s.cfg r v) := by simp [regWrite]

@[simp] theorem regWrite_aux (r : PReg) (v : Word) :
    (regWrite r v s).aux = { s.aux with trace := .write (regGet s.cfg.addr.stored r).toNat v :: s.aux.trace } := by
  simp [regWrite]

/-- A register whose write does nothing beyond storing and the chaos check (44_autonomous_units.md R201). -/
def isPlainReg : PReg → Bool
  | .dmaInConf0 | .dmaOutConf0 | .dmaInLink | .dmaOutLink | .aesTrigger | .aesDmaExit | .sysRstEn => false
  | _ => true

theorem sideEffect_plain (r : PReg) (v : Word) (h : isPlainReg r = true) : sideEffect r v s = s := by
  cases r <;> simp_all [isPlainReg, sideEffect]

theorem regWrite_plain_units (r : PReg) (v : Word) (h : isPlainReg r = true) : (regWrite r v s).units = s.units := by
  simp [regWrite, sideEffect_plain _ _ _ h]

theorem regWrite_plain_ctl (r : PReg) (v : Word) (h : isPlainReg r = true) :
    (regWrite r v s).ctl = { s.ctl with chaos := s.ctl.chaos || writeChaos r s } := by
  simp [regWrite, sideEffect_plain _ _ _ h, writeChaos_store]

theorem isPlainReg_keyReg (i : Nat) : isPlainReg (keyReg i) = true := by
  rcases keyReg_cases i with h | h | h | h <;> simp [h, isPlainReg]

theorem isPlainReg_ivReg (i : Nat) : isPlainReg (ivReg i) = true := by
  rcases ivReg_cases i with h | h | h | h <;> simp [h, isPlainReg]

/-- A side effect changes no control field but `s.chaos`, and never clears that (10_state.md R49). -/
theorem sideEffect_ctl (r : PReg) (v : Word) :
    ∃ c, (sideEffect r v s).ctl = { s.ctl with chaos := s.ctl.chaos || c } := by
  have hs : ∃ c, s.ctl = { s.ctl with chaos := s.ctl.chaos || c } := ⟨false, by simp⟩
  have hset : ∃ c, (setChaos s).ctl = { s.ctl with chaos := s.ctl.chaos || c } := ⟨true, by simp⟩
  unfold sideEffect
  split <;> try (first | exact hs | (split <;> exact hs))
  · split
    · unfold doutStart; split <;> [exact hset; (split <;> [exact hset; exact hs])]
    · exact hs
  · split
    · unfold dinStart; split <;> [exact hset; (split <;> [exact hset; exact hs])]
    · exact hs
  · split
    · unfold aesTriggerEffect
      split
      · exact hset
      · exact ⟨badAesConfig s || badBlockNum s.per.aesBlockNum, by simp [Bool.or_assoc]⟩
    · exact hs
  · split
    · unfold aesExitEffect; split <;> [exact hs; exact hs; exact hset]
    · exact hs

/-- A register write changes no control field but `s.chaos`, sets it where R230 (a) or (h) holds, and never clears it. -/
theorem regWrite_ctl (r : PReg) (v : Word) :
    ∃ c, (regWrite r v s).ctl = { s.ctl with chaos := s.ctl.chaos || (writeChaos r s || c) } := by
  unfold regWrite
  obtain ⟨c, hc⟩ := sideEffect_ctl (chaosIf (writeChaos r ((logBus (.write (regGet s.cfg.addr.stored r).toNat v) s).setPer
    (regSet s.per r (storedValue s.cfg r v)))) ((logBus (.write (regGet s.cfg.addr.stored r).toNat v) s).setPer
    (regSet s.per r (storedValue s.cfg r v)))) r v
  exact ⟨c, by simpa [writeChaos_store, Bool.or_assoc] using hc⟩

/-! ### Read-modify-write (41_dma_channel.md R130) -/

/-- A read-modify-write is the read into `TMP` and then the write of the changed value. -/
theorem regModify_eq (r : PReg) (f : Word → Word) :
    regModify r f s = regWrite r (f (regValue r s)) (writeX .tmp (regValue r s) (regRead r s)) := by
  unfold regModify
  simp only [writeX_xval_same]
  rw [noteRead_of_written _ _ (by simp)]

@[simp] theorem regModify_cfg (r : PReg) (f : Word → Word) : (regModify r f s).cfg = s.cfg := by simp [regModify_eq]
@[simp] theorem regModify_rom (r : PReg) (f : Word → Word) : (regModify r f s).rom = s.rom := by simp [regModify_eq]
@[simp] theorem regModify_faults (r : PReg) (f : Word → Word) : (regModify r f s).faults = s.faults := by
  simp [regModify_eq]
@[simp] theorem regModify_mem (r : PReg) (f : Word → Word) : (regModify r f s).mem = s.mem := by simp [regModify_eq]
@[simp] theorem regModify_x (r : PReg) (f : Word → Word) :
    (regModify r f s).x = s.x.set .tmp ⟨regValue r s, true⟩ := by simp [regModify_eq]
@[simp] theorem regModify_per (r : PReg) (f : Word → Word) :
    (regModify r f s).per = regSet s.per r (storedValue s.cfg r (f (regValue r s))) := by simp [regModify_eq]
@[simp] theorem regModify_trace (r : PReg) (f : Word → Word) :
    (regModify r f s).aux.trace =
      .write (regGet s.cfg.addr.stored r).toNat (f (regValue r s)) :: .read (regGet s.cfg.addr.stored r).toNat ::
        s.aux.trace := by
  simp [regModify_eq]
@[simp] theorem regModify_script (r : PReg) (f : Word → Word) : (regModify r f s).aux.script = s.aux.script := by
  simp [regModify_eq]
@[simp] theorem regModify_outPrepared (r : PReg) (f : Word → Word) :
    (regModify r f s).aux.outPrepared = s.aux.outPrepared := by simp [regModify_eq]
@[simp] theorem regModify_inPrepared (r : PReg) (f : Word → Word) :
    (regModify r f s).aux.inPrepared = s.aux.inPrepared := by simp [regModify_eq]

/-- Reading a register into `TMP` changes nothing a write's chaos check looks at. -/
theorem writeChaos_regRead (r q : PReg) (v : Word) : writeChaos q (writeX .tmp v (regRead r s)) = writeChaos q s := by
  simp [writeChaos, regGated, dmaGated, aesGated, dmaHeld, aesHeld]

theorem regModify_ctl (r : PReg) (f : Word → Word) :
    ∃ c, (regModify r f s).ctl = { s.ctl with chaos := s.ctl.chaos || (writeChaos r s || c) } := by
  rw [regModify_eq]
  obtain ⟨c, hc⟩ := regWrite_ctl (writeX .tmp (regValue r s) (regRead r s)) r (f (regValue r s))
  exact ⟨c, by simpa [writeChaos_regRead] using hc⟩

theorem regModify_plain_units (r : PReg) (f : Word → Word) (h : isPlainReg r = true) :
    (regModify r f s).units = s.units := by
  rw [regModify_eq, regWrite_plain_units _ _ _ h]; simp

theorem regModify_plain_ctl (r : PReg) (f : Word → Word) (h : isPlainReg r = true) :
    (regModify r f s).ctl = { s.ctl with chaos := s.ctl.chaos || writeChaos r s } := by
  rw [regModify_eq, regWrite_plain_ctl _ _ _ h, writeChaos_regRead]; simp

/-! ### The DMA agents' accesses -/

/-- A DMA access inside the region changes no control field. -/
theorem dmaReadEffect_of_inRegion (a n : Nat) (h : s.cfg.rangeInRegion a n = true) : dmaReadEffect a n s = s := by
  simp [dmaReadEffect, h]

theorem dmaReadEffect_ctl (a n : Nat) :
    (dmaReadEffect a n s).ctl = { s.ctl with chaos := s.ctl.chaos || !s.cfg.rangeInRegion a n } := by
  unfold dmaReadEffect; split <;> simp_all

theorem dmaWriteWord_ctl (a : Nat) (v : Word) :
    (dmaWriteWord a v s).ctl = { s.ctl with chaos := s.ctl.chaos || !s.cfg.rangeInRegion a 4 } := by
  unfold dmaWriteWord; split <;> simp_all

theorem dmaWriteByte_ctl (a : Nat) (b : Byte) :
    (dmaWriteByte a b s).ctl = { s.ctl with chaos := s.ctl.chaos || !s.cfg.rangeInRegion a 1 } := by
  unfold dmaWriteByte; split <;> simp_all

theorem dmaWriteWord_mem (a : Nat) (v : Word) :
    (dmaWriteWord a v s).mem = if s.cfg.rangeInRegion a 4 then s.mem.write32 a v else s.mem := by
  unfold dmaWriteWord; split <;> simp

theorem dmaWriteByte_mem (a : Nat) (b : Byte) :
    (dmaWriteByte a b s).mem = if s.cfg.rangeInRegion a 1 then s.mem.write a b else s.mem := by
  unfold dmaWriteByte; split <;> simp

end Sys2Proof.Machine
end

