-- ==== Sys2Proof/Laws/Agents.lean ====
section
/-! SUPPORT. What the moves of the agents leave unchanged and what they can change, said once over all of them
(44_autonomous_units.md). -/

namespace Sys2Proof.Machine

variable (s : State)

@[simp] theorem doutFetch_cfg : (doutFetch s).cfg = s.cfg := by simp [doutFetch]
@[simp] theorem doutFetch_rom : (doutFetch s).rom = s.rom := by simp [doutFetch]
@[simp] theorem doutFetch_x : (doutFetch s).x = s.x := by simp [doutFetch]
@[simp] theorem doutFetch_faults : (doutFetch s).faults = s.faults := by simp [doutFetch]
@[simp] theorem doutFetch_per : (doutFetch s).per = s.per := by simp [doutFetch]

@[simp] theorem doutSend_cfg : (doutSend s).cfg = s.cfg := by unfold doutSend; simp only; split <;> simp
@[simp] theorem doutSend_rom : (doutSend s).rom = s.rom := by unfold doutSend; simp only; split <;> simp
@[simp] theorem doutSend_x : (doutSend s).x = s.x := by unfold doutSend; simp only; split <;> simp
@[simp] theorem doutSend_faults : (doutSend s).faults = s.faults := by unfold doutSend; simp only; split <;> simp
@[simp] theorem doutSend_per : (doutSend s).per = s.per := by unfold doutSend; simp only; split <;> simp

@[simp] theorem doutEnd_cfg : (doutEnd s).cfg = s.cfg := by unfold doutEnd; simp only; split <;> simp
@[simp] theorem doutEnd_rom : (doutEnd s).rom = s.rom := by unfold doutEnd; simp only; split <;> simp
@[simp] theorem doutEnd_x : (doutEnd s).x = s.x := by unfold doutEnd; simp only; split <;> simp
@[simp] theorem doutEnd_faults : (doutEnd s).faults = s.faults := by unfold doutEnd; simp only; split <;> simp
@[simp] theorem doutEnd_per : (doutEnd s).per = s.per := by unfold doutEnd; simp only; split <;> simp

@[simp] theorem dinFetch_cfg : (dinFetch s).cfg = s.cfg := by simp [dinFetch]
@[simp] theorem dinFetch_rom : (dinFetch s).rom = s.rom := by simp [dinFetch]
@[simp] theorem dinFetch_x : (dinFetch s).x = s.x := by simp [dinFetch]
@[simp] theorem dinFetch_faults : (dinFetch s).faults = s.faults := by simp [dinFetch]
@[simp] theorem dinFetch_per : (dinFetch s).per = s.per := by simp [dinFetch]

@[simp] theorem dinReceive_cfg (b : Byte) (rest : List Byte) : (dinReceive b rest s).cfg = s.cfg := by unfold dinReceive; simp only; split <;> simp
@[simp] theorem dinReceive_rom (b : Byte) (rest : List Byte) : (dinReceive b rest s).rom = s.rom := by unfold dinReceive; simp only; split <;> simp
@[simp] theorem dinReceive_x (b : Byte) (rest : List Byte) : (dinReceive b rest s).x = s.x := by unfold dinReceive; simp only; split <;> simp
@[simp] theorem dinReceive_faults (b : Byte) (rest : List Byte) : (dinReceive b rest s).faults = s.faults := by unfold dinReceive; simp only; split <;> simp
@[simp] theorem dinReceive_per (b : Byte) (rest : List Byte) : (dinReceive b rest s).per = s.per := by unfold dinReceive; simp only; split <;> simp

@[simp] theorem dinSuccess_cfg : (dinSuccess s).cfg = s.cfg := by simp [dinSuccess]
@[simp] theorem dinSuccess_rom : (dinSuccess s).rom = s.rom := by simp [dinSuccess]
@[simp] theorem dinSuccess_x : (dinSuccess s).x = s.x := by simp [dinSuccess]
@[simp] theorem dinSuccess_faults : (dinSuccess s).faults = s.faults := by simp [dinSuccess]
@[simp] theorem dinSuccess_per : (dinSuccess s).per = s.per := by simp [dinSuccess]

@[simp] theorem dinFail_cfg : (dinFail s).cfg = s.cfg := by simp [dinFail]
@[simp] theorem dinFail_rom : (dinFail s).rom = s.rom := by simp [dinFail]
@[simp] theorem dinFail_x : (dinFail s).x = s.x := by simp [dinFail]
@[simp] theorem dinFail_faults : (dinFail s).faults = s.faults := by simp [dinFail]
@[simp] theorem dinFail_per : (dinFail s).per = s.per := by simp [dinFail]

@[simp] theorem aesBlock_cfg (p : Block) (rest : List Byte) : (aesBlock p rest s).cfg = s.cfg := by rfl
@[simp] theorem aesBlock_rom (p : Block) (rest : List Byte) : (aesBlock p rest s).rom = s.rom := by rfl
@[simp] theorem aesBlock_x (p : Block) (rest : List Byte) : (aesBlock p rest s).x = s.x := by rfl
@[simp] theorem aesBlock_faults (p : Block) (rest : List Byte) : (aesBlock p rest s).faults = s.faults := by rfl
@[simp] theorem aesBlock_per (p : Block) (rest : List Byte) : (aesBlock p rest s).per = s.per := by rfl

@[simp] theorem aesDone_cfg : (aesDone s).cfg = s.cfg := by rfl
@[simp] theorem aesDone_rom : (aesDone s).rom = s.rom := by rfl
@[simp] theorem aesDone_x : (aesDone s).x = s.x := by rfl
@[simp] theorem aesDone_faults : (aesDone s).faults = s.faults := by rfl
@[simp] theorem aesDone_per : (aesDone s).per = s.per := by rfl

@[simp] theorem doutMove_cfg : (doutMove s).cfg = s.cfg := by unfold doutMove; split <;> [rfl; (split <;> simp)]
@[simp] theorem doutMove_rom : (doutMove s).rom = s.rom := by unfold doutMove; split <;> [rfl; (split <;> simp)]
@[simp] theorem doutMove_x : (doutMove s).x = s.x := by unfold doutMove; split <;> [rfl; (split <;> simp)]
@[simp] theorem doutMove_faults : (doutMove s).faults = s.faults := by unfold doutMove; split <;> [rfl; (split <;> simp)]
@[simp] theorem doutMove_per : (doutMove s).per = s.per := by unfold doutMove; split <;> [rfl; (split <;> simp)]

@[simp] theorem dinMove_cfg : (dinMove s).cfg = s.cfg := by unfold dinMove; split <;> [rfl; (split <;> [rfl; rfl; simp; (split <;> [simp; (split <;> simp)])])]
@[simp] theorem dinMove_rom : (dinMove s).rom = s.rom := by unfold dinMove; split <;> [rfl; (split <;> [rfl; rfl; simp; (split <;> [simp; (split <;> simp)])])]
@[simp] theorem dinMove_x : (dinMove s).x = s.x := by unfold dinMove; split <;> [rfl; (split <;> [rfl; rfl; simp; (split <;> [simp; (split <;> simp)])])]
@[simp] theorem dinMove_faults : (dinMove s).faults = s.faults := by unfold dinMove; split <;> [rfl; (split <;> [rfl; rfl; simp; (split <;> [simp; (split <;> simp)])])]
@[simp] theorem dinMove_per : (dinMove s).per = s.per := by unfold dinMove; split <;> [rfl; (split <;> [rfl; rfl; simp; (split <;> [simp; (split <;> simp)])])]

@[simp] theorem dinErrorMove_cfg : (dinErrorMove s).cfg = s.cfg := by unfold dinErrorMove; split <;> simp
@[simp] theorem dinErrorMove_rom : (dinErrorMove s).rom = s.rom := by unfold dinErrorMove; split <;> simp
@[simp] theorem dinErrorMove_x : (dinErrorMove s).x = s.x := by unfold dinErrorMove; split <;> simp
@[simp] theorem dinErrorMove_faults : (dinErrorMove s).faults = s.faults := by unfold dinErrorMove; split <;> simp
@[simp] theorem dinErrorMove_per : (dinErrorMove s).per = s.per := by unfold dinErrorMove; split <;> simp

@[simp] theorem aesMove_cfg : (aesMove s).cfg = s.cfg := by unfold aesMove; split <;> [rfl; (split <;> [rfl; rfl; (split <;> [(split <;> simp); (split <;> simp)])])]
@[simp] theorem aesMove_rom : (aesMove s).rom = s.rom := by unfold aesMove; split <;> [rfl; (split <;> [rfl; rfl; (split <;> [(split <;> simp); (split <;> simp)])])]
@[simp] theorem aesMove_x : (aesMove s).x = s.x := by unfold aesMove; split <;> [rfl; (split <;> [rfl; rfl; (split <;> [(split <;> simp); (split <;> simp)])])]
@[simp] theorem aesMove_faults : (aesMove s).faults = s.faults := by unfold aesMove; split <;> [rfl; (split <;> [rfl; rfl; (split <;> [(split <;> simp); (split <;> simp)])])]
@[simp] theorem aesMove_per : (aesMove s).per = s.per := by unfold aesMove; split <;> [rfl; (split <;> [rfl; rfl; (split <;> [(split <;> simp); (split <;> simp)])])]

@[simp] theorem chaosEffect_cfg (m : ChaosMove) : (chaosEffect m s).cfg = s.cfg := by
  cases m <;> simp [chaosEffect]
@[simp] theorem chaosEffect_rom (m : ChaosMove) : (chaosEffect m s).rom = s.rom := by
  cases m <;> simp [chaosEffect]
@[simp] theorem chaosEffect_x (m : ChaosMove) : (chaosEffect m s).x = s.x := by
  cases m <;> simp [chaosEffect]
@[simp] theorem chaosEffect_faults (m : ChaosMove) : (chaosEffect m s).faults = s.faults := by
  cases m <;> simp [chaosEffect]
@[simp] theorem chaosEffect_per (m : ChaosMove) : (chaosEffect m s).per = s.per := by
  cases m <;> simp [chaosEffect]

@[simp] theorem chaosMove_cfg (m : ChaosMove) : (chaosMove m s).cfg = s.cfg := by unfold chaosMove; split <;> simp
@[simp] theorem chaosMove_rom (m : ChaosMove) : (chaosMove m s).rom = s.rom := by unfold chaosMove; split <;> simp
@[simp] theorem chaosMove_x (m : ChaosMove) : (chaosMove m s).x = s.x := by unfold chaosMove; split <;> simp
@[simp] theorem chaosMove_faults (m : ChaosMove) : (chaosMove m s).faults = s.faults := by unfold chaosMove; split <;> simp
@[simp] theorem chaosMove_per (m : ChaosMove) : (chaosMove m s).per = s.per := by unfold chaosMove; split <;> simp

/-! ## Control fields: an agent can only set `s.chaos` (R231) -/

theorem doutMove_ctl : ∃ c, (doutMove s).ctl = { s.ctl with chaos := s.ctl.chaos || c } := by
  have hs : ∃ c, s.ctl = { s.ctl with chaos := s.ctl.chaos || c } := ⟨false, by simp⟩
  unfold doutMove
  split
  · exact hs
  · split
    · exact hs
    · exact ⟨_, by simp only [doutFetch, State.setUnits_ctl, dmaReadEffect_ctl, Bool.or_assoc]; rfl⟩
    · unfold doutSend
      simp only
      split
      · exact ⟨_, by simp only [State.setUnits_ctl, dmaReadEffect_ctl]; rfl⟩
      · exact hs
    · unfold doutEnd
      simp only
      split
      · exact ⟨_, by simp only [State.setUnits_ctl, dmaWriteWord_ctl, chaosIf_ctl, Bool.or_assoc]; rfl⟩
      · exact ⟨_, by simp only [State.setUnits_ctl, chaosIf_ctl]; rfl⟩

theorem dinMove_ctl : ∃ c, (dinMove s).ctl = { s.ctl with chaos := s.ctl.chaos || c } := by
  have hs : ∃ c, s.ctl = { s.ctl with chaos := s.ctl.chaos || c } := ⟨false, by simp⟩
  unfold dinMove
  split
  · exact hs
  · split
    · exact hs
    · exact hs
    · exact ⟨_, by simp only [dinFetch, State.setUnits_ctl, dmaReadEffect_ctl, Bool.or_assoc]; rfl⟩
    · split
      · unfold dinReceive
        simp only
        split
        · exact ⟨_, by simp only [State.setUnits_ctl, dmaWriteByte_ctl]; rfl⟩
        · exact ⟨true, by simp⟩
      · split
        · exact ⟨_, by simp only [dinSuccess, State.setUnits_ctl, dmaWriteWord_ctl]; rfl⟩
        · exact hs

theorem dinErrorMove_ctl : ∃ c, (dinErrorMove s).ctl = { s.ctl with chaos := s.ctl.chaos || c } := by
  unfold dinErrorMove
  split
  · exact ⟨_, by simp only [dinFail, State.setUnits_ctl, dmaWriteWord_ctl]; rfl⟩
  · exact ⟨false, by simp⟩

@[simp] theorem aesMove_ctl : (aesMove s).ctl = s.ctl := by
  unfold aesMove
  split <;> [rfl; (split <;> [rfl; rfl; (split <;> [(split <;> rfl); (split <;> rfl)])])]

theorem chaosMove_ctl (m : ChaosMove) : ∃ c, (chaosMove m s).ctl = { s.ctl with chaos := s.ctl.chaos || c } := by
  have hs : ∃ c, s.ctl = { s.ctl with chaos := s.ctl.chaos || c } := ⟨false, by simp⟩
  unfold chaosMove
  split
  · cases m <;>
      first
        | exact hs
        | exact ⟨_, dmaWriteByte_ctl _ _ _⟩
        | exact ⟨_, dmaWriteWord_ctl _ _ _⟩
  · exact hs

/-! ## The model's own fields: an agent only uses up free values -/

@[simp] theorem dmaReadEffect_trace (a n : Nat) : (dmaReadEffect a n s).aux.trace = s.aux.trace := by
  unfold dmaReadEffect; split <;> rfl
@[simp] theorem dmaReadEffect_outPrepared (a n : Nat) : (dmaReadEffect a n s).aux.outPrepared = s.aux.outPrepared := by
  unfold dmaReadEffect; split <;> rfl
@[simp] theorem dmaReadEffect_inPrepared (a n : Nat) : (dmaReadEffect a n s).aux.inPrepared = s.aux.inPrepared := by
  unfold dmaReadEffect; split <;> rfl

@[simp] theorem doutMove_trace : (doutMove s).aux.trace = s.aux.trace := by
  unfold doutMove doutFetch doutSend doutEnd; simp only; (repeat' split) <;> simp
@[simp] theorem dinMove_trace : (dinMove s).aux.trace = s.aux.trace := by
  unfold dinMove dinFetch dinReceive dinSuccess; simp only; (repeat' split) <;> simp
@[simp] theorem dinErrorMove_trace : (dinErrorMove s).aux.trace = s.aux.trace := by
  unfold dinErrorMove dinFail; simp only; split <;> simp
@[simp] theorem aesMove_trace : (aesMove s).aux.trace = s.aux.trace := by
  unfold aesMove; (repeat' split) <;> rfl
@[simp] theorem chaosMove_trace (m : ChaosMove) : (chaosMove m s).aux.trace = s.aux.trace := by
  unfold chaosMove; split
  · cases m <;> simp [chaosEffect]
  · rfl

/-! ## Memory (R206, R210 to R212, R231, R230 (f)) -/

/-- DOUT writes at most its descriptor word, and only inside the region. -/
theorem doutMove_mem : (doutMove s).mem = s.mem ∨
    (s.cfg.rangeInRegion s.units.dout.desc.toNat 4 = true ∧ s.units.dout.st = .wb ∧ s.cfg.outWrback = true ∧
      (doutMove s).mem = s.mem.write32 s.units.dout.desc.toNat (s.units.dout.w0 &&& 0x7FFFFFFF)) := by
  unfold doutMove
  split
  · exact .inl rfl
  · split
    · exact .inl rfl
    · exact .inl (by simp [doutFetch])
    · left; unfold doutSend; simp only; split <;> simp
    · rename_i hst
      unfold doutEnd
      simp only
      split
      · by_cases hr : s.cfg.rangeInRegion s.units.dout.desc.toNat 4 = true
        · exact .inr ⟨hr, hst, by simp_all, by simp [dmaWriteWord_mem, hr]⟩
        · exact .inl (by simp [dmaWriteWord_mem, hr])
      · exact .inl (by simp)

/-- DIN writes at most one byte of its buffer or its descriptor word, and only inside the region. -/
theorem dinMove_mem : (dinMove s).mem = s.mem ∨
    (s.units.din.st = .recv ∧ s.units.din.k < dwSize s.units.din.w0 ∧
      s.cfg.rangeInRegion (s.units.din.buf.toNat + s.units.din.k.toNat) 1 = true ∧
      ∃ b, (dinMove s).mem = s.mem.write (s.units.din.buf.toNat + s.units.din.k.toNat) b) ∨
    (s.units.din.st = .recv ∧ s.cfg.rangeInRegion s.units.din.desc.toNat 4 = true ∧
      ∃ v, (dinMove s).mem = s.mem.write32 s.units.din.desc.toNat v) := by
  unfold dinMove
  split
  · exact .inl rfl
  · split
    · exact .inl rfl
    · exact .inl rfl
    · exact .inl (by simp [dinFetch])
    · rename_i hst
      split
      · unfold dinReceive
        simp only
        split
        · by_cases hr : s.cfg.rangeInRegion (s.units.din.buf.toNat + s.units.din.k.toNat) 1 = true
          · exact .inr (.inl ⟨hst, by assumption, hr, _, by simp [dmaWriteByte_mem, hr]; rfl⟩)
          · exact .inl (by simp [dmaWriteByte_mem, hr])
        · exact .inl rfl
      · split
        · by_cases hr : s.cfg.rangeInRegion s.units.din.desc.toNat 4 = true
          · exact .inr (.inr ⟨hst, hr, _, by simp [dinSuccess, dmaWriteWord_mem, hr]; rfl⟩)
          · exact .inl (by simp [dinSuccess, dmaWriteWord_mem, hr])
        · exact .inl rfl

theorem dinErrorMove_mem : (dinErrorMove s).mem = s.mem ∨
    (s.cfg.rangeInRegion s.units.din.desc.toNat 4 = true ∧
      ∃ v, (dinErrorMove s).mem = s.mem.write32 s.units.din.desc.toNat v) := by
  unfold dinErrorMove
  split
  · by_cases hr : s.cfg.rangeInRegion s.units.din.desc.toNat 4 = true
    · exact .inr ⟨hr, _, by simp [dinFail, dmaWriteWord_mem, hr]; rfl⟩
    · exact .inl (by simp [dinFail, dmaWriteWord_mem, hr])
  · exact .inl rfl

@[simp] theorem aesMove_mem : (aesMove s).mem = s.mem := by
  unfold aesMove
  split <;> [rfl; (split <;> [rfl; rfl; (split <;> [(split <;> rfl); (split <;> rfl)])])]

/-- A chaos move writes at most one byte of the armed buffer of DIN or its descriptor word. -/
theorem chaosMove_mem (m : ChaosMove) : (chaosMove m s).mem = s.mem ∨
    (∃ off b, off < (dwSize s.units.din.w0).toNat ∧ s.cfg.rangeInRegion (s.units.din.buf.toNat + off) 1 = true ∧
      (chaosMove m s).mem = s.mem.write (s.units.din.buf.toNat + off) b) ∨
    (s.cfg.rangeInRegion s.units.din.desc.toNat 4 = true ∧
      ∃ v, (chaosMove m s).mem = s.mem.write32 s.units.din.desc.toNat v) := by
  unfold chaosMove
  split
  · rename_i h
    simp only [Bool.and_eq_true] at h
    cases m with
    | dinByte off b =>
      by_cases hr : s.cfg.rangeInRegion (s.units.din.buf.toNat + off) 1 = true
      · have hg := h.2
        simp only [chaosGuard, Bool.and_eq_true, decide_eq_true_eq] at hg
        exact .inr (.inl ⟨off, b, hg.2, hr, by simp [chaosEffect, dmaWriteByte_mem, hr]⟩)
      · exact .inl (by simp [chaosEffect, dmaWriteByte_mem, hr])
    | dinWord w =>
      by_cases hr : s.cfg.rangeInRegion s.units.din.desc.toNat 4 = true
      · exact .inr (.inr ⟨hr, w, by simp [chaosEffect, dmaWriteWord_mem, hr]⟩)
      · exact .inl (by simp [chaosEffect, dmaWriteWord_mem, hr])
    | aesState st => exact .inl rfl
    | aesQin q => exact .inl rfl
    | aesQout q => exact .inl rfl
    | doutStop => exact .inl rfl
  · exact .inl rfl

/-! ## The region -/

/-- The first byte of a range inside the region lies in it, and the range inside the 32-bit space (R8). -/
theorem rangeInRegion_mem (p : Params) (a n j : Nat) (h : p.rangeInRegion a n = true) (hj : j < n) :
    p.inRegion (a + j) = true := by
  simp only [Params.rangeInRegion, List.all_eq_true, List.mem_range] at h
  exact h j hj

theorem inRegion_lt (p : Params) (a : Nat) (hw : p.regionInSpace = true) (h : p.inRegion a = true) : a < 2 ^ 32 := by
  simp only [Params.inRegion, List.any_eq_true] at h
  obtain ⟨r, hr, h⟩ := h
  simp only [Params.regionInSpace, List.all_eq_true, decide_eq_true_eq] at hw
  have := hw r hr
  simp only [Bool.and_eq_true, decide_eq_true_eq] at h
  omega

theorem rangeInRegion_lt (p : Params) (a n : Nat) (hw : p.regionInSpace = true) (h : p.rangeInRegion a (n + 1) = true) :
    a + n < 2 ^ 32 :=
  inRegion_lt p _ hw (rangeInRegion_mem p a (n + 1) n h (by omega))

end Sys2Proof.Machine
end

