-- ==== Sys2Proof/Laws/Bits.lean ====
section
/-! SUPPORT. Bits of a word, and the packing of bytes and descriptor fields into words. -/

namespace Sys2Proof.Machine

@[simp] theorem bitOf_and (v w : Word) (n : Fin 32) : bitOf (v &&& w) n = (bitOf v n && bitOf w n) := by simp [bitOf]
@[simp] theorem bitOf_or (v w : Word) (n : Fin 32) : bitOf (v ||| w) n = (bitOf v n || bitOf w n) := by simp [bitOf]
@[simp] theorem bitOf_not (v : Word) (n : Fin 32) : bitOf (~~~v) n = !bitOf v n := by simp [bitOf]

theorem bitOf_bitMask (m n : Fin 32) : bitOf (bitMask m) n = decide (m = n) := by
  revert m n; decide

@[simp] theorem bitOf_bitMask_same (n : Fin 32) : bitOf (bitMask n) n = true := by simp [bitOf_bitMask]

/-- A bit masked off is 0. -/
theorem bitOf_clear (v : Word) (n : Fin 32) : bitOf (v &&& ~~~bitMask n) n = false := by simp

/-- Masking off a bit that is 0 changes nothing. -/
theorem and_not_bitMask (v : Word) (n : Fin 32) (h : bitOf v n = false) : v &&& ~~~bitMask n = v := by
  apply BitVec.eq_of_getLsbD_eq
  intro i hi
  have hb : (bitMask n).getLsbD i = decide (n = ⟨i, hi⟩) := bitOf_bitMask n ⟨i, hi⟩
  simp only [BitVec.getLsbD_and, BitVec.getLsbD_not, hb, hi, decide_true, Bool.true_and]
  by_cases hn : n = ⟨i, hi⟩
  · have : v.getLsbD i = false := by simpa [bitOf, hn] using h
    simp [this]
  · simp [hn]

/-- Setting a bit and masking it off again leaves a word whose bit was 0. -/
theorem or_and_not_bitMask (v : Word) (n : Fin 32) (h : bitOf v n = false) :
    (v ||| bitMask n) &&& ~~~bitMask n = v := by
  have : (v ||| bitMask n) &&& ~~~bitMask n = v &&& ~~~bitMask n := by
    ext i hi; simp [Bool.and_or_distrib_right]
  rw [this, and_not_bitMask v n h]

/-! ## Descriptor words and blocks -/

theorem flagBit_getElem (b : Bool) (n i : Nat) (hi : i < 32) (_hn : n < 32) : (flagBit b n)[i] = (b && decide (i = n)) := by
  cases b <;> simp [flagBit]
  by_cases h : i = n
  · simp [h]
  · simp [h]; omega

/-- The fields of a packed descriptor word (00_scope.md R14). -/
theorem dwSize_dw0 (size length : BitVec 12) (e f o : Bool) : dwSize (dw0 size length e f o) = size := by
  apply BitVec.eq_of_getLsbD_eq; intro i hi
  have h2 : ¬ i = 28 := by omega
  have h3 : ¬ i = 30 := by omega
  have h4 : ¬ i = 31 := by omega
  simp [dwSize, dw0, flagBit_getElem, show i < 32 by omega, hi, h2, h3, h4]

theorem dwLength_dw0 (size length : BitVec 12) (e f o : Bool) : dwLength (dw0 size length e f o) = length := by
  apply BitVec.eq_of_getLsbD_eq; intro i hi
  have h2 : ¬ 12 + i = 28 := by omega
  have h3 : ¬ 12 + i = 30 := by omega
  have h4 : ¬ 12 + i = 31 := by omega
  simp [dwLength, dw0, flagBit_getElem, show 12 + i < 32 by omega, hi, h2, h3, h4]

theorem dwErrEof_dw0 (size length : BitVec 12) (e f o : Bool) : dwErrEof (dw0 size length e f o) = e := by
  simp [dwErrEof, dw0, flagBit_getElem, BitVec.getLsbD_of_ge]

theorem dwSucEof_dw0 (size length : BitVec 12) (e f o : Bool) : dwSucEof (dw0 size length e f o) = f := by
  simp [dwSucEof, dw0, flagBit_getElem, BitVec.getLsbD_of_ge]

theorem dwOwner_dw0 (size length : BitVec 12) (e f o : Bool) : dwOwner (dw0 size length e f o) = o := by
  simp [dwOwner, dw0, flagBit_getElem, BitVec.getLsbD_of_ge]

/-- 40_descriptor.md R110: the byte length of a run. -/
theorem descLength_toNat (w : Word) : (descLength w).toNat = 16 * (w.toNat % 256) := by
  simp [descLength]; omega

theorem byteOf_le32 (b0 b1 b2 b3 : Byte) : byteOf (le32 b0 b1 b2 b3) 0 = b0 ∧ byteOf (le32 b0 b1 b2 b3) 1 = b1 ∧
    byteOf (le32 b0 b1 b2 b3) 2 = b2 ∧ byteOf (le32 b0 b1 b2 b3) 3 = b3 := by
  refine ⟨?_, ?_, ?_, ?_⟩ <;> apply BitVec.eq_of_getLsbD_eq <;> intro i hi <;>
    simp only [byteOf, le32, BitVec.getLsbD_extractLsb', BitVec.getLsbD_append]
  · simp [hi]
  · simp [hi, show ¬ 8 + i < 8 by omega]
  · simp [hi, show ¬ 16 + i < 8 by omega, show 16 + i - 8 - 8 = i by omega, show ¬ 16 + i - 8 < 8 by omega]
  · simp [hi, show ¬ 24 + i < 8 by omega, show ¬ 24 + i - 8 < 8 by omega, show ¬ 24 + i - 8 - 8 < 8 by omega,
      show 24 + i - 8 - 8 - 8 = i by omega]

/-- The block of a block's four words (20_memory.md R62). -/
theorem blockOfWords_blockWord (b : Block) :
    blockOfWords (blockWord b 0) (blockWord b 1) (blockWord b 2) (blockWord b 3) = b := by
  apply Vector.ext
  intro i hi
  interval_cases i <;> simp [blockOfWords, blockWord, byteOf_le32]

end Sys2Proof.Machine
end

