-- ==== Sys2Proof/Laws/Effects.lean ====
section
/-! SUPPORT. What a write of each register with a side effect does to the agents and to `s.chaos` (44_autonomous_units.md R201):
one lemma for the agents and one for the control fields, for a write and for a read-modify-write. -/

namespace Sys2Proof.Machine

variable (s : State)

/-- The state a register write leaves before its side effect: the value stored, and the chaos check made. -/
def stored (r : PReg) (v : Word) (s : State) : State :=
  chaosIf (writeChaos r s) ((logBus (.write (regGet s.cfg.addr.stored r).toNat v) s).setPer
    (regSet s.per r (storedValue s.cfg r v)))

theorem regWrite_eq_stored (r : PReg) (v : Word) : regWrite r v s = sideEffect r v (stored r v s) := by
  have h := writeChaos_store s r (storedValue s.cfg r v) (.write (regGet s.cfg.addr.stored r).toNat v)
  simp only [regWrite, stored, logBus_cfg, logBus_per, h]

@[simp] theorem stored_cfg (r : PReg) (v : Word) : (stored r v s).cfg = s.cfg := by simp [stored]
@[simp] theorem stored_units (r : PReg) (v : Word) : (stored r v s).units = s.units := by simp [stored]
@[simp] theorem stored_per (r : PReg) (v : Word) : (stored r v s).per = regSet s.per r (storedValue s.cfg r v) := by
  simp [stored]
@[simp] theorem stored_ctl (r : PReg) (v : Word) :
    (stored r v s).ctl = { s.ctl with chaos := s.ctl.chaos || writeChaos r s } := by simp [stored]

/-- A write of a register other than the clock and reset registers does not change what is held in reset. -/
theorem stored_dmaHeld (r : PReg) (v : Word) (h : r ≠ .sysRstEn) : dmaHeld (stored r v s) = dmaHeld s := by
  cases r <;> simp_all [dmaHeld, regSet]

theorem stored_aesHeld (r : PReg) (v : Word) (h : r ≠ .sysRstEn) : aesHeld (stored r v s) = aesHeld s := by
  cases r <;> simp_all [aesHeld, regSet]

/-! ## Chaos conditions of a write (R230 (a), (h)) -/

theorem writeChaos_dma (r : PReg) (h : isDmaReg r = true) : writeChaos r s = dmaGated s := by
  cases r <;> simp_all [isDmaReg, writeChaos, isAesReg, regGated]

@[simp] theorem writeChaos_inConf0 : writeChaos .dmaInConf0 s = dmaGated s := writeChaos_dma s _ rfl
@[simp] theorem writeChaos_outConf0 : writeChaos .dmaOutConf0 s = dmaGated s := writeChaos_dma s _ rfl
@[simp] theorem writeChaos_inLink : writeChaos .dmaInLink s = dmaGated s := writeChaos_dma s _ rfl
@[simp] theorem writeChaos_outLink : writeChaos .dmaOutLink s = dmaGated s := writeChaos_dma s _ rfl

theorem writeChaos_aes (r : PReg) (h : isAesReg r = true) (h' : r ≠ .aesDmaExit) :
    writeChaos r s = (s.units.aes.st != .idle || aesGated s) := by
  cases r <;> first | rfl | exact absurd h (by decide) | exact absurd rfl h'

theorem writeChaos_exit : writeChaos .aesDmaExit s = aesGated s := by
  simp [isDmaReg, writeChaos, isAesReg, regGated]

theorem writeChaos_sys (r : PReg) (h : r = .sysClkEn ∨ r = .sysRstEn) : writeChaos r s = false := by
  rcases h with rfl | rfl <;> simp [isDmaReg, writeChaos, isAesReg, regGated]

/-! ## Sub-channel resets (R202, R207) -/

theorem regWrite_inConf0_units (v : Word) :
    (regWrite .dmaInConf0 v s).units = if bitOf v s.cfg.bits.inRst then dinReset s.units else s.units := by
  simp only [regWrite_eq_stored, sideEffect, stored_cfg]
  split <;> simp

theorem regWrite_inConf0_ctl (v : Word) :
    (regWrite .dmaInConf0 v s).ctl = { s.ctl with chaos := s.ctl.chaos || dmaGated s } := by
  simp only [regWrite_eq_stored, sideEffect]
  split <;> simp

theorem regWrite_outConf0_units (v : Word) :
    (regWrite .dmaOutConf0 v s).units = if bitOf v s.cfg.bits.outRst then doutReset s.units else s.units := by
  simp only [regWrite_eq_stored, sideEffect, stored_cfg]
  split <;> simp

theorem regWrite_outConf0_ctl (v : Word) :
    (regWrite .dmaOutConf0 v s).ctl = { s.ctl with chaos := s.ctl.chaos || dmaGated s } := by
  simp only [regWrite_eq_stored, sideEffect]
  split <;> simp

/-! ## Sub-channel starts (R203, R208) -/

theorem regWrite_inLink_units (v : Word) :
    (regWrite .dmaInLink v s).units =
      if bitOf v s.cfg.bits.inStart && !dmaHeld s && s.units.din.st == .idle && selectsAes s.cfg s.per.dmaInPeriSel then
        { s.units with din := { s.units.din with desc := linkAddr s.cfg v, st := .fetch } }
      else s.units := by
  simp only [regWrite_eq_stored, sideEffect, stored_dmaHeld _ _ _ (by decide : PReg.dmaInLink ≠ .sysRstEn), stored_cfg]
  by_cases h1 : bitOf v s.cfg.bits.inStart && !dmaHeld s
  · simp only [h1, if_true, Bool.true_and, dinStart, stored_units, stored_cfg, stored_per, regSet]
    by_cases h2 : s.units.din.st = .idle
    · by_cases h3 : selectsAes s.cfg s.per.dmaInPeriSel = true <;> simp [h2, h3]
    · simp [h2]
  · simp [h1]

theorem regWrite_inLink_ctl (v : Word) :
    (regWrite .dmaInLink v s).ctl = { s.ctl with chaos := s.ctl.chaos || dmaGated s ||
      (bitOf v s.cfg.bits.inStart && !dmaHeld s && !(s.units.din.st == .idle && selectsAes s.cfg s.per.dmaInPeriSel)) } := by
  simp only [regWrite_eq_stored, sideEffect, stored_dmaHeld _ _ _ (by decide : PReg.dmaInLink ≠ .sysRstEn), stored_cfg]
  by_cases h1 : bitOf v s.cfg.bits.inStart && !dmaHeld s
  · simp only [h1, if_true, Bool.true_and, dinStart, stored_units, stored_cfg, stored_per, regSet]
    by_cases h2 : s.units.din.st = .idle
    · by_cases h3 : selectsAes s.cfg s.per.dmaInPeriSel = true <;> simp [h2, h3]
    · simp [h2]
  · simp [h1]

theorem regWrite_outLink_units (v : Word) :
    (regWrite .dmaOutLink v s).units =
      if bitOf v s.cfg.bits.outStart && !dmaHeld s && s.units.dout.st == .idle && selectsAes s.cfg s.per.dmaOutPeriSel then
        { s.units with dout := { s.units.dout with desc := linkAddr s.cfg v, st := .fetch } }
      else s.units := by
  simp only [regWrite_eq_stored, sideEffect, stored_dmaHeld _ _ _ (by decide : PReg.dmaOutLink ≠ .sysRstEn), stored_cfg]
  by_cases h1 : bitOf v s.cfg.bits.outStart && !dmaHeld s
  · simp only [h1, if_true, Bool.true_and, doutStart, stored_units, stored_cfg, stored_per, regSet]
    by_cases h2 : s.units.dout.st = .idle
    · by_cases h3 : selectsAes s.cfg s.per.dmaOutPeriSel = true <;> simp [h2, h3]
    · simp [h2]
  · simp [h1]

theorem regWrite_outLink_ctl (v : Word) :
    (regWrite .dmaOutLink v s).ctl = { s.ctl with chaos := s.ctl.chaos || dmaGated s ||
      (bitOf v s.cfg.bits.outStart && !dmaHeld s &&
        !(s.units.dout.st == .idle && selectsAes s.cfg s.per.dmaOutPeriSel)) } := by
  simp only [regWrite_eq_stored, sideEffect, stored_dmaHeld _ _ _ (by decide : PReg.dmaOutLink ≠ .sysRstEn), stored_cfg]
  by_cases h1 : bitOf v s.cfg.bits.outStart && !dmaHeld s
  · simp only [h1, if_true, Bool.true_and, doutStart, stored_units, stored_cfg, stored_per, regSet]
    by_cases h2 : s.units.dout.st = .idle
    · by_cases h3 : selectsAes s.cfg s.per.dmaOutPeriSel = true <;> simp [h2, h3]
    · simp [h2]
  · simp [h1]

/-! ## Trigger and exit (R213, R217) -/

/-- What the trigger latches. -/
def latched (p : RegTable) : Aes where
  st := .work
  key := blockOfWords p.aesKey0 p.aesKey1 p.aesKey2 p.aesKey3
  ctr := blockOfWords p.aesIv0 p.aesIv1 p.aesIv2 p.aesIv3
  n := p.aesBlockNum
  i := 0

theorem regWrite_trigger_units :
    (regWrite .aesTrigger s.cfg.vals.trigger s).units =
      if s.units.aes.st == .idle then
        { s.units with aes := if aesHeld s then s.units.aes else latched s.per, qoutEof := false }
      else s.units := by
  have hh := fun v => stored_aesHeld s .aesTrigger v (by decide)
  by_cases h1 : s.units.aes.st = .idle
  · by_cases h2 : aesHeld s = true <;>
      simp [regWrite_eq_stored, sideEffect, h1, h2, hh, chaosIf_aesHeld, aesTriggerEffect, latched, regSet]
  · simp [regWrite_eq_stored, sideEffect, h1, aesTriggerEffect]

theorem regWrite_trigger_ctl :
    (regWrite .aesTrigger s.cfg.vals.trigger s).ctl = { s.ctl with chaos := s.ctl.chaos || aesGated s ||
      s.units.aes.st != .idle || (badAesConfig s || badBlockNum s.per.aesBlockNum) } := by
  have hw : writeChaos .aesTrigger s = (s.units.aes.st != .idle || aesGated s) := writeChaos_aes _ _ rfl (by decide)
  by_cases h1 : s.units.aes.st = .idle
  · simp [regWrite_eq_stored, sideEffect, h1, aesTriggerEffect, regSet, hw, badAesConfig, Bool.or_assoc]
  · simp [regWrite_eq_stored, sideEffect, h1, aesTriggerEffect]

theorem regWrite_exit_units :
    (regWrite .aesDmaExit s.cfg.vals.dmaExit s).units =
      if s.units.aes.st != .work then { s.units with aes := { s.units.aes with st := .idle } } else s.units := by
  cases h : s.units.aes.st <;> simp [regWrite_eq_stored, sideEffect, h, aesExitEffect]
  rw [← h]

theorem regWrite_exit_ctl :
    (regWrite .aesDmaExit s.cfg.vals.dmaExit s).ctl = { s.ctl with chaos := s.ctl.chaos || aesGated s ||
      (s.units.aes.st == .work) } := by
  cases h : s.units.aes.st <;> simp [regWrite_eq_stored, sideEffect, h, aesExitEffect, writeChaos_exit]

/-! ## The reset register (R221) -/

theorem regWrite_rstEn_ctl (v : Word) : (regWrite .sysRstEn v s).ctl = s.ctl := by
  simp [regWrite_eq_stored, sideEffect, writeChaos_sys]

theorem regWrite_rstEn_units (v : Word) :
    (regWrite .sysRstEn v s).units =
      if bitOf v s.cfg.bits.dmaRst then
        dinReset (doutReset (if bitOf v s.cfg.bits.aesRst || bitOf v s.cfg.bits.dsRst then
          { s.units with aes := { s.units.aes with st := .idle } } else s.units))
      else if bitOf v s.cfg.bits.aesRst || bitOf v s.cfg.bits.dsRst then
        { s.units with aes := { s.units.aes with st := .idle } } else s.units := by
  simp [regWrite_eq_stored, sideEffect, holdReset, aesHeld, dmaHeld, regSet, storedValue]

/-! ## Read-modify-write -/

/-- What a register write reads of a state is what it reads of the state before the read into `TMP`. -/
theorem regModify_units (r : PReg) (f : Word → Word) :
    (regModify r f s).units = (regWrite r (f (regValue r s)) s).units := by
  rw [regModify_eq]
  have h : ∀ w : State, w.cfg = s.cfg → w.per = s.per → w.units = s.units → w.ctl = s.ctl →
      ∀ v, (regWrite r v w).units = (regWrite r v s).units := by
    intro w h1 h2 h3 h4 v
    by_cases hp : isPlainReg r = true
    · rw [regWrite_plain_units _ _ _ hp, regWrite_plain_units _ _ _ hp, h3]
    · have hd : dmaHeld w = dmaHeld s := by simp [dmaHeld, h1, h2]
      have ha : aesHeld w = aesHeld s := by simp [aesHeld, h1, h2]
      cases r <;> simp [isPlainReg] at hp
      · simp [regWrite_rstEn_units, h1, h3]
      · simp [regWrite_inConf0_units, h1, h3]
      · simp [regWrite_outConf0_units, h1, h3]
      · simp [regWrite_inLink_units, h1, h2, h3, hd]
      · simp [regWrite_outLink_units, h1, h2, h3, hd]
      · have hh := fun w : State => stored_aesHeld w .aesTrigger v (by decide)
        simp only [regWrite_eq_stored, sideEffect, aesTriggerEffect, stored_cfg, h1]
        split
        · simp only [stored_units, h3]
          split <;> simp [h1, h2, h3, regSet, chaosIf_aesHeld, hh, ha]
        · simp [h3]
      · simp only [regWrite_eq_stored, sideEffect, aesExitEffect, stored_cfg, h1]
        split
        · simp only [stored_units, h3]
          split <;> simp [h3]
        · simp [h3]
  exact h _ (by simp) (by simp) (by simp) (by simp) _

theorem regModify_inConf0_ctl (f : Word → Word) :
    (regModify .dmaInConf0 f s).ctl = { s.ctl with chaos := s.ctl.chaos || dmaGated s } := by
  rw [regModify_eq, regWrite_inConf0_ctl]; simp [dmaGated, dmaHeld]

theorem regModify_outConf0_ctl (f : Word → Word) :
    (regModify .dmaOutConf0 f s).ctl = { s.ctl with chaos := s.ctl.chaos || dmaGated s } := by
  rw [regModify_eq, regWrite_outConf0_ctl]; simp [dmaGated, dmaHeld]

theorem regModify_inLink_ctl (f : Word → Word) :
    (regModify .dmaInLink f s).ctl = { s.ctl with chaos := s.ctl.chaos || dmaGated s ||
      (bitOf (f (regValue .dmaInLink s)) s.cfg.bits.inStart && !dmaHeld s &&
        !(s.units.din.st == .idle && selectsAes s.cfg s.per.dmaInPeriSel)) } := by
  rw [regModify_eq, regWrite_inLink_ctl]; simp [dmaGated, dmaHeld]

theorem regModify_outLink_ctl (f : Word → Word) :
    (regModify .dmaOutLink f s).ctl = { s.ctl with chaos := s.ctl.chaos || dmaGated s ||
      (bitOf (f (regValue .dmaOutLink s)) s.cfg.bits.outStart && !dmaHeld s &&
        !(s.units.dout.st == .idle && selectsAes s.cfg s.per.dmaOutPeriSel)) } := by
  rw [regModify_eq, regWrite_outLink_ctl]; simp [dmaGated, dmaHeld]

theorem regModify_rstEn_ctl (f : Word → Word) : (regModify .sysRstEn f s).ctl = s.ctl := by
  rw [regModify_eq, regWrite_rstEn_ctl]; simp

end Sys2Proof.Machine
end

