-- ==== Sys2Proof/Laws/Memory.lean ====
section
/-! SUPPORT. The laws of memory: a read after a write to the same byte gives what was written, a write leaves every other
byte alone, and every memory operation keeps the canonical form. -/

namespace Sys2Proof.Machine

/-! ## Bytes of a word -/

theorem le32_byteOf (w : Word) : le32 (byteOf w 0) (byteOf w 1) (byteOf w 2) (byteOf w 3) = w := by
  apply BitVec.eq_of_getLsbD_eq
  intro i hi
  simp only [le32, byteOf, BitVec.getLsbD_append, BitVec.getLsbD_extractLsb']
  split
  · simp_all
  · split
    · have h : i - 8 < 8 := by assumption
      simp [h]; congr 1; omega
    · split
      · have h : i - 8 - 8 < 8 := by assumption
        simp [h]; congr 1; omega
      · have h : i - 8 - 8 - 8 < 8 := by omega
        simp [h]; congr 1; omega

/-! ## Reading -/

theorem Memory.read_nil (a : Nat) : Memory.read [] a = memDefault := rfl

theorem Memory.read_cons (k : Nat) (b : Byte) (m : Memory) (a : Nat) :
    Memory.read ((k, b) :: m) a = if k = a then b else Memory.read m a := rfl

theorem Memory.read_eq_default_of_not_mem (m : Memory) (a : Nat) (h : ∀ c ∈ m, c.1 ≠ a) :
    m.read a = memDefault := by
  induction m with
  | nil => rfl
  | cons c m ih =>
    obtain ⟨k, b⟩ := c
    have hk : k ≠ a := h (k, b) (by simp)
    rw [read_cons, if_neg hk]
    exact ih fun c hc => h c (by simp [hc])

theorem Memory.read_filter_of_ne (m : Memory) (a a' : Nat) (h : a' ≠ a) :
    Memory.read (m.filter fun c => c.1 != a) a' = m.read a' := by
  induction m with
  | nil => rfl
  | cons c m ih =>
    obtain ⟨k, b⟩ := c
    by_cases hk : k = a
    · subst hk
      simp [read_cons, ih, Ne.symm h]
    · simp [hk, read_cons, ih]

theorem Memory.read_place (m : Memory) (a : Nat) (b : Byte) (hm : ∀ c ∈ m, c.1 ≠ a) (a' : Nat) :
    (m.place a b).read a' = if a' = a then b else m.read a' := by
  induction m with
  | nil =>
    by_cases hb : b = memDefault
    · by_cases h : a' = a <;> simp [place, hb, h, read_nil]
    · by_cases h : a' = a
      · simp [place, hb, h, read_cons]
      · simp [place, hb, h, read_cons, read_nil, Ne.symm h]
  | cons c m ih =>
    obtain ⟨k, d⟩ := c
    have hk : k ≠ a := hm (k, d) (by simp)
    have ih := ih fun c hc => hm c (by simp [hc])
    unfold place
    split
    · split
      · rename_i hb
        by_cases h : a' = a
        · subst h; simp [hb, read_eq_default_of_not_mem _ _ hm]
        · simp [h]
      · by_cases h : a' = a
        · simp [read_cons, h]
        · simp [read_cons, h, Ne.symm h]
    · by_cases h : a' = a
      · subst h; simp [read_cons, hk, ih]
      · simp [read_cons, ih, h]

/-- A write changes the byte at its address and no other. -/
theorem Memory.read_write (m : Memory) (a : Nat) (b : Byte) (a' : Nat) :
    (m.write a b).read a' = if a' = a then b else m.read a' := by
  unfold Memory.write
  rw [read_place _ _ _ (by simp)]
  by_cases h : a' = a
  · simp [h]
  · simp [h, read_filter_of_ne]

theorem Memory.read_write_same (m : Memory) (a : Nat) (b : Byte) : (m.write a b).read a = b := by
  simp [read_write]

theorem Memory.read_write_of_ne (m : Memory) (a : Nat) (b : Byte) (a' : Nat) (h : a' ≠ a) :
    (m.write a b).read a' = m.read a' := by
  simp [read_write, h]

/-- A word write leaves every byte outside its four bytes alone. -/
theorem Memory.read_write32_outside (m : Memory) (a : Nat) (v : Word) (a' : Nat) (h : a' < a ∨ a + 4 ≤ a') :
    (m.write32 a v).read a' = m.read a' := by
  unfold Memory.write32
  repeat rw [read_write_of_ne _ _ _ _ (by omega)]

/-- A word read after a word write to the same address gives the word. -/
theorem Memory.read32_write32_same (m : Memory) (a : Nat) (v : Word) : (m.write32 a v).read32 a = v := by
  conv_rhs => rw [← le32_byteOf v]
  simp [Memory.write32, Memory.read32, read_write]

/-- A word write elsewhere does not change a word. -/
theorem Memory.read32_write32_outside (m : Memory) (a : Nat) (v : Word) (a' : Nat) (h : a' + 4 ≤ a ∨ a + 4 ≤ a') :
    (m.write32 a v).read32 a' = m.read32 a' := by
  unfold Memory.read32
  rw [read_write32_outside _ _ _ _ (by omega), read_write32_outside _ _ _ _ (by omega),
    read_write32_outside _ _ _ _ (by omega), read_write32_outside _ _ _ _ (by omega)]

/-- A byte write outside a word does not change it. -/
theorem Memory.read32_write_outside (m : Memory) (a : Nat) (b : Byte) (a' : Nat) (h : a < a' ∨ a' + 4 ≤ a) :
    (m.write a b).read32 a' = m.read32 a' := by
  unfold Memory.read32
  rw [read_write_of_ne _ _ _ _ (by omega), read_write_of_ne _ _ _ _ (by omega),
    read_write_of_ne _ _ _ _ (by omega), read_write_of_ne _ _ _ _ (by omega)]

/-! ## The canonical form -/

theorem Memory.mem_place (m : Memory) (a : Nat) (b : Byte) (c : Host.Cell) (h : c ∈ m.place a b) :
    c ∈ m ∨ (c = (a, b) ∧ b ≠ memDefault) := by
  induction m with
  | nil =>
    unfold place at h
    split at h
    · simp at h
    · right; simp_all
  | cons d m ih =>
    obtain ⟨k, e⟩ := d
    unfold place at h
    split at h
    · split at h
      · exact .inl h
      · rcases List.mem_cons.1 h with h | h
        · exact .inr ⟨h, ‹_›⟩
        · exact .inl h
    · rcases List.mem_cons.1 h with h | h
      · exact .inl (by simp [h])
      · rcases ih h with h | h
        · exact .inl (by simp [h])
        · exact .inr h

theorem Memory.place_sorted (m : Memory) (a : Nat) (b : Byte) (hm : ∀ c ∈ m, c.1 ≠ a)
    (hs : m.Pairwise fun p q => p.1 < q.1) : (m.place a b).Pairwise fun p q => p.1 < q.1 := by
  induction m with
  | nil => unfold place; split <;> simp
  | cons d m ih =>
    obtain ⟨k, e⟩ := d
    have hk : k ≠ a := hm (k, e) (by simp)
    have hcons := List.pairwise_cons.1 hs
    unfold place
    split
    · split
      · exact hs
      · rename_i hak _
        refine List.pairwise_cons.2 ⟨fun c hc => ?_, hs⟩
        rcases List.mem_cons.1 hc with h | h
        · simp [h, hak]
        · exact Nat.lt_trans hak (hcons.1 c h)
    · refine List.pairwise_cons.2 ⟨fun c hc => ?_, ih (fun c hc => hm c (by simp [hc])) hcons.2⟩
      rcases mem_place _ _ _ _ hc with h | h
      · exact hcons.1 c h
      · simp [h.1]; omega

/-- A byte write keeps the canonical form. -/
theorem Memory.write_wf (m : Memory) (a : Nat) (b : Byte) (h : m.wf) : (m.write a b).wf := by
  refine ⟨place_sorted _ _ _ (by simp) (h.1.filter _), fun c hc => ?_⟩
  rcases mem_place _ _ _ _ hc with h' | h'
  · exact h.2 c (List.mem_filter.1 h').1
  · simp [h'.1, h'.2]

/-- A word write keeps the canonical form. -/
theorem Memory.write32_wf (m : Memory) (a : Nat) (v : Word) (h : m.wf) : (m.write32 a v).wf := by
  unfold Memory.write32
  exact write_wf _ _ _ (write_wf _ _ _ (write_wf _ _ _ (write_wf _ _ _ h)))

/-- A memory built from any cells is in canonical form. -/
theorem Memory.ofCells_wf (l : List Host.Cell) : (Memory.ofCells l).wf := by
  induction l with
  | nil => exact ⟨List.Pairwise.nil, by simp [Memory.ofCells]⟩
  | cons c l ih =>
    obtain ⟨a, b⟩ := c
    unfold Memory.ofCells
    split
    · exact write_wf _ _ _ ih
    · exact ih

theorem Memory.write_inSpace (m : Memory) (a : Nat) (b : Byte) (h : m.inSpace) (ha : a < 2 ^ 32) :
    (m.write a b).inSpace := by
  intro c hc
  rcases mem_place _ _ _ _ hc with h' | h'
  · exact h c (List.mem_filter.1 h').1
  · simp only [h'.1]; exact ha

theorem Memory.write32_inSpace (m : Memory) (a : Nat) (v : Word) (h : m.inSpace) (ha : a + 4 ≤ 2 ^ 32) :
    (m.write32 a v).inSpace := by
  unfold Memory.write32
  exact write_inSpace _ _ _ (write_inSpace _ _ _ (write_inSpace _ _ _ (write_inSpace _ _ _ h (by omega)) (by omega))
    (by omega)) (by omega)

theorem Memory.ofCells_inSpace (l : List Host.Cell) : (Memory.ofCells l).inSpace := by
  induction l with
  | nil => intro c hc; simp [Memory.ofCells] at hc
  | cons c l ih =>
    obtain ⟨a, b⟩ := c
    unfold Memory.ofCells
    split
    · exact write_inSpace _ _ _ ih ‹_›
    · exact ih

end Sys2Proof.Machine
end

