-- ==== Sys2Proof/Laws/Micro.lean ====
section
/-! SUPPORT. What every micro-op leaves unchanged and what it can change, said once over all of them: later proofs cite these
and do not unfold the meanings. -/

namespace Sys2Proof.Machine

variable (s : State)

@[simp] theorem pollMiss_cfg (n : BitVec 2) : (pollMiss n s).cfg = s.cfg := by
  unfold pollMiss; split <;> [rfl; (simp only; split <;> simp)]
@[simp] theorem pollMiss_rom (n : BitVec 2) : (pollMiss n s).rom = s.rom := by
  unfold pollMiss; split <;> [rfl; (simp only; split <;> simp)]
@[simp] theorem pollMiss_per (n : BitVec 2) : (pollMiss n s).per = s.per := by
  unfold pollMiss; split <;> [rfl; (simp only; split <;> simp)]
@[simp] theorem pollMiss_units (n : BitVec 2) : (pollMiss n s).units = s.units := by
  unfold pollMiss; split <;> [rfl; (simp only; split <;> simp)]
@[simp] theorem pollMiss_mem (n : BitVec 2) : (pollMiss n s).mem = s.mem := by
  unfold pollMiss; split <;> [rfl; (simp only; split <;> simp)]
@[simp] theorem pollMiss_aux (n : BitVec 2) : (pollMiss n s).aux = s.aux := by
  unfold pollMiss; split <;> [rfl; (simp only; split <;> simp)]

/-- A micro-op never stops the machine. -/
theorem exec_next (i : Instr) : ∃ t, exec i s = .next t := by cases i <;> exact ⟨_, rfl⟩

variable {s}
variable {i : Instr} {t : State}

/-- The outcomes of `chk.len` (R173). -/
theorem execChkLen_cases (h : execChkLen s = .next t) : ∃ r, (r = s ∨ r = noteRead .bc s) ∧
    ((t = endRun r ∧ s.cfg.checks.checkZero = true ∧ s.xval .bc = 0) ∨
      (t = takeException .invalidLength 0 r ∧ s.cfg.checks.checkLength = true ∧ 255 < (s.xval .bc).toNat) ∨
      (t = advance r ∧ ¬(s.cfg.checks.checkZero = true ∧ s.xval .bc = 0) ∧
        ¬(s.cfg.checks.checkLength = true ∧ 255 < (s.xval .bc).toNat))) := by
  unfold execChkLen at h
  injection h with h
  refine ⟨if s.cfg.checks.checkZero || s.cfg.checks.checkLength then noteRead .bc s else s, by split <;> simp, ?_⟩
  simp only at h
  split at h
  · exact .inl ⟨h.symm, by simp_all⟩
  · split at h
    · exact .inr (.inl ⟨h.symm, by simp_all⟩)
    · exact .inr (.inr ⟨h.symm, by simp_all⟩)

/-- The outcomes of `chk.dma` (R178). -/
theorem execChkDma_cases (h : execChkDma s = .next t) : ∃ r, (r = s ∨ r = noteRead .dw0 s) ∧
    ((t = takeException .dmaFault 1 r ∧ s.cfg.checks.checkErrEof = true ∧ dwErrEof (s.xval .dw0) = true) ∨
      (t = takeException .dmaFault 2 (fifoStatusRead r) ∧ s.cfg.checks.fifoCheck = true ∧ fifoFaultSeen r = true) ∨
      (t = advance (enterState .done (fifoStatusRead r)) ∧ s.cfg.checks.fifoCheck = true ∧
        ¬(s.cfg.checks.checkErrEof = true ∧ dwErrEof (s.xval .dw0) = true)) ∨
      (t = advance (enterState .done r) ∧ s.cfg.checks.fifoCheck = false ∧
        ¬(s.cfg.checks.checkErrEof = true ∧ dwErrEof (s.xval .dw0) = true))) := by
  unfold execChkDma at h
  injection h with h
  refine ⟨if s.cfg.checks.checkErrEof then noteRead .dw0 s else s, by split <;> simp, ?_⟩
  simp only at h
  generalize (if s.cfg.checks.checkErrEof = true then noteRead .dw0 s else s) = r at h ⊢
  split at h
  · exact .inl ⟨h.symm, by simp_all⟩
  · split at h
    · split at h
      · exact .inr (.inl ⟨h.symm, by assumption, by assumption⟩)
      · exact .inr (.inr (.inl ⟨h.symm, by assumption, by simp_all⟩))
    · exact .inr (.inr (.inr ⟨h.symm, by simp_all⟩))

/-- The outcomes of a failed poll read (R176, R177). -/
theorem pollMiss_cases (n : BitVec 2) (s : State) :
    (s.cfg.checks.pollLimit = .unbounded ∧ pollMiss n s = s) ∨
      ∃ N, s.cfg.checks.pollLimit = .bounded N ∧
        ((s.xval .pollcnt + 1 = N ∧ pollMiss n s =
            takeException .hardwareTimeout n (writeX .pollcnt (s.xval .pollcnt + 1) (noteRead .pollcnt s))) ∨
          (s.xval .pollcnt + 1 ≠ N ∧ pollMiss n s = writeX .pollcnt (s.xval .pollcnt + 1) (noteRead .pollcnt s))) := by
  unfold pollMiss
  split
  · exact .inl ⟨by assumption, rfl⟩
  · rename_i N hN
    refine .inr ⟨N, hN, ?_⟩
    simp only [writeX_xval_same]
    by_cases hc : s.xval .pollcnt + 1 = N
    · exact .inl ⟨hc, if_pos hc⟩
    · exact .inr ⟨hc, if_neg hc⟩

/-- The outcomes of `poll.aes` (R176). -/
theorem execPollAes_cases (h : execPollAes s = .next t) :
    (aesStateValue s = s.cfg.vals.stateDone ∧ t = advance (enterState .awaitingDma (writeX .pollcnt 0 (aesStateRead s)))) ∨
      (aesStateValue s ≠ s.cfg.vals.stateDone ∧ t = pollMiss 1 (aesStateRead s)) := by
  unfold execPollAes at h
  injection h with h
  split at h
  · exact .inl ⟨by assumption, h.symm⟩
  · exact .inr ⟨by assumption, h.symm⟩

/-- The outcomes of `poll.desc` (R177). -/
theorem execPollDesc_cases (h : execPollDesc s = .next t) :
    ((descDone s.cfg (s.mem.read32 s.cfg.descIn.toNat) || descFaultSeen s.cfg (s.mem.read32 s.cfg.descIn.toNat)) = true ∧
        t = advance (writeX .pollcnt 0 (writeX .dw0 (s.mem.read32 s.cfg.descIn.toNat)
          (seqMemRead s.cfg.descIn.toNat s)))) ∨
      ((descDone s.cfg (s.mem.read32 s.cfg.descIn.toNat) || descFaultSeen s.cfg (s.mem.read32 s.cfg.descIn.toNat)) = false ∧
        t = pollMiss 2 (seqMemRead s.cfg.descIn.toNat s)) := by
  unfold execPollDesc at h
  injection h with h
  split at h
  · exact .inl ⟨by assumption, h.symm⟩
  · exact .inr ⟨by simp_all, h.symm⟩

/-- The outcome of `aes.key i` (R154). -/
theorem execAesKey_cases (n : Nat) (h : execAesKey n s = .next t) :
    (n % 4 = 3 ∧ t = advance (enterState .keyProgrammed (regWrite (keyReg n) (s.xval (keyX n)) (noteRead (keyX n) s)))) ∨
      (n % 4 ≠ 3 ∧ t = advance (regWrite (keyReg n) (s.xval (keyX n)) (noteRead (keyX n) s))) := by
  unfold execAesKey at h
  injection h with h
  split at h
  · exact .inl ⟨by assumption, h.symm⟩
  · exact .inr ⟨by assumption, h.symm⟩

/-- R30, R95: a micro-op changes neither the parameters nor the ROM. -/
theorem exec_fixed (h : exec i s = .next t) : t.cfg = s.cfg ∧ t.rom = s.rom := by
  cases i <;> simp only [exec] at h
  case chkLen => obtain ⟨r, rfl | rfl, ⟨rfl, _⟩ | ⟨rfl, _⟩ | ⟨rfl, _⟩⟩ := execChkLen_cases h <;> simp
  case chkDma => obtain ⟨r, rfl | rfl, ⟨rfl, _⟩ | ⟨rfl, _⟩ | ⟨rfl, _⟩ | ⟨rfl, _⟩⟩ := execChkDma_cases h <;> simp
  case aesKey n => obtain ⟨_, rfl⟩ | ⟨_, rfl⟩ := execAesKey_cases n h <;> simp
  case pollAes => obtain ⟨_, rfl⟩ | ⟨_, rfl⟩ := execPollAes_cases h <;> simp
  case pollDesc => obtain ⟨_, rfl⟩ | ⟨_, rfl⟩ := execPollDesc_cases h <;> simp
  all_goals cases h; simp

/-! ## Frames over all micro-ops -/

/-- A micro-op writes at most the register of its row (R93). -/
theorem exec_reg (h : exec i s = .next t) (r : PReg) (hr : writtenReg i ≠ some r) : regGet t.per r = regGet s.per r := by
  cases i <;> simp only [exec] at h
  case chkLen => obtain ⟨r, rfl | rfl, ⟨rfl, _⟩ | ⟨rfl, _⟩ | ⟨rfl, _⟩⟩ := execChkLen_cases h <;> simp
  case chkDma => obtain ⟨r, rfl | rfl, ⟨rfl, _⟩ | ⟨rfl, _⟩ | ⟨rfl, _⟩ | ⟨rfl, _⟩⟩ := execChkDma_cases h <;> simp
  case aesKey n =>
    have hr : r ≠ keyReg n := by simpa [writtenReg, eq_comm] using hr
    obtain ⟨_, rfl⟩ | ⟨_, rfl⟩ := execAesKey_cases n h <;> simp [regGet_regSet_of_ne _ _ _ _ hr]
  case pollAes => obtain ⟨_, rfl⟩ | ⟨_, rfl⟩ := execPollAes_cases h <;> simp
  case pollDesc => obtain ⟨_, rfl⟩ | ⟨_, rfl⟩ := execPollDesc_cases h <;> simp
  all_goals
    cases h
    first
      | (simp; done)
      | (have hr : r ≠ _ := fun hh => hr (by rw [hh]; rfl)
         simp [regGet_regSet_of_ne _ _ _ _ hr])

/-- The words a `dsc` micro-op stores, by their byte addresses (R111 to R116). -/
def storedWord (i : Instr) (cfg : Params) : Option Nat :=
  match i with
  | .dscOutW0 => some cfg.descOut.toNat
  | .dscOutW1 => some (cfg.descOut.toNat + 4)
  | .dscOutW2 => some (cfg.descOut.toNat + 8)
  | .dscInW0 => some cfg.descIn.toNat
  | .dscInW1 => some (cfg.descIn.toNat + 4)
  | .dscInW2 => some (cfg.descIn.toNat + 8)
  | _ => none

/-- A micro-op stores at most the descriptor word of its row. -/
theorem exec_mem (h : exec i s = .next t) :
    (storedWord i s.cfg = none ∧ t.mem = s.mem) ∨ ∃ a v, storedWord i s.cfg = some a ∧ t.mem = s.mem.write32 a v := by
  cases i <;> simp only [exec] at h
  case chkLen => obtain ⟨r, rfl | rfl, ⟨rfl, _⟩ | ⟨rfl, _⟩ | ⟨rfl, _⟩⟩ := execChkLen_cases h <;> simp [storedWord]
  case chkDma =>
    obtain ⟨r, rfl | rfl, ⟨rfl, _⟩ | ⟨rfl, _⟩ | ⟨rfl, _⟩ | ⟨rfl, _⟩⟩ := execChkDma_cases h <;> simp [storedWord]
  case aesKey n => obtain ⟨_, rfl⟩ | ⟨_, rfl⟩ := execAesKey_cases n h <;> simp [storedWord]
  case pollAes => obtain ⟨_, rfl⟩ | ⟨_, rfl⟩ := execPollAes_cases h <;> simp [storedWord]
  case pollDesc => obtain ⟨_, rfl⟩ | ⟨_, rfl⟩ := execPollDesc_cases h <;> simp [storedWord]
  all_goals
    cases h
    first
      | exact .inl ⟨rfl, by simp⟩
      | exact .inr ⟨_, _, rfl, by simp; rfl⟩

/-- Of the session registers a micro-op writes at most `POLLCNT`, `DW0` and `TMP` (R93). -/
theorem exec_x (h : exec i s = .next t) (r : XReg) (hr : r ≠ .pollcnt ∧ r ≠ .dw0 ∧ r ≠ .tmp) :
    t.x.get r = s.x.get r := by
  obtain ⟨h1, h2, h3⟩ := hr
  cases i <;> simp only [exec] at h
  case chkLen => obtain ⟨r, rfl | rfl, ⟨rfl, _⟩ | ⟨rfl, _⟩ | ⟨rfl, _⟩⟩ := execChkLen_cases h <;> simp
  case chkDma => obtain ⟨r, rfl | rfl, ⟨rfl, _⟩ | ⟨rfl, _⟩ | ⟨rfl, _⟩ | ⟨rfl, _⟩⟩ := execChkDma_cases h <;> simp
  case aesKey n => obtain ⟨_, rfl⟩ | ⟨_, rfl⟩ := execAesKey_cases n h <;> simp
  case pollAes =>
    obtain ⟨_, rfl⟩ | ⟨_, rfl⟩ := execPollAes_cases h
    · simp [Session.get_set_of_ne, h1]
    · obtain ⟨_, h⟩ | ⟨_, _, ⟨_, h⟩ | ⟨_, h⟩⟩ := pollMiss_cases 1 (aesStateRead s) <;>
        rw [h] <;> simp [Session.get_set_of_ne, h1]
  case pollDesc =>
    obtain ⟨_, rfl⟩ | ⟨_, rfl⟩ := execPollDesc_cases h
    · simp [Session.get_set_of_ne, h1, h2]
    · obtain ⟨_, h⟩ | ⟨_, _, ⟨_, h⟩ | ⟨_, h⟩⟩ := pollMiss_cases 2 (seqMemRead s.cfg.descIn.toNat s) <;>
        rw [h] <;> simp [Session.get_set_of_ne, h1]
  all_goals
    cases h
    first
      | (simp; done)
      | simp [Session.get_set_of_ne, h3]

/-- R22: a session register once written stays written. -/
theorem exec_written (h : exec i s = .next t) (r : XReg) (hr : (s.x.get r).written = true) :
    (t.x.get r).written = true := by
  have key : ∀ (x : Session) (q : XReg) (v : Word), (x.get r).written = true → ((x.set q ⟨v, true⟩).get r).written = true := by
    intro x q v hx
    rw [Session.get_set]; split <;> simp [hx]
  cases i <;> simp only [exec] at h
  case chkLen => obtain ⟨r, rfl | rfl, ⟨rfl, _⟩ | ⟨rfl, _⟩ | ⟨rfl, _⟩⟩ := execChkLen_cases h <;> simp [hr]
  case chkDma => obtain ⟨r, rfl | rfl, ⟨rfl, _⟩ | ⟨rfl, _⟩ | ⟨rfl, _⟩ | ⟨rfl, _⟩⟩ := execChkDma_cases h <;> simp [hr]
  case aesKey n => obtain ⟨_, rfl⟩ | ⟨_, rfl⟩ := execAesKey_cases n h <;> simp [hr]
  case pollAes =>
    obtain ⟨_, rfl⟩ | ⟨_, rfl⟩ := execPollAes_cases h
    · simp [key, hr]
    · obtain ⟨_, h⟩ | ⟨_, _, ⟨_, h⟩ | ⟨_, h⟩⟩ := pollMiss_cases 1 (aesStateRead s) <;> rw [h] <;>
        simp [key, hr]
  case pollDesc =>
    obtain ⟨_, rfl⟩ | ⟨_, rfl⟩ := execPollDesc_cases h
    · simp [key, hr]
    · obtain ⟨_, h⟩ | ⟨_, _, ⟨_, h⟩ | ⟨_, h⟩⟩ := pollMiss_cases 2 (seqMemRead s.cfg.descIn.toNat s) <;> rw [h] <;>
        simp [key, hr]
  all_goals
    cases h
    simp [key, hr]

/-- The session registers a micro-op reads before it writes them (R93, column "operands"). -/
def readRegs (i : Instr) (cfg : Params) : List XReg :=
  match i with
  | .chkLen => if cfg.checks.checkZero || cfg.checks.checkLength then [.bc] else []
  | .chkDma => if cfg.checks.checkErrEof then [.dw0] else []
  | .dscOutW0 | .dscInW0 | .aesBlknum => [.bc]
  | .dscOutW1 => [.pt]
  | .dscInW1 => [.ct]
  | .aesKey n => [keyX n]
  | .aesIv n => [ivX n]
  | .pollAes | .pollDesc => [.pollcnt]
  | _ => []

/-- R245: a micro-op adds at most `UNWRITTEN_READ` to `F`, and only where it reads a register not written since reset. -/
theorem exec_faults (h : exec i s = .next t) :
    t.faults = s.faults ∨ (t.faults = { s.faults with unwrittenRead := true } ∧
      ∃ r ∈ readRegs i s.cfg, (s.x.get r).written = false) := by
  have note : ∀ q, (noteRead q s).faults = s.faults ∨
      ((noteRead q s).faults = { s.faults with unwrittenRead := true } ∧ (s.x.get q).written = false) := by
    intro q; unfold noteRead; split <;> simp_all
  have hn : ∀ (q : XReg), q ∈ readRegs i s.cfg → t.faults = (noteRead q s).faults → t.faults = s.faults ∨
      (t.faults = { s.faults with unwrittenRead := true } ∧ ∃ r ∈ readRegs i s.cfg, (s.x.get r).written = false) := by
    intro q hq hf
    rcases note q with h | ⟨h, hw⟩
    · exact .inl (hf.trans h)
    · exact .inr ⟨hf.trans h, q, hq, hw⟩
  cases i <;> simp only [exec] at h
  case chkLen =>
    unfold execChkLen at h
    injection h with h
    by_cases hc : s.cfg.checks.checkZero = true ∨ s.cfg.checks.checkLength = true
    · refine hn .bc (by simp [readRegs, hc]) ?_
      rw [← h]; simp only [hc, Bool.or_eq_true, if_true]
      (repeat' split) <;> simp
    · left
      rw [← h]; simp only [hc, Bool.or_eq_true, if_false]
      (repeat' split) <;> simp
  case chkDma =>
    unfold execChkDma at h
    injection h with h
    by_cases hc : s.cfg.checks.checkErrEof = true
    · refine hn .dw0 (by simp [readRegs, hc]) ?_
      rw [← h]; simp only [hc, if_true]
      (repeat' split) <;> simp
    · left
      rw [← h]; simp only [hc, Bool.false_eq_true, if_false]
      (repeat' split) <;> simp
  case aesKey n =>
    refine hn (keyX n) (by simp [readRegs]) ?_
    obtain ⟨_, rfl⟩ | ⟨_, rfl⟩ := execAesKey_cases n h <;> simp
  case pollAes =>
    obtain ⟨_, rfl⟩ | ⟨_, rfl⟩ := execPollAes_cases h
    · simp
    · have hz : (noteRead .pollcnt (aesStateRead s)).faults = (noteRead .pollcnt s).faults := by
        simp [noteRead_faults]
      obtain ⟨_, h⟩ | ⟨_, _, ⟨_, h⟩ | ⟨_, h⟩⟩ := pollMiss_cases 1 (aesStateRead s)
      · rw [h]; simp
      · exact hn .pollcnt (by simp [readRegs]) (by rw [h]; simpa using hz)
      · exact hn .pollcnt (by simp [readRegs]) (by rw [h]; simpa using hz)
  case pollDesc =>
    obtain ⟨_, rfl⟩ | ⟨_, rfl⟩ := execPollDesc_cases h
    · simp
    · have hz : (noteRead .pollcnt (seqMemRead s.cfg.descIn.toNat s)).faults = (noteRead .pollcnt s).faults := by
        simp [noteRead_faults]
      obtain ⟨_, h⟩ | ⟨_, _, ⟨_, h⟩ | ⟨_, h⟩⟩ := pollMiss_cases 2 (seqMemRead s.cfg.descIn.toNat s)
      · rw [h]; simp
      · exact hn .pollcnt (by simp [readRegs]) (by rw [h]; simpa using hz)
      · exact hn .pollcnt (by simp [readRegs]) (by rw [h]; simpa using hz)
  all_goals
    cases h
    first
      | (left; simp; done)
      | exact hn _ (List.mem_singleton.2 rfl) (by simp)

/-! ## Control -/

/-- R26: `s.state` once the micro-op has completed. -/
def completedState (i : Instr) (q : SeqState) : SeqState :=
  match i with
  | .clkRstclr => .clockEnabled
  | .dmaOutStart => .dmaArmed
  | .aesKey n => if n % 4 = 3 then .keyProgrammed else q
  | .aesTrigger => .triggered
  | .pollAes => .awaitingDma
  | .chkDma => .done
  | _ => q

/-- R97: the four ways a micro-op ends: it completes, raises an exception, ends the run, or stays. -/
theorem exec_ctl (h : exec i s = .next t) :
    (i ≠ .relExit ∧ ∃ c, t.ctl = { s.ctl with
        upc := s.ctl.upc + 1, state := completedState i s.ctl.state, chaos := s.ctl.chaos || c }) ∨
      (∃ e n, t.ctl = (takeException e n s).ctl ∧
        ((i = .chkLen ∧ e = .invalidLength ∧ n = 0) ∨ (i = .pollAes ∧ e = .hardwareTimeout ∧ n = 1) ∨
          (i = .pollDesc ∧ e = .hardwareTimeout ∧ n = 2) ∨ (i = .chkDma ∧ e = .dmaFault ∧ (n = 1 ∨ n = 2)))) ∨
      ((i = .relExit ∨ i = .chkLen) ∧ ∃ c, t.ctl = { s.ctl with
        state := .released, busy := false, chaos := s.ctl.chaos || c }) ∨
      ((i = .pollAes ∨ i = .pollDesc) ∧ t.ctl = s.ctl) := by
  have hf : s.ctl.chaos = (s.ctl.chaos || false) := by simp
  cases i <;> simp only [exec] at h
  case chkLen =>
    obtain ⟨r, rfl | rfl, ⟨rfl, _⟩ | ⟨rfl, _⟩ | ⟨rfl, _⟩⟩ := execChkLen_cases h
    · exact .inr (.inr (.inl ⟨.inr rfl, false, by simp⟩))
    · exact .inr (.inl ⟨_, _, rfl, by simp⟩)
    · exact .inl ⟨by simp, false, by simp [completedState]⟩
    · exact .inr (.inr (.inl ⟨.inr rfl, false, by simp⟩))
    · exact .inr (.inl ⟨.invalidLength, 0, by simp, by simp⟩)
    · exact .inl ⟨by simp, false, by simp [completedState]⟩
  case chkDma =>
    obtain ⟨r, rfl | rfl, ⟨rfl, _⟩ | ⟨rfl, _⟩ | ⟨rfl, _⟩ | ⟨rfl, _⟩⟩ := execChkDma_cases h
    · exact .inr (.inl ⟨.dmaFault, 1, by simp, by simp⟩)
    · exact .inr (.inl ⟨.dmaFault, 2, by simp, by simp⟩)
    · exact .inl ⟨by simp, false, by simp [completedState]⟩
    · exact .inl ⟨by simp, false, by simp [completedState]⟩
    · exact .inr (.inl ⟨.dmaFault, 1, by simp, by simp⟩)
    · exact .inr (.inl ⟨.dmaFault, 2, by simp, by simp⟩)
    · exact .inl ⟨by simp, false, by simp [completedState]⟩
    · exact .inl ⟨by simp, false, by simp [completedState]⟩
  case pollAes =>
    obtain ⟨_, rfl⟩ | ⟨_, rfl⟩ := execPollAes_cases h
    · exact .inl ⟨by simp, false, by simp [completedState]⟩
    · obtain ⟨_, h⟩ | ⟨_, _, ⟨_, h⟩ | ⟨_, h⟩⟩ := pollMiss_cases 1 (aesStateRead s) <;> rw [h]
      · exact .inr (.inr (.inr (by simp)))
      · exact .inr (.inl ⟨.hardwareTimeout, 1, by simp, by simp⟩)
      · exact .inr (.inr (.inr (by simp)))
  case pollDesc =>
    obtain ⟨_, rfl⟩ | ⟨_, rfl⟩ := execPollDesc_cases h
    · exact .inl ⟨by simp, false, by simp [completedState]⟩
    · obtain ⟨_, h⟩ | ⟨_, _, ⟨_, h⟩ | ⟨_, h⟩⟩ := pollMiss_cases 2 (seqMemRead s.cfg.descIn.toNat s) <;> rw [h]
      · exact .inr (.inr (.inr (by simp)))
      · exact .inr (.inl ⟨.hardwareTimeout, 2, by simp, by simp⟩)
      · exact .inr (.inr (.inr (by simp)))
  case aesKey n =>
    obtain ⟨hn, rfl⟩ | ⟨hn, rfl⟩ := execAesKey_cases n h
    all_goals
      obtain ⟨c, hc⟩ := regWrite_ctl (noteRead (keyX n) s) (keyReg n) (s.xval (keyX n))
      exact .inl ⟨by simp, _, by simp [completedState, hn, hc]; rfl⟩
  case relExit =>
    cases h
    obtain ⟨c, hc⟩ := regWrite_ctl s .aesDmaExit s.cfg.vals.dmaExit
    exact .inr (.inr (.inl ⟨.inl rfl, _, by rw [endRun_ctl, hc]⟩))
  case dscOutW0 => cases h; exact .inl ⟨by simp, false, by simp [completedState]⟩
  case dscOutW1 => cases h; exact .inl ⟨by simp, false, by simp [completedState]⟩
  case dscOutW2 => cases h; exact .inl ⟨by simp, false, by simp [completedState]⟩
  case dscInW0 => cases h; exact .inl ⟨by simp, false, by simp [completedState]⟩
  case dscInW1 => cases h; exact .inl ⟨by simp, false, by simp [completedState]⟩
  case dscInW2 => cases h; exact .inl ⟨by simp, false, by simp [completedState]⟩
  all_goals
    cases h
    first
      | (obtain ⟨c, hc⟩ := regModify_ctl s _ _
         exact .inl ⟨by simp, _, by simp only [advance_ctl, enterState_ctl]; rw [hc]; rfl⟩)
      | (obtain ⟨c, hc⟩ := regWrite_ctl s _ _
         exact .inl ⟨by simp, _, by simp only [advance_ctl, enterState_ctl]; rw [hc]; rfl⟩)
      | (obtain ⟨c, hc⟩ := regWrite_ctl (noteRead _ s) _ _
         exact .inl ⟨by simp, _, by simp only [advance_ctl]; rw [hc]; simp only [noteRead_ctl]; rfl⟩)

/-- The poll count after a micro-op: as before, 0, or one more, and then below the limit or the run has ended (R176, R177). -/
theorem exec_pollcnt (h : exec i s = .next t) :
    t.xval .pollcnt = s.xval .pollcnt ∨ t.xval .pollcnt = 0 ∨
      ∃ N, s.cfg.checks.pollLimit = .bounded N ∧ t.xval .pollcnt = s.xval .pollcnt + 1 ∧
        (s.xval .pollcnt + 1 = N → t.ctl.busy = false) := by
  have miss : ∀ (n : BitVec 2) (r : State), r.cfg = s.cfg → r.x = s.x →
      (pollMiss n r).xval .pollcnt = s.xval .pollcnt ∨ ∃ N, s.cfg.checks.pollLimit = .bounded N ∧
        (pollMiss n r).xval .pollcnt = s.xval .pollcnt + 1 ∧
        (s.xval .pollcnt + 1 = N → (pollMiss n r).ctl.busy = false) := by
    intro n r hc hx
    have hv : r.xval .pollcnt = s.xval .pollcnt := by simp [State.xval, hx]
    obtain ⟨_, h⟩ | ⟨N, hN, ⟨hh, h⟩ | ⟨hh, h⟩⟩ := pollMiss_cases n r <;> rw [h]
    · exact .inl hv
    · exact .inr ⟨N, by rw [← hc]; exact hN, by simp [hv], fun _ => rfl⟩
    · exact .inr ⟨N, by rw [← hc]; exact hN, by simp [hv], fun h => absurd (hv ▸ h) hh⟩
  cases i <;> simp only [exec] at h
  case chkLen => obtain ⟨r, rfl | rfl, ⟨rfl, _⟩ | ⟨rfl, _⟩ | ⟨rfl, _⟩⟩ := execChkLen_cases h <;> simp
  case chkDma => obtain ⟨r, rfl | rfl, ⟨rfl, _⟩ | ⟨rfl, _⟩ | ⟨rfl, _⟩ | ⟨rfl, _⟩⟩ := execChkDma_cases h <;> simp
  case aesKey n => obtain ⟨_, rfl⟩ | ⟨_, rfl⟩ := execAesKey_cases n h <;> simp
  case pollAes =>
    obtain ⟨_, rfl⟩ | ⟨_, rfl⟩ := execPollAes_cases h
    · simp
    · exact (miss 1 (aesStateRead s) (by simp) (by simp)).imp_right .inr
  case pollDesc =>
    obtain ⟨_, rfl⟩ | ⟨_, rfl⟩ := execPollDesc_cases h
    · simp
    · exact (miss 2 (seqMemRead s.cfg.descIn.toNat s) (by simp) (by simp)).imp_right .inr
  all_goals
    cases h
    left
    first
      | (simp; done)
      | simp [State.xval, Session.get_set]

/-! ## The agents -/

/-- A micro-op that writes no register with a side effect leaves the agents alone (R201). -/
theorem exec_units_plain (h : exec i s = .next t) (hp : ∀ r, writtenReg i = some r → isPlainReg r = true) :
    t.units = s.units := by
  cases i <;> simp only [exec] at h
  case chkLen => obtain ⟨r, rfl | rfl, ⟨rfl, _⟩ | ⟨rfl, _⟩ | ⟨rfl, _⟩⟩ := execChkLen_cases h <;> simp
  case chkDma => obtain ⟨r, rfl | rfl, ⟨rfl, _⟩ | ⟨rfl, _⟩ | ⟨rfl, _⟩ | ⟨rfl, _⟩⟩ := execChkDma_cases h <;> simp
  case aesKey n =>
    obtain ⟨_, rfl⟩ | ⟨_, rfl⟩ := execAesKey_cases n h <;> simp [regWrite_plain_units _ _ _ (hp _ rfl)]
  case pollAes => obtain ⟨_, rfl⟩ | ⟨_, rfl⟩ := execPollAes_cases h <;> simp
  case pollDesc => obtain ⟨_, rfl⟩ | ⟨_, rfl⟩ := execPollDesc_cases h <;> simp
  all_goals
    cases h
    first
      | (simp; done)
      | (simp only [advance_units, enterState_units, endRun_units]
         rw [regWrite_plain_units _ _ _ (hp _ rfl)]
         try rw [noteRead_units])
      | (simp only [advance_units, enterState_units]
         rw [regModify_plain_units _ _ _ (hp _ rfl)])

/-- The micro-ops that write a register with a side effect. -/
theorem exec_units_cases (h : exec i s = .next t) : t.units = s.units ∨
    (i = .clkRstclr ∧ t.units = (regWrite .sysRstEn (s.per.sysRstEn &&&
      ~~~(bitMask s.cfg.bits.aesRst ||| bitMask s.cfg.bits.dsRst ||| bitMask s.cfg.bits.dmaRst)) s).units) ∨
    (∃ v, (i = .dmaInRstSet ∨ i = .dmaInRstClr) ∧ t.units = (regWrite .dmaInConf0 v s).units) ∨
    (∃ v, (i = .dmaOutRstSet ∨ i = .dmaOutRstClr) ∧ t.units = (regWrite .dmaOutConf0 v s).units) ∨
    (∃ v, (i = .dmaInLink ∨ i = .dmaInStart) ∧ t.units = (regWrite .dmaInLink v s).units) ∨
    (∃ v, (i = .dmaOutLink ∨ i = .dmaOutStart) ∧ t.units = (regWrite .dmaOutLink v s).units) ∨
    (i = .aesTrigger ∧ t.units = (regWrite .aesTrigger s.cfg.vals.trigger s).units) ∨
    (i = .relExit ∧ t.units = (regWrite .aesDmaExit s.cfg.vals.dmaExit s).units) := by
  by_cases hp : ∀ r, writtenReg i = some r → isPlainReg r = true
  · exact .inl (exec_units_plain h hp)
  · cases i
    case clkRstclr => simp only [exec] at h; cases h; exact .inr (.inl ⟨rfl, by simp [regModify_units, regValue, regGated, isDmaReg, isAesReg, regGet]⟩)
    case dmaInRstSet => simp only [exec] at h; cases h; exact .inr (.inr (.inl ⟨_, .inl rfl, by simp [regModify_units]; rfl⟩))
    case dmaInRstClr => simp only [exec] at h; cases h; exact .inr (.inr (.inl ⟨_, .inr rfl, by simp [regModify_units]; rfl⟩))
    case dmaOutRstSet => simp only [exec] at h; cases h; exact .inr (.inr (.inr (.inl ⟨_, .inl rfl, by simp [regModify_units]; rfl⟩)))
    case dmaOutRstClr => simp only [exec] at h; cases h; exact .inr (.inr (.inr (.inl ⟨_, .inr rfl, by simp [regModify_units]; rfl⟩)))
    case dmaInLink => simp only [exec] at h; cases h; exact .inr (.inr (.inr (.inr (.inl ⟨_, .inl rfl, by simp [regModify_units]; rfl⟩))))
    case dmaInStart => simp only [exec] at h; cases h; exact .inr (.inr (.inr (.inr (.inl ⟨_, .inr rfl, by simp [regModify_units]; rfl⟩))))
    case dmaOutLink => simp only [exec] at h; cases h; exact .inr (.inr (.inr (.inr (.inr (.inl ⟨_, .inl rfl, by simp [regModify_units]; rfl⟩)))))
    case dmaOutStart => simp only [exec] at h; cases h; exact .inr (.inr (.inr (.inr (.inr (.inl ⟨_, .inr rfl, by simp [regModify_units]; rfl⟩)))))
    case aesTrigger => simp only [exec] at h; cases h; exact .inr (.inr (.inr (.inr (.inr (.inr (.inl ⟨rfl, by simp⟩))))))
    case relExit => simp only [exec] at h; cases h; exact .inr (.inr (.inr (.inr (.inr (.inr (.inr ⟨rfl, by simp⟩))))))
    case aesKey n => exact absurd (fun r hr => by cases hr; exact isPlainReg_keyReg n) hp
    case aesIv n => exact absurd (fun r hr => by cases hr; exact isPlainReg_ivReg n) hp
    all_goals exact absurd (fun r hr => by cases hr <;> rfl) hp

/-- What a micro-op can do to DOUT: nothing, put it in IDLE, or start it from IDLE (R202, R203). -/
theorem exec_dout (h : exec i s = .next t) : t.units.dout = s.units.dout ∨
    t.units.dout = { s.units.dout with st := .idle } ∨
    (dmaHeld s = false ∧ s.units.dout.st = .idle ∧ (i = .dmaOutLink ∨ i = .dmaOutStart) ∧
      ∃ a, t.units.dout = { s.units.dout with desc := a, st := .fetch }) := by
  rcases exec_units_cases h with h | ⟨_, h⟩ | ⟨v, _, h⟩ | ⟨v, _, h⟩ | ⟨v, _, h⟩ | ⟨v, hi, h⟩ | ⟨_, h⟩ | ⟨_, h⟩ <;> rw [h]
  · exact .inl rfl
  · rw [regWrite_rstEn_units]; (repeat' split) <;> simp [dinReset, doutReset]
  · rw [regWrite_inConf0_units]; split <;> simp [dinReset]
  · rw [regWrite_outConf0_units]; split <;> simp [doutReset]
  · rw [regWrite_inLink_units]; split <;> simp
  · rw [regWrite_outLink_units]
    split
    · rename_i hc
      simp only [Bool.and_eq_true, Bool.not_eq_true', beq_iff_eq] at hc
      exact .inr (.inr ⟨hc.1.1.2, hc.1.2, hi, _, rfl⟩)
    · exact .inl rfl
  · rw [regWrite_trigger_units]; split <;> simp
  · rw [regWrite_exit_units]; split <;> simp

/-- What a micro-op can do to DIN: nothing, put it in IDLE, or start it from IDLE (R207, R208). -/
theorem exec_din (h : exec i s = .next t) : t.units.din = s.units.din ∨
    t.units.din = { s.units.din with st := .idle } ∨
    (dmaHeld s = false ∧ s.units.din.st = .idle ∧ (i = .dmaInLink ∨ i = .dmaInStart) ∧
      ∃ a, t.units.din = { s.units.din with desc := a, st := .fetch }) := by
  rcases exec_units_cases h with h | ⟨_, h⟩ | ⟨v, _, h⟩ | ⟨v, _, h⟩ | ⟨v, hi, h⟩ | ⟨v, _, h⟩ | ⟨_, h⟩ | ⟨_, h⟩ <;> rw [h]
  · exact .inl rfl
  · rw [regWrite_rstEn_units]; (repeat' split) <;> simp [dinReset, doutReset]
  · rw [regWrite_inConf0_units]; split <;> simp [dinReset]
  · rw [regWrite_outConf0_units]; split <;> simp [doutReset]
  · rw [regWrite_inLink_units]
    split
    · rename_i hc
      simp only [Bool.and_eq_true, Bool.not_eq_true', beq_iff_eq] at hc
      exact .inr (.inr ⟨hc.1.1.2, hc.1.2, hi, _, rfl⟩)
    · exact .inl rfl
  · rw [regWrite_outLink_units]; split <;> simp
  · rw [regWrite_trigger_units]; split <;> simp
  · rw [regWrite_exit_units]; split <;> simp

/-- What a micro-op can do to the AES: nothing, put it in IDLE, or start it from IDLE (R213, R217, R221). -/
theorem exec_aes (h : exec i s = .next t) : t.units.aes = s.units.aes ∨
    t.units.aes = { s.units.aes with st := .idle } ∨
    (aesHeld s = false ∧ s.units.aes.st = .idle ∧ i = .aesTrigger ∧ t.units.aes = latched s.per) := by
  rcases exec_units_cases h with h | ⟨_, h⟩ | ⟨v, _, h⟩ | ⟨v, _, h⟩ | ⟨v, _, h⟩ | ⟨v, _, h⟩ | ⟨hi, h⟩ | ⟨_, h⟩ <;> rw [h]
  · exact .inl rfl
  · rw [regWrite_rstEn_units]; (repeat' split) <;> simp [dinReset, doutReset]
  · rw [regWrite_inConf0_units]; split <;> simp [dinReset]
  · rw [regWrite_outConf0_units]; split <;> simp [doutReset]
  · rw [regWrite_inLink_units]; split <;> simp
  · rw [regWrite_outLink_units]; split <;> simp
  · rw [regWrite_trigger_units]
    split
    · rename_i hc
      cases hh : aesHeld s
      · exact .inr (.inr ⟨rfl, by simpa using hc, hi, rfl⟩)
      · exact .inl rfl
    · exact .inl rfl
  · rw [regWrite_exit_units]; split <;> simp

/-- The reset bits a micro-op leaves (R175): `clk.rstclr` clears them, nothing else changes them. -/
theorem exec_held (h : exec i s = .next t) : (aesHeld t = false ∨ aesHeld t = aesHeld s) ∧
    (dmaHeld t = false ∨ dmaHeld t = dmaHeld s) := by
  by_cases hi : i = .clkRstclr
  · subst hi
    cases h
    constructor <;> left <;>
      simp [aesHeld, dmaHeld, regSet, regValue, storedValue, regGated, isDmaReg, isAesReg, regGet]
  · have h1 := exec_reg h .sysRstEn (by
      cases i <;> simp [writtenReg] at hi ⊢ <;> rename_i n <;>
        first
          | rcases keyReg_cases n with h | h | h | h <;> simp [h]
          | rcases ivReg_cases n with h | h | h | h <;> simp [h])
    simp only [regGet] at h1
    simp [aesHeld, dmaHeld, h1, (exec_fixed h).1]

end Sys2Proof.Machine
end

