-- ==== Sys2Proof/Laws/Params.lean ====
section
/-! SUPPORT. What legal parameters give (20_memory.md R65, R73), one lemma for each constraint that is used. -/

namespace Sys2Proof

variable {p : Params}

theorem Params.wf_aligned (h : p.wf = true) :
    p.descOut.toNat % 4 = 0 ∧ p.descIn.toNat % 4 = 0 ∧ ∀ a ∈ p.addr.all, a.toNat % 4 = 0 := by
  simp only [Params.wf, Bool.and_eq_true, Params.descAligned, beq_iff_eq] at h
  refine ⟨h.2.1.1, h.2.1.2, fun a ha => ?_⟩
  have h3 := h.2.2.1
  simp only [Params.addrAligned, List.all_eq_true, beq_iff_eq] at h3
  exact h3 a ha

theorem Params.wf_regionInSpace (h : p.wf = true) : p.regionInSpace = true := by
  simp only [Params.wf, Bool.and_eq_true] at h
  exact h.2.2.2.2.1

/-- Both descriptors lie inside `P_DMA_REGION`. -/
theorem Params.wf_descInRegion (h : p.wf = true) :
    p.rangeInRegion p.descOut.toNat 12 = true ∧ p.rangeInRegion p.descIn.toNat 12 = true := by
  simp only [Params.wf, Bool.and_eq_true, Params.descInRegion] at h
  exact h.2.2.2.2.2.1

/-- The two descriptors have no byte in common. -/
theorem Params.wf_descDisjoint (h : p.wf = true) :
    p.descOut.toNat + 12 ≤ p.descIn.toNat ∨ p.descIn.toNat + 12 ≤ p.descOut.toNat := by
  simp only [Params.wf, Bool.and_eq_true, Params.descDisjoint, Bool.or_eq_true, decide_eq_true_eq] at h
  exact h.2.2.2.2.2.2.1

theorem Params.wf_link (h : p.wf = true) :
    p.descOut &&& ~~~p.linkMask = p.linkBase ∧ p.descIn &&& ~~~p.linkMask = p.linkBase := by
  simp only [Params.wf, Bool.and_eq_true, Params.linkOk, beq_iff_eq] at h
  exact h.2.2.2.2.2.2.2.2.1

theorem Params.wf_startOutsideMask (h : p.wf = true) :
    Machine.bitOf p.linkMask p.bits.inStart = false ∧ Machine.bitOf p.linkMask p.bits.outStart = false := by
  simp only [Params.wf, Bool.and_eq_true, Params.startOutsideMask, Bool.not_eq_true'] at h
  exact h.2.2.2.2.2.2.2.2.2.1

theorem Params.wf_pollLimit (h : p.wf = true) (n : Word) (hn : p.checks.pollLimit = .bounded n) : 0 < n.toNat := by
  simp only [Params.wf, Bool.and_eq_true, Params.pollLimitOk, hn, bne_iff_ne, ne_eq] at h
  have h1 := h.2.2.2.2.2.2.2.2.2.2.2.2
  have : n.toNat ≠ 0 := fun h0 => h1 (BitVec.eq_of_toNat_eq (by simpa using h0))
  omega

/-- A range inside the region contains the shorter ranges within it. -/
theorem Params.rangeInRegion_sub (a n b m : Nat) (h : p.rangeInRegion a n = true) (h1 : a ≤ b) (h2 : b + m ≤ a + n) :
    p.rangeInRegion b m = true := by
  simp only [Params.rangeInRegion, List.all_eq_true, List.mem_range] at *
  intro j hj
  have := h (b - a + j) (by omega)
  rwa [show a + (b - a + j) = b + j by omega] at this

namespace Machine

/-- The descriptor a link register names is the one its link field holds (R73, R203, R208). -/
theorem linkAddr_eq {cfg : Params} {d v : Word} (h1 : d &&& ~~~cfg.linkMask = cfg.linkBase)
    (h2 : v &&& cfg.linkMask = d &&& cfg.linkMask) : linkAddr cfg v = d := by
  rw [linkAddr, h2, ← h1]
  ext i hi
  simp
  cases d[i] <;> cases cfg.linkMask[i] <;> rfl

/-- A start bit lies outside the link field. -/
theorem bitMask_and_linkMask {m : Word} {n : Fin 32} (h : bitOf m n = false) : bitMask n &&& m = 0 := by
  ext i hi
  have : (bitMask n)[i] = decide (n = ⟨i, hi⟩) := by
    have := bitOf_bitMask n ⟨i, hi⟩
    simpa [bitOf, hi] using this
  simp only [BitVec.getElem_and, this]
  by_cases hn : n = ⟨i, hi⟩
  · subst hn
    simpa [bitOf, hi] using h
  · simp [hn]

end Machine

end Sys2Proof
end

