-- ==== Sys2Proof/Laws/PerInstr.lean ====
section
/-! SUPPORT. One family of statements made per instruction: the row of the opcode map an instruction belongs to. -/

namespace Sys2Proof.Laws.RowOf

/-- 30_encoding.md R93, R100: the code of a well-formed micro-op matches a row of the opcode map, and that row makes the
micro-op again from the index bits of the code. -/
def Statement (i : Instr) : Prop :=
  i.wf = true → ∃ r ∈ opRows, encode i &&& r.mask = r.code ∧ r.make (indexOf (encode i)) = i

/-- The row at position n of the map is the one of `i`. -/
theorem of_row (i : Instr) (n : Fin opRows.length) (h1 : encode i &&& opRows[n].mask = opRows[n].code)
    (h2 : opRows[n].make (indexOf (encode i)) = i) : Statement i :=
  fun _ => ⟨opRows[n], List.getElem_mem _, h1, h2⟩

theorem chkLen : Statement .chkLen := of_row _ ⟨0, by decide⟩ rfl rfl
theorem chkDma : Statement .chkDma := of_row _ ⟨1, by decide⟩ rfl rfl
theorem clkEn : Statement .clkEn := of_row _ ⟨2, by decide⟩ rfl rfl
theorem clkRstclr : Statement .clkRstclr := of_row _ ⟨3, by decide⟩ rfl rfl
theorem dscOutW0 : Statement .dscOutW0 := of_row _ ⟨4, by decide⟩ rfl rfl
theorem dscOutW1 : Statement .dscOutW1 := of_row _ ⟨5, by decide⟩ rfl rfl
theorem dscOutW2 : Statement .dscOutW2 := of_row _ ⟨6, by decide⟩ rfl rfl
theorem dscInW0 : Statement .dscInW0 := of_row _ ⟨7, by decide⟩ rfl rfl
theorem dscInW1 : Statement .dscInW1 := of_row _ ⟨8, by decide⟩ rfl rfl
theorem dscInW2 : Statement .dscInW2 := of_row _ ⟨9, by decide⟩ rfl rfl
theorem dmaInRstSet : Statement .dmaInRstSet := of_row _ ⟨10, by decide⟩ rfl rfl
theorem dmaInRstClr : Statement .dmaInRstClr := of_row _ ⟨11, by decide⟩ rfl rfl
theorem dmaOutRstSet : Statement .dmaOutRstSet := of_row _ ⟨12, by decide⟩ rfl rfl
theorem dmaOutRstClr : Statement .dmaOutRstClr := of_row _ ⟨13, by decide⟩ rfl rfl
theorem dmaInLink : Statement .dmaInLink := of_row _ ⟨14, by decide⟩ rfl rfl
theorem dmaOutLink : Statement .dmaOutLink := of_row _ ⟨15, by decide⟩ rfl rfl
theorem dmaInPeri : Statement .dmaInPeri := of_row _ ⟨16, by decide⟩ rfl rfl
theorem dmaOutPeri : Statement .dmaOutPeri := of_row _ ⟨17, by decide⟩ rfl rfl
theorem dmaInStart : Statement .dmaInStart := of_row _ ⟨18, by decide⟩ rfl rfl
theorem dmaOutStart : Statement .dmaOutStart := of_row _ ⟨19, by decide⟩ rfl rfl
theorem aesDmaen : Statement .aesDmaen := of_row _ ⟨20, by decide⟩ rfl rfl
theorem aesIntdis : Statement .aesIntdis := of_row _ ⟨21, by decide⟩ rfl rfl
theorem aesMode : Statement .aesMode := of_row _ ⟨22, by decide⟩ rfl rfl
theorem aesBlkmode : Statement .aesBlkmode := of_row _ ⟨23, by decide⟩ rfl rfl
theorem aesKey (i : Nat) : Statement (.aesKey i) := by
  intro h
  have hi : i < 4 := by simpa [Instr.wf] using h
  interval_cases i <;> exact of_row _ ⟨24, by decide⟩ rfl rfl rfl
theorem aesBlknum : Statement .aesBlknum := of_row _ ⟨25, by decide⟩ rfl rfl
theorem aesIncsel : Statement .aesIncsel := of_row _ ⟨26, by decide⟩ rfl rfl
theorem aesTrigger : Statement .aesTrigger := of_row _ ⟨27, by decide⟩ rfl rfl
theorem aesIv (i : Nat) : Statement (.aesIv i) := by
  intro h
  have hi : i < 4 := by simpa [Instr.wf] using h
  interval_cases i <;> exact of_row _ ⟨28, by decide⟩ rfl rfl rfl
theorem pollAes : Statement .pollAes := of_row _ ⟨29, by decide⟩ rfl rfl
theorem pollDesc : Statement .pollDesc := of_row _ ⟨30, by decide⟩ rfl rfl
theorem relExit : Statement .relExit := of_row _ ⟨31, by decide⟩ rfl rfl

end Sys2Proof.Laws.RowOf
end

