-- ==== Sys2Proof/Laws/Turns.lean ====
section
/-! SUPPORT. The cases of a step: whose turn it is, and what the sequencer's turn does. -/

namespace Sys2Proof.Machine

variable {s t : State}

/-- A step that answers a next state is the turn's, on the state with the turn taken off, and the parameters are legal. -/
theorem step_next (h : step s = .next t) : s.cfg.wf = true ∧ takeTurn s.turn (popTurn s) = .next t := by
  unfold step at h
  split at h
  · exact ⟨by assumption, h⟩
  · cases h

/-- R172: the sequencer's turn, while busy, is the micro-op at `upc`. -/
theorem takeTurn_seq {u : Byte} {i : Instr} (hb : s.ctl.busy = true) (hr : s.rom[s.ctl.upc.toNat]? = some u)
    (hd : decode u = .ok i) : takeTurn .seq s = exec i s := by
  simp [takeTurn, seqTurn, hb, fetchCode, hr, hd]

/-- The cases of the sequencer's turn. -/
theorem takeTurn_seq_cases (h : takeTurn .seq s = .next t) :
    (s.ctl.busy = false ∧ t = s) ∨
      (s.ctl.busy = true ∧ ∃ u, s.rom[s.ctl.upc.toNat]? = some u ∧
        ((∃ i, decode u = .ok i ∧ exec i s = .next t) ∨ ((∀ i, decode u ≠ .ok i) ∧ t = reservedUop s))) := by
  simp only [takeTurn, seqTurn] at h
  split at h
  · refine .inr ⟨by assumption, ?_⟩
    simp only [fetchCode] at h
    split at h
    · cases h
    · rename_i u hu
      refine ⟨u, hu, ?_⟩
      split at h
      · exact .inl ⟨_, by assumption, h⟩
      · rename_i e he
        injection h with h
        refine .inr ⟨fun i hi => ?_, h.symm⟩
        rw [hi] at he
        cases he
  · injection h with h
    exact .inl ⟨by simp_all, h.symm⟩

/-- R232: an agent has an enabled move where some turn is a move of it. -/
theorem agentEnabled_iff (a : Agent) (s : State) : agentEnabled a s = true ↔ ∃ u, takesMove a u s = true := by
  constructor
  · intro h
    cases a with
    | seq => exact ⟨.seq, by simpa [takesMove, agentEnabled] using h⟩
    | dout => exact ⟨.dout, by simpa [takesMove, agentEnabled] using h⟩
    | din =>
      simp only [agentEnabled, Bool.or_eq_true] at h
      rcases h with (h | h) | h
      · exact ⟨.din, by simpa [takesMove] using h⟩
      · exact ⟨.dinError, by simpa [takesMove] using h⟩
      · exact ⟨.chaos (.dinWord 0), by simpa [takesMove, chaosAgent, chaosGuard, and_assoc] using h⟩
    | aes =>
      simp only [agentEnabled, Bool.or_eq_true] at h
      rcases h with h | h
      · exact ⟨.aes, by simpa [takesMove] using h⟩
      · exact ⟨.chaos (.aesState .idle), by simpa [takesMove, chaosAgent, chaosGuard] using h⟩
  · rintro ⟨u, h⟩
    cases u <;> simp only [takesMove, Bool.and_eq_true, beq_iff_eq, Bool.false_eq_true] at h
    case chaos m =>
      cases m <;> simp_all [chaosAgent, chaosGuard, agentEnabled, doutEnabled]
    all_goals obtain ⟨rfl, h⟩ := h; simp [agentEnabled, h]

/-- A turn of the sequencer or of an agent that is a move of none of them changes nothing (log 23). -/
theorem takeTurn_without_move {u : Turn} (hu : isMachineTurn u = true) (hn : ∀ a, takesMove a u s = false)
    (h : takeTurn u s = .next t) : t = s := by
  cases u <;> simp only [isMachineTurn, Bool.false_eq_true] at hu
  case seq =>
    have hn := hn .seq
    obtain ⟨_, rfl⟩ | ⟨hb, u, hu, ⟨i, hi, _⟩ | ⟨hno, rfl⟩⟩ := takeTurn_seq_cases h
    · rfl
    · simp [takesMove, seqEnabled, hb, fetchCode, hu, hi] at hn
    · cases hd : decode u with
      | ok i => exact absurd hd (hno i)
      | error e =>
        simp only [takesMove, seqEnabled, hb, fetchCode, hu, hd, beq_self_eq_true, Bool.true_and, Bool.not_eq_false'] at hn
        simp [reservedUop, State.setFaults, ← hn]
  all_goals simp only [takeTurn, Host.Outcome.next.injEq] at h; subst h
  case dout =>
    have hn := hn .dout
    simp only [takesMove, doutEnabled, beq_self_eq_true, Bool.true_and, Bool.and_eq_false_iff, Bool.not_eq_false',
      bne_eq_false_iff_eq] at hn
    unfold doutMove
    rcases hn with h | h <;> simp [h]
  case din =>
    have hn := hn .din
    simp only [takesMove, dinMoveEnabled, beq_self_eq_true, Bool.true_and, Bool.and_eq_false_iff, Bool.not_eq_false',
      Bool.or_eq_false_iff, beq_eq_false_iff_ne, ne_eq] at hn
    unfold dinMove
    split
    · rfl
    · split <;> simp_all
  case dinError =>
    have hn := hn .din
    simp only [takesMove, beq_self_eq_true, Bool.true_and] at hn
    simp [dinErrorMove, hn]
  case aes =>
    have hn := hn .aes
    simp only [takesMove, aesEnabled, beq_self_eq_true, Bool.true_and] at hn
    unfold aesMove
    split
    · rfl
    · split
      · rfl
      · rfl
      · split
        · split <;> simp_all
        · split <;> simp_all
  case chaos m =>
    have hn := hn (chaosAgent m)
    simp only [takesMove, beq_self_eq_true, Bool.true_and] at hn
    simp [chaosMove, hn]

/-- The host's store changes at most the one byte of memory (R199). -/
theorem hostStore_cases (a : Word) (b : Byte) (s : State) :
    hostStore a b s = s ∨ (mayStore s a.toNat = true ∧ hostStore a b s = s.setMem (s.mem.write a.toNat b)) := by
  unfold hostStore; split
  · exact .inr ⟨by assumption, rfl⟩
  · exact .inl rfl

/-- The cases of a start (R170, R171). -/
theorem startRequest_cases (key iv : Block) (pt ct bc : Word) (s : State) :
    (s.ctl.busy = true ∧ startRequest key iv pt ct bc s = s.setFaults { s.faults with reentry := true }) ∨
      (s.ctl.busy = false ∧ startRequest key iv pt ct bc s = acceptStart key iv pt ct bc s) := by
  unfold startRequest; split
  · exact .inl ⟨by assumption, rfl⟩
  · exact .inr ⟨by simp_all, rfl⟩

variable (key iv : Block) (pt ct bc : Word) (s : State)

@[simp] theorem acceptStart_cfg : (acceptStart key iv pt ct bc s).cfg = s.cfg := by simp [acceptStart]
@[simp] theorem acceptStart_rom : (acceptStart key iv pt ct bc s).rom = s.rom := by simp [acceptStart]
@[simp] theorem acceptStart_faults : (acceptStart key iv pt ct bc s).faults = s.faults := by simp [acceptStart]
@[simp] theorem acceptStart_per : (acceptStart key iv pt ct bc s).per = s.per := by simp [acceptStart]
@[simp] theorem acceptStart_units : (acceptStart key iv pt ct bc s).units = s.units := by simp [acceptStart]
@[simp] theorem acceptStart_mem : (acceptStart key iv pt ct bc s).mem = s.mem := by simp [acceptStart]
@[simp] theorem acceptStart_aux : (acceptStart key iv pt ct bc s).aux = s.aux := by simp [acceptStart]

theorem acceptStart_ctl : ∃ c, (acceptStart key iv pt ct bc s).ctl =
    { upc := 0, state := .idle, busy := true, status := .ok, errinfo := 0, eupc := s.ctl.eupc, chaos := s.ctl.chaos || c } :=
  ⟨_, by simp only [acceptStart, chaosIf_ctl, State.setCtl_ctl, writeX_ctl]; rfl⟩

/-- After an accepted start every session register but `DW0` and `TMP` has been written (R170, R22). -/
theorem acceptStart_written (r : XReg) (h1 : r ≠ .dw0) (h2 : r ≠ .tmp) :
    ((acceptStart key iv pt ct bc s).x.get r).written = true := by
  cases r <;> first | rfl | (simp [acceptStart, Session.get_set]; done) | (exact absurd rfl h1) | (exact absurd rfl h2)

@[simp] theorem acceptStart_pollcnt : (acceptStart key iv pt ct bc s).xval .pollcnt = 0 := by
  simp [acceptStart, State.xval]

end Sys2Proof.Machine
end

