-- ==== Sys2Proof/Laws/RunMoves.lean ====
section
/-! SUPPORT. What holds at every point of a run of one start (43_orchestrator.md R172, 44_autonomous_units.md) in profile REIMPL
while no misuse is seen, for each place of the ROM; and that the moves of the agents keep it. -/

namespace Sys2Proof.Machine

/-- The start a run belongs to, and the bytes of memory it started from. -/
structure Launch where
  cfg : Params
  key : Block
  iv : Block
  pt : Word
  ct : Word
  bc : Word
  mem : Nat → Byte

namespace Launch
variable (G : Launch)

/-- The length of the run in bytes. -/
def len : Nat := 16 * G.bc.toNat
def plain (j : Nat) : Byte := G.mem (G.pt.toNat + j)
def stream (i : Nat) : Block := Config.aes128 G.key (inc32^[i] G.iv)
/-- Byte `j` of the ciphertext. -/
def cipher (j : Nat) : Byte := G.plain j ^^^ (G.stream (j / 16))[j % 16]'(Nat.mod_lt _ (by decide))
def outW0 : Word := dw0 (descLength G.bc) (descLength G.bc) false true true
def inW0 : Word := dw0 (descLength G.bc) 0 false false true
/-- What `x[N]` holds through the run. -/
def val : XReg → Word
  | .key0 => blockWord G.key 0
  | .key1 => blockWord G.key 1
  | .key2 => blockWord G.key 2
  | .key3 => blockWord G.key 3
  | .iv0 => blockWord G.iv 0
  | .iv1 => blockWord G.iv 1
  | .iv2 => blockWord G.iv 2
  | .iv3 => blockWord G.iv 3
  | .pt => G.pt
  | .ct => G.ct
  | _ => G.bc

/-- Outside the ciphertext buffer and the two descriptors. -/
def outside (a : Nat) : Prop :=
  (a < G.ct.toNat ∨ G.ct.toNat + G.len ≤ a) ∧ (a < G.cfg.descOut.toNat ∨ G.cfg.descOut.toNat + 12 ≤ a) ∧
    (a < G.cfg.descIn.toNat ∨ G.cfg.descIn.toNat + 12 ≤ a)

structure Legal : Prop where
  wf : G.cfg.wf = true
  reimpl : G.cfg.checks.isReimpl = true
  pos : 1 ≤ G.bc.toNat
  small : G.bc.toNat ≤ 255
  ptCt : disjointRanges G.pt.toNat G.len G.ct.toNat G.len
  ptOut : disjointRanges G.pt.toNat G.len G.cfg.descOut.toNat 12
  ptIn : disjointRanges G.pt.toNat G.len G.cfg.descIn.toNat 12
  ctOut : disjointRanges G.ct.toNat G.len G.cfg.descOut.toNat 12
  ctIn : disjointRanges G.ct.toNat G.len G.cfg.descIn.toNat 12

end Launch

/-- Bytes `a .. b-1` of `f`. -/
def seg (f : Nat → Byte) (a b : Nat) : List Byte := (List.range' a (b - a)).map f

/-- How far the AES is: the blocks it has made. -/
def madeBlocks (p : Nat) (u : Units) : Nat := if p ≤ 33 then 0 else u.aes.i.toNat

/-- A word of an error write-back. -/
def errorWord (w : Word) : Prop := dwErrEof w = true ∧ dwSucEof w = false

/-- Where DIN stands, with `r` bytes received. -/
def dinAt (G : Launch) (s : State) (r : Nat) : Prop :=
  s.units.din.desc = G.cfg.descIn ∧
    match s.units.din.st with
    | .idle => r = G.len ∨ errorWord (s.mem.read32 G.cfg.descIn.toNat)
    | .fetch => r = 0
    | .recv => s.units.din.w0 = G.inW0 ∧ s.units.din.buf = G.ct ∧ s.units.din.k.toNat = r
    | .wb => False

/-- Where DOUT stands, with `d` bytes sent. -/
def doutAt (G : Launch) (s : State) (d : Nat) : Prop :=
  s.units.dout.desc = G.cfg.descOut ∧
    match s.units.dout.st with
    | .idle => d = G.len
    | .fetch => d = 0
    | .send => s.units.dout.w0 = G.outW0 ∧ s.units.dout.buf = G.pt ∧ s.units.dout.k.toNat = d
    | .wb => s.units.dout.w0 = G.outW0 ∧ d = G.len

/-- The bytes on their way: `d` sent, `16·i` encrypted, `r` received. -/
structure Flow (G : Launch) (p : Nat) (s : State) (d r : Nat) : Prop where
  sent : 16 * madeBlocks p s.units ≤ d ∧ d ≤ G.len
  recvd : r ≤ 16 * madeBlocks p s.units
  qin : s.units.qin = seg G.plain (16 * madeBlocks p s.units) d
  qout : s.units.qout = seg G.cipher r (16 * madeBlocks p s.units)
  eof : s.units.qoutEof = true → madeBlocks p s.units = G.bc.toNat
  stored : ∀ j < r, s.mem.read (G.ct.toNat + j) = G.cipher j
  din : dinAt G s r
  dout : if p = 18 then d = 0 else doutAt G s d
  latched : p = 36 → dwErrEof (s.xval .dw0) = true ∨ (s.units.din.st = .idle ∧ r = G.len)
  complete : 37 ≤ p → s.units.din.st = .idle ∧ r = G.len

/-- The registers `aes.trigger` latches, the session register each is programmed from, and the ROM index after which it is. -/
def programmed : List (PReg × XReg × Nat) :=
  [(.aesKey0, .key0, 23), (.aesKey1, .key1, 24), (.aesKey2, .key2, 25), (.aesKey3, .key3, 26), (.aesBlockNum, .bc, 28),
   (.aesIv0, .iv0, 30), (.aesIv1, .iv1, 31), (.aesIv2, .iv2, 32), (.aesIv3, .iv3, 33)]

/-- What holds of the parameters, the ROM and the registers before the micro-op at ROM index `p`. -/
structure RegsAt (G : Launch) (p : Nat) (s : State) : Prop where
  cfg : s.cfg = G.cfg
  rom : s.rom = seqRom
  starts : startBitsZero s
  x : ∀ r, r ≠ .pollcnt → r ≠ .dw0 → r ≠ .tmp → s.xval r = G.val r
  clocks : 2 ≤ p → bitOf s.per.sysClkEn G.cfg.bits.aesClk = true ∧ bitOf s.per.sysClkEn G.cfg.bits.dmaClk = true
  resets : 3 ≤ p → aesHeld s = false ∧ dmaHeld s = false
  linkIn : 14 ≤ p → p ≤ 17 → s.per.dmaInLink &&& G.cfg.linkMask = G.cfg.descIn &&& G.cfg.linkMask
  linkOut : 15 ≤ p → p ≤ 18 → s.per.dmaOutLink &&& G.cfg.linkMask = G.cfg.descOut &&& G.cfg.linkMask
  regs : ∀ e ∈ programmed, e.2.2 ≤ p → p ≤ 33 → regGet s.per e.1 = G.val e.2.1

/-- What holds of a run while no misuse is seen, before the micro-op at ROM index `p`; `p = 38` once it has ended. -/
structure RunAt (G : Launch) (p : Nat) (s : State) : Prop extends RegsAt G p s where
  frame : ∀ a, G.outside a → s.mem.read a = G.mem a
  aesIdle : p ≤ 33 → s.units.aes.st = .idle
  dinIdle : p ≤ 17 → s.units.din.st = .idle
  doutIdle : p ≤ 18 → s.units.dout.st = .idle
  qoutEmpty : 10 ≤ p → p ≤ 33 → s.units.qout = [] ∧ s.units.qoutEof = false
  qinEmpty : 12 ≤ p → p ≤ 18 → s.units.qin = []
  out0 : 4 ≤ p → (p ≤ 18 ∨ s.units.dout.st = .fetch) → s.mem.read32 G.cfg.descOut.toNat = G.outW0
  out1 : 5 ≤ p → (p ≤ 18 ∨ s.units.dout.st = .fetch) → s.mem.read32 (G.cfg.descOut.toNat + 4) = G.pt
  in0 : 7 ≤ p → (p ≤ 17 ∨ s.units.din.st ≠ .idle) → s.mem.read32 G.cfg.descIn.toNat = G.inW0
  in1 : 8 ≤ p → (p ≤ 17 ∨ s.units.din.st = .fetch) → s.mem.read32 (G.cfg.descIn.toNat + 4) = G.ct
  core : 34 ≤ p → s.units.aes.key = G.key ∧ s.units.aes.n = G.bc ∧ s.units.aes.ctr = inc32^[s.units.aes.i.toNat] G.iv ∧
    s.units.aes.i.toNat ≤ G.bc.toNat ∧ (s.units.aes.st = .done → s.units.aes.i.toNat = G.bc.toNat)
  flow : 18 ≤ p → ∃ d r, Flow G p s d r

/-! segments -/

theorem seg_self (f : Nat → Byte) (a : Nat) : seg f a a = [] := by simp [seg]

theorem seg_append (f : Nat → Byte) (a b c : Nat) (h1 : a ≤ b) (h2 : b ≤ c) : seg f a b ++ seg f b c = seg f a c := by
  simp only [seg, ← List.map_append]
  congr 1
  obtain ⟨m, rfl⟩ := Nat.exists_eq_add_of_le h1
  obtain ⟨k, rfl⟩ := Nat.exists_eq_add_of_le h2
  rw [show a + m - a = m by omega, show a + m + k - (a + m) = k by omega, show a + m + k - a = m + k by omega]
  exact List.range'_append_1

theorem seg_cons (f : Nat → Byte) (a b : Nat) (h : a < b) : seg f a b = f a :: seg f (a + 1) b := by
  simp only [seg]
  rw [show b - a = (b - (a + 1)) + 1 by omega, List.range'_succ, List.map_cons]

theorem seg_snoc (f : Nat → Byte) (a b : Nat) (h : a ≤ b) : seg f a b ++ [f b] = seg f a (b + 1) := by
  rw [← seg_append f a b (b + 1) h (by omega), seg_cons f b (b + 1) (by omega), seg_self]

theorem seg_nil (f : Nat → Byte) (a b : Nat) (h : seg f a b = []) : b ≤ a := by
  simp [seg] at h; omega

theorem seg_length (f : Nat → Byte) (a b : Nat) : (seg f a b).length = b - a := by simp [seg]

theorem takeBlock_some {l : List Byte} {p : Block} {rest : List Byte} (h : takeBlock l = some (p, rest)) :
    l = p.toList ++ rest := by
  unfold takeBlock at h
  split at h
  · cases h; rfl
  · cases h

theorem takeBlock_length {l : List Byte} {p : Block} {rest : List Byte} (h : takeBlock l = some (p, rest)) :
    16 ≤ l.length := by
  rw [takeBlock_some h]; simp

/-- The block the AES makes of the next 16 bytes of the stream is the next block of the ciphertext. -/
theorem block_seg (G : Launch) (i d : Nat) (p : Block) (rest : List Byte)
    (h : seg G.plain (16 * i) d = p.toList ++ rest) (hd : 16 * i ≤ d) :
    16 * (i + 1) ≤ d ∧ rest = seg G.plain (16 * (i + 1)) d ∧
      (xorBlock p (G.stream i)).toList = seg G.cipher (16 * i) (16 * (i + 1)) := by
  have hl : 16 * (i + 1) ≤ d := by
    have := congrArg List.length h
    simp [seg_length] at this; omega
  rw [← seg_append G.plain (16 * i) (16 * (i + 1)) d (by omega) hl] at h
  have h2 := List.append_inj h (by simp [seg_length]; omega)
  refine ⟨hl, h2.2.symm, ?_⟩
  apply List.ext_getElem
  · simp [seg_length]; omega
  · intro j hj1 hj2
    have hj : j < 16 := by simpa using hj1
    have hp : p[j] = G.plain (16 * i + j) := by
      have : p.toList[j]'(by simpa using hj) = (seg G.plain (16 * i) (16 * (i + 1)))[j]'(by simp [seg_length]; omega) := by
        simp only [h2.1]
      simpa [seg] using this
    have e1 : (16 * i + j) / 16 = i := by omega
    have e2 : (16 * i + j) % 16 = j := by omega
    simp [seg, xorBlock, Launch.cipher, hp, e1, e2]

variable {G : Launch} {p : Nat} {s t : State} {i : Instr}

/-! ## The AES and DOUT -/

theorem Launch.Legal.length (hl : G.Legal) : (descLength G.bc).toNat = G.len := by
  rw [descLength_toNat, Launch.len]; have := hl.small; omega

theorem RunAt.ungated (h : RunAt G p s) (hp : 3 ≤ p) : aesGated s = false ∧ dmaGated s = false := by
  obtain ⟨c1, c2⟩ := h.clocks (by omega)
  obtain ⟨r1, r2⟩ := h.resets hp
  simp [aesGated, dmaGated, h.cfg, c1, c2, r1, r2]

theorem madeBlocks_lt (p : Nat) (u : Units) (h : p ≤ 33) : madeBlocks p u = 0 := by simp [madeBlocks, h]
theorem madeBlocks_ge (p : Nat) (u : Units) (h : 34 ≤ p) : madeBlocks p u = u.aes.i.toNat := by
  simp [madeBlocks]; omega

theorem RunAt.aes (hl : G.Legal) (h : RunAt G p s) : RunAt G p (aesMove s) := by
  unfold aesMove
  split
  · exact h
  · split
    · exact h
    · exact h
    · rename_i hst
      have hp : 34 ≤ p := by
        by_contra hp
        rw [h.aesIdle (by omega)] at hst; cases hst
      obtain ⟨k1, k2, k3, k4, k5⟩ := h.core hp
      obtain ⟨d, r, f⟩ := h.flow (by omega)
      have hm : madeBlocks p s.units = s.units.aes.i.toNat := madeBlocks_ge _ _ hp
      split
      · rename_i hlt
        split
        · rename_i blk rest htb
          have hlt : s.units.aes.i.toNat < G.bc.toNat := by rw [← k2]; exact BitVec.lt_def.1 hlt
          have hi : (s.units.aes.i + 1).toNat = s.units.aes.i.toNat + 1 := by
            have := hl.small; simp [BitVec.toNat_add]; omega
          have hq := f.qin
          rw [takeBlock_some htb, hm] at hq
          obtain ⟨g1, g2, g3⟩ := block_seg G _ d blk rest hq.symm (by have := f.sent; omega)
          have hm' : madeBlocks p (aesBlock blk rest s).units = s.units.aes.i.toNat + 1 := by
            rw [madeBlocks_ge _ _ hp]; exact hi
          refine { cfg := h.cfg, rom := h.rom, starts := h.starts, x := h.x, frame := h.frame, clocks := h.clocks,
                   resets := h.resets, aesIdle := fun _ => by omega, dinIdle := h.dinIdle, doutIdle := h.doutIdle,
                   qoutEmpty := fun _ _ => by omega, qinEmpty := fun _ _ => by omega, out0 := h.out0, out1 := h.out1,
                   in0 := h.in0, in1 := h.in1, linkIn := h.linkIn, linkOut := h.linkOut, regs := h.regs,
                   core := fun _ => ⟨k1, k2, ?_, ?_, ?_⟩, flow := fun _ => ⟨d, r, ?_⟩ }
          · show inc32 s.units.aes.ctr = inc32^[(s.units.aes.i + 1).toNat] G.iv
            rw [hi, Function.iterate_succ_apply', k3]
          · show (s.units.aes.i + 1).toNat ≤ _; omega
          · intro hd; exact absurd (hst.symm.trans hd) (by decide)
          · exact {
              sent := by rw [hm']; exact ⟨g1, f.sent.2⟩
              recvd := by rw [hm']; have := f.recvd; omega
              qin := by rw [hm']; exact g2
              qout := by
                rw [hm']
                show s.units.qout ++ _ = _
                rw [f.qout, hm, k1, k3]
                rw [show Config.aes128 G.key (inc32^[s.units.aes.i.toNat] G.iv) = G.stream s.units.aes.i.toNat from rfl, g3]
                exact seg_append _ _ _ _ (by have := f.recvd; omega) (by omega)
              eof := fun he => by have := f.eof he; omega
              stored := f.stored
              din := f.din
              dout := f.dout
              latched := f.latched
              complete := f.complete }
        · exact h
      · split
        · rename_i hn
          have hn : s.units.aes.i.toNat = G.bc.toNat := by rw [← k2, hn]
          have hm' : madeBlocks p (aesDone s).units = madeBlocks p s.units := rfl
          exact { cfg := h.cfg, rom := h.rom, starts := h.starts, x := h.x, frame := h.frame, clocks := h.clocks,
                  resets := h.resets, aesIdle := fun _ => by omega, dinIdle := h.dinIdle, doutIdle := h.doutIdle,
                  qoutEmpty := fun _ _ => by omega, qinEmpty := fun _ _ => by omega, out0 := h.out0, out1 := h.out1,
                  in0 := h.in0, in1 := h.in1, linkIn := h.linkIn, linkOut := h.linkOut, regs := h.regs,
                  core := fun _ => ⟨k1, k2, k3, k4, fun _ => hn⟩
                  flow := fun _ => ⟨d, r, {
           sent := f.sent, recvd := f.recvd, qin := f.qin, qout := f.qout,
                    eof := fun _ => by rw [hm', hm, hn], stored := f.stored, din := f.din, dout := f.dout,
                    latched := f.latched, complete := f.complete }⟩ }
        · exact h

theorem dmaReadEffect_quiet (a n : Nat) (s : State) (h : (dmaReadEffect a n s).ctl.chaos = false) :
    s.cfg.rangeInRegion a n = true ∧ dmaReadEffect a n s = s := by
  unfold dmaReadEffect at *
  split at h
  · simp_all
  · simp [setChaos] at h

theorem doutFetch_quiet (s : State) (h : (doutFetch s).ctl.chaos = false) :
    doutFetch s = s.setUnits { s.units with dout := { s.units.dout with
      w0 := s.mem.read32 s.units.dout.desc.toNat, buf := s.mem.read32 (s.units.dout.desc.toNat + 4), k := 0, st := .send } } := by
  simp only [doutFetch, State.setUnits_ctl] at h
  obtain ⟨h1, h2⟩ := dmaReadEffect_quiet _ _ _ h
  rw [h2] at h
  obtain ⟨h3, h4⟩ := dmaReadEffect_quiet _ _ _ h
  rw [h4] at h1 h2
  simp only [doutFetch, h4, h2, dmaWord, h3, h1, if_true]

theorem dinFetch_quiet (s : State) (h : (dinFetch s).ctl.chaos = false) :
    dinFetch s = s.setUnits { s.units with din := { s.units.din with
      w0 := s.mem.read32 s.units.din.desc.toNat, buf := s.mem.read32 (s.units.din.desc.toNat + 4), k := 0, st := .recv } } := by
  simp only [dinFetch, State.setUnits_ctl] at h
  obtain ⟨h1, h2⟩ := dmaReadEffect_quiet _ _ _ h
  rw [h2] at h
  obtain ⟨h3, h4⟩ := dmaReadEffect_quiet _ _ _ h
  rw [h4] at h1 h2
  simp only [dinFetch, h4, h2, dmaWord, h3, h1, if_true]

theorem dmaWriteWord_quiet (a : Nat) (v : Word) (s : State) (h : (dmaWriteWord a v s).ctl.chaos = false) :
    dmaWriteWord a v s = s.setMem (s.mem.write32 a v) := by
  unfold dmaWriteWord at *; split at h
  · simp_all
  · simp [setChaos] at h

theorem dmaWriteByte_quiet (a : Nat) (b : Byte) (s : State) (h : (dmaWriteByte a b s).ctl.chaos = false) :
    dmaWriteByte a b s = s.setMem (s.mem.write a b) := by
  unfold dmaWriteByte at *; split at h
  · simp_all
  · simp [setChaos] at h

theorem RunAt.dout (hl : G.Legal) (h : RunAt G p s) (hc : (doutMove s).ctl.chaos = false) : RunAt G p (doutMove s) := by
  unfold doutMove at hc ⊢
  split
  · exact h
  rename_i hg
  rw [if_neg hg] at hc
  by_cases hi : s.units.dout.st = .idle
  · simp only [hi]; exact h
  have hp : 19 ≤ p := by by_contra hp; exact hi (h.doutIdle (by omega))
  obtain ⟨d, r, f⟩ := h.flow (by omega)
  obtain ⟨hdesc, hdo⟩ : doutAt G s d := by have := f.dout; rwa [if_neg (by omega)] at this
  have hlen := hl.length
  split
  · exact h
  · -- fetch
    rename_i hst
    simp only [hst] at hc hdo
    rw [doutFetch_quiet _ hc, hdesc, h.out0 (by omega) (.inr hst), h.out1 (by omega) (.inr hst)]
    refine { cfg := h.cfg, rom := h.rom, starts := h.starts, x := h.x, frame := h.frame, clocks := h.clocks,
             resets := h.resets, aesIdle := h.aesIdle, dinIdle := h.dinIdle, doutIdle := fun _ => by omega,
             qoutEmpty := h.qoutEmpty, qinEmpty := fun _ _ => by omega, out0 := fun _ ho => ?_, out1 := fun _ ho => ?_,
             in0 := h.in0, in1 := h.in1, linkIn := h.linkIn, linkOut := h.linkOut, regs := h.regs, core := h.core,
             flow := fun _ => ⟨d, r, {
           sent := f.sent, recvd := f.recvd, qin := f.qin, qout := f.qout, eof := f.eof,
              stored := f.stored, din := f.din, latched := f.latched, complete := f.complete, dout := ?_ }⟩ }
    · rcases ho with ho | ho
      · omega
      · cases ho
    · rcases ho with ho | ho
      · omega
      · cases ho
    · rw [if_neg (by omega)]
      exact ⟨hdesc, rfl, rfl, by simp [hdo]⟩
  · -- send
    rename_i hst
    simp only [hst] at hc hdo
    obtain ⟨hw0, hbuf, hk⟩ := hdo
    have hL : (dwLength s.units.dout.w0).toNat = G.len := by
      rw [hw0, Launch.outW0, dwLength_dw0, hlen]
    unfold doutSend at hc ⊢
    simp only at hc ⊢
    by_cases hlt : s.units.dout.k < dwLength s.units.dout.w0
    · rw [if_pos hlt] at hc ⊢
      simp only [State.setUnits_ctl] at hc
      obtain ⟨h1, h2⟩ := dmaReadEffect_quiet _ _ _ hc
      have hlt' : d < G.len := by rw [← hk, ← hL]; exact BitVec.lt_def.1 hlt
      have hb : dmaByte (s.units.dout.buf.toNat + s.units.dout.k.toNat) s = G.plain d := by
        rw [dmaByte, if_pos h1, hbuf, hk]
        refine (h.frame _ ?_).trans rfl
        have p1 := hl.ptCt; have p2 := hl.ptOut; have p3 := hl.ptIn
        simp only [disjointRanges] at p1 p2 p3
        simp only [Launch.outside]
        omega
      have hk' : (s.units.dout.k + 1).toNat = d + 1 := by
        have := hl.small; simp only [Launch.len] at *; simp [BitVec.toNat_add, hk]; omega
      rw [h2, hb]
      refine { cfg := h.cfg, rom := h.rom, starts := h.starts, x := h.x, frame := h.frame, clocks := h.clocks,
               resets := h.resets, aesIdle := h.aesIdle, dinIdle := h.dinIdle, doutIdle := fun _ => by omega,
               qoutEmpty := h.qoutEmpty, qinEmpty := fun _ _ => by omega, out0 := fun _ ho => ?_, out1 := fun _ ho => ?_,
               in0 := h.in0, in1 := h.in1, linkIn := h.linkIn, linkOut := h.linkOut, regs := h.regs, core := h.core,
               flow := fun _ => ⟨d + 1, r, {
           sent := ⟨by have := f.sent.1; exact Nat.le_succ_of_le this, hlt'⟩, recvd := f.recvd, qin := ?_, qout := f.qout, eof := f.eof,
                stored := f.stored, din := f.din, latched := f.latched, complete := f.complete, dout := ?_ }⟩ }
      · exact h.out0 (by omega) (ho.imp id fun ho => absurd (hst.symm.trans ho) (by decide))
      · exact h.out1 (by omega) (ho.imp id fun ho => absurd (hst.symm.trans ho) (by decide))
      · show s.units.qin ++ [G.plain d] = _
        rw [f.qin]; exact seg_snoc _ _ _ f.sent.1
      · rw [if_neg (by omega)]
        refine ⟨hdesc, ?_⟩
        show match s.units.dout.st with | .idle => _ | .fetch => _ | .send => _ | .wb => _
        simp only [hst]
        exact ⟨hw0, hbuf, hk'⟩
    · rw [if_neg hlt] at hc ⊢
      have hd : d = G.len := by
        have h1 := f.sent.2
        have h2 : ¬ s.units.dout.k.toNat < (dwLength s.units.dout.w0).toNat := fun hh => hlt (BitVec.lt_def.2 hh)
        rw [hL, hk] at h2; omega
      refine { cfg := h.cfg, rom := h.rom, starts := h.starts, x := h.x, frame := h.frame, clocks := h.clocks,
               resets := h.resets, aesIdle := h.aesIdle, dinIdle := h.dinIdle, doutIdle := fun _ => by omega,
               qoutEmpty := h.qoutEmpty, qinEmpty := fun _ _ => by omega, out0 := fun _ ho => ?_, out1 := fun _ ho => ?_,
               in0 := h.in0, in1 := h.in1, linkIn := h.linkIn, linkOut := h.linkOut, regs := h.regs, core := h.core,
               flow := fun _ => ⟨d, r, {
           sent := f.sent, recvd := f.recvd, qin := f.qin, qout := f.qout, eof := f.eof,
                stored := f.stored, din := f.din, latched := f.latched, complete := f.complete, dout := ?_ }⟩ }
      · rcases ho with ho | ho
        · omega
        · cases ho
      · rcases ho with ho | ho
        · omega
        · cases ho
      · rw [if_neg (by omega)]; exact ⟨hdesc, hw0, hd⟩
  · -- write-back
    rename_i hst
    simp only [hst] at hc hdo
    obtain ⟨hw0, hd⟩ := hdo
    have hs : dwSucEof s.units.dout.w0 = true := by rw [hw0, Launch.outW0, dwSucEof_dw0]
    unfold doutEnd at hc ⊢
    simp only [hs, Bool.not_true, chaosIf, Bool.false_eq_true, if_false] at hc ⊢
    have key : ∀ m : Memory, (∀ a, (a < G.cfg.descOut.toNat ∨ G.cfg.descOut.toNat + 4 ≤ a) → m.read a = s.mem.read a) →
        RunAt G p ((s.setMem m).setUnits { (s.setMem m).units with dout := { (s.setMem m).units.dout with st := .idle } }) := by
      intro m hm
      have hdis := Params.wf_descDisjoint hl.wf
      have hr : ∀ a, (a + 4 ≤ G.cfg.descOut.toNat ∨ G.cfg.descOut.toNat + 4 ≤ a) → m.read32 a = s.mem.read32 a := by
        intro a ha
        unfold Memory.read32
        rw [hm _ (by omega), hm _ (by omega), hm _ (by omega), hm _ (by omega)]
      have i0 : m.read32 G.cfg.descIn.toNat = s.mem.read32 G.cfg.descIn.toNat := hr _ (by omega)
      refine { cfg := h.cfg, rom := h.rom, starts := h.starts, x := h.x, frame := fun a ha => ?_, clocks := h.clocks,
               resets := h.resets, aesIdle := h.aesIdle, dinIdle := h.dinIdle, doutIdle := fun _ => by omega,
               qoutEmpty := h.qoutEmpty, qinEmpty := fun _ _ => by omega, out0 := fun _ ho => ?_, out1 := fun _ ho => ?_,
               in0 := fun hp ho => i0.trans (h.in0 hp ho), in1 := fun hp ho => (hr _ (by omega)).trans (h.in1 hp ho), linkIn := h.linkIn, linkOut := h.linkOut, regs := h.regs, core := h.core,
               flow := fun _ => ⟨d, r, {
           sent := f.sent, recvd := f.recvd, qin := f.qin, qout := f.qout, eof := f.eof,
                stored := fun j hj => ?_, din := ?_, latched := f.latched, complete := f.complete, dout := ?_ }⟩ }
      · rw [← h.frame a ha]
        simp only [Launch.outside] at ha
        exact hm _ (by omega)
      · rcases ho with ho | ho
        · omega
        · cases ho
      · rcases ho with ho | ho
        · omega
        · cases ho
      · rw [← f.stored j hj]
        have := hl.ctOut; have h1 := f.recvd; have h2 := f.sent
        simp only [disjointRanges] at this
        exact hm _ (by omega)
      · have := f.din
        unfold dinAt at this ⊢
        show _ ∧ match s.units.din.st with | .idle => _ ∨ errorWord (m.read32 _) | .fetch => _ | .recv => _ | .wb => _
        rw [i0]; exact this
      · rw [if_neg (by omega)]; exact ⟨hdesc, hd⟩
    split
    · rename_i hwb
      rw [if_pos hwb] at hc
      rw [dmaWriteWord_quiet _ _ _ hc]
      refine key _ fun a ha => ?_
      rw [hdesc]; exact Memory.read_write32_outside _ _ _ _ ha
    · exact key s.mem fun _ _ => rfl

/-! ## DIN -/

/-- The end of DIN: its descriptor word rewritten to `w`, the unit idle. -/
theorem RunAt.dinEnd (hl : G.Legal) (h : RunAt G p s) (hst : s.units.din.st = .recv) (w : Word) (e : Bool)
    (he : e = true → s.units.qoutEof = true)
    (hw : (∀ d r, Flow G p s d r → r = G.len) ∨ errorWord w) :
    RunAt G p ((s.setMem (s.mem.write32 G.cfg.descIn.toNat w)).setUnits
      { s.units with qoutEof := e, din := { s.units.din with st := .idle } }) := by
  have hp : 18 ≤ p := by
    by_contra hp; rw [h.dinIdle (by omega)] at hst; cases hst
  obtain ⟨d, r, f⟩ := h.flow hp
  have hdis := Params.wf_descDisjoint hl.wf
  have hr : ∀ a, (a + 4 ≤ G.cfg.descIn.toNat ∨ G.cfg.descIn.toNat + 4 ≤ a) →
      (s.mem.write32 G.cfg.descIn.toNat w).read32 a = s.mem.read32 a :=
    fun a ha => Memory.read32_write32_outside _ _ _ _ ha
  have hdesc := f.din.1
  refine { cfg := h.cfg, rom := h.rom, starts := h.starts, x := h.x, frame := fun a ha => ?_, clocks := h.clocks,
           resets := h.resets, aesIdle := h.aesIdle, dinIdle := fun _ => rfl, doutIdle := h.doutIdle,
           qoutEmpty := fun h1 h2 => ⟨(h.qoutEmpty h1 h2).1, ?_⟩, qinEmpty := h.qinEmpty,
           out0 := fun hp ho => (hr _ (by omega)).trans (h.out0 hp ho),
           out1 := fun hp ho => (hr _ (by omega)).trans (h.out1 hp ho),
           in0 := fun _ ho => ?_, in1 := fun _ ho => ?_, linkIn := h.linkIn, linkOut := h.linkOut, regs := h.regs,
           core := h.core,
           flow := fun _ => ⟨d, r, {
             sent := f.sent, recvd := f.recvd, qin := f.qin, qout := f.qout, eof := fun hx => f.eof (he hx),
             stored := fun j hj => ?_, din := ⟨hdesc, ?_⟩, dout := f.dout, latched := fun h36 => ?_,
             complete := fun h37 => ?_ }⟩ }
  · rw [← h.frame a ha]
    simp only [Launch.outside] at ha
    exact Memory.read_write32_outside _ _ _ _ (by omega)
  · show e = false
    cases e
    · rfl
    · have := he rfl; rw [(h.qoutEmpty h1 h2).2] at this; cases this
  · rcases ho with ho | ho
    · omega
    · exact absurd rfl ho
  · rcases ho with ho | ho
    · omega
    · cases ho
  · rw [← f.stored j hj]
    have := hl.ctIn; have h1 := f.recvd; have h2 := f.sent
    simp only [disjointRanges] at this
    exact Memory.read_write32_outside _ _ _ _ (by omega)
  · show r = G.len ∨ errorWord ((s.mem.write32 G.cfg.descIn.toNat w).read32 G.cfg.descIn.toNat)
    rw [Memory.read32_write32_same]
    exact hw.imp_left fun hw => hw d r f
  · rcases f.latched h36 with h1 | ⟨h1, _⟩
    · exact .inl h1
    · rw [hst] at h1; cases h1
  · have := (f.complete h37).1
    rw [hst] at this; cases this

theorem RunAt.din (hl : G.Legal) (h : RunAt G p s) (hc : (dinMove s).ctl.chaos = false) : RunAt G p (dinMove s) := by
  unfold dinMove at hc ⊢
  split
  · exact h
  rename_i hg
  rw [if_neg hg] at hc
  by_cases hi : s.units.din.st = .idle
  · simp only [hi]; exact h
  have hp : 18 ≤ p := by by_contra hp; exact hi (h.dinIdle (by omega))
  obtain ⟨d, r, f⟩ := h.flow hp
  obtain ⟨hdesc, hdi⟩ := f.din
  have hlen := hl.length
  have hnotc : ¬ 37 ≤ p := fun h37 => hi (f.complete h37).1
  have hlat : p = 36 → dwErrEof (s.xval .dw0) = true := fun h36 => (f.latched h36).resolve_right fun hh => hi hh.1
  split
  · exact h
  · exact h
  · -- fetch
    rename_i hst
    simp only [hst] at hc hdi
    rw [dinFetch_quiet _ hc, hdesc, h.in0 (by omega) (.inr hi), h.in1 (by omega) (.inr hst)]
    refine { cfg := h.cfg, rom := h.rom, starts := h.starts, x := h.x, frame := h.frame, clocks := h.clocks,
             resets := h.resets, aesIdle := h.aesIdle, dinIdle := fun _ => by omega, doutIdle := h.doutIdle,
             qoutEmpty := h.qoutEmpty, qinEmpty := h.qinEmpty, out0 := h.out0, out1 := h.out1,
             in0 := fun _ _ => h.in0 (by omega) (.inr hi), in1 := fun _ _ => h.in1 (by omega) (.inr hst),
             linkIn := h.linkIn, linkOut := h.linkOut, regs := h.regs, core := h.core,
             flow := fun _ => ⟨d, r, {
               sent := f.sent, recvd := f.recvd, qin := f.qin, qout := f.qout, eof := f.eof,
               stored := f.stored, din := ⟨hdesc, ?_⟩, latched := fun h36 => .inl (hlat h36),
               complete := fun h37 => absurd h37 hnotc, dout := f.dout }⟩ }
    show G.inW0 = G.inW0 ∧ G.ct = G.ct ∧ (0 : BitVec 12).toNat = r
    exact ⟨rfl, rfl, by simp [hdi]⟩
  · -- receive
    rename_i hst
    simp only [hst] at hc hdi
    obtain ⟨hw0, hbuf, hk⟩ := hdi
    have hS : (dwSize s.units.din.w0).toNat = G.len := by
      rw [hw0, Launch.inW0, dwSize_dw0, hlen]
    split
    · rename_i b rest hq
      simp only [hq] at hc
      unfold dinReceive at hc ⊢
      simp only at hc ⊢
      by_cases hlt : s.units.din.k < dwSize s.units.din.w0
      · rw [if_pos hlt] at hc ⊢
        simp only [State.setUnits_ctl] at hc
        rw [dmaWriteByte_quiet _ _ _ hc]
        have hqo := f.qout
        rw [hq] at hqo
        have hr1 : r < 16 * madeBlocks p s.units := by
          by_contra hge
          rw [show 16 * madeBlocks p s.units = r by have := f.recvd; omega, seg_self] at hqo; cases hqo
        rw [seg_cons _ _ _ hr1] at hqo
        injection hqo with hb hrest
        have hm : 16 * madeBlocks p s.units ≤ G.len := le_trans f.sent.1 f.sent.2
        have hk' : (s.units.din.k + 1).toNat = r + 1 := by
          have := hl.small; simp only [Launch.len] at *; simp [BitVec.toNat_add, hk]; omega
        have q1 := hl.ptCt; have q2 := hl.ctOut; have q3 := hl.ctIn
        simp only [disjointRanges] at q1 q2 q3
        have hr : ∀ a, (a + 4 ≤ G.ct.toNat ∨ G.ct.toNat + G.len ≤ a) →
            (s.mem.write (s.units.din.buf.toNat + s.units.din.k.toNat) b).read32 a = s.mem.read32 a := by
          intro a ha
          rw [hbuf, hk]
          exact Memory.read32_write_outside _ _ _ _ (by omega)
        have i0 := hr G.cfg.descIn.toNat (by omega)
        refine { cfg := h.cfg, rom := h.rom, starts := h.starts, x := h.x, frame := fun a ha => ?_, clocks := h.clocks,
                 resets := h.resets, aesIdle := h.aesIdle, dinIdle := fun _ => by omega, doutIdle := h.doutIdle,
                 qoutEmpty := fun h1 h2 => ?_, qinEmpty := h.qinEmpty,
                 out0 := fun hp ho => (hr _ (by omega)).trans (h.out0 hp ho),
                 out1 := fun hp ho => (hr _ (by omega)).trans (h.out1 hp ho),
                 in0 := fun hp ho => i0.trans (h.in0 hp ho), in1 := fun hp ho => (hr _ (by omega)).trans (h.in1 hp ho),
                 linkIn := h.linkIn, linkOut := h.linkOut, regs := h.regs, core := h.core,
                 flow := fun _ => ⟨d, r + 1, {
                   sent := f.sent, recvd := hr1, qin := f.qin, qout := hrest, eof := f.eof,
                   stored := fun j hj => ?_, din := ⟨hdesc, ?_⟩, latched := fun h36 => .inl (hlat h36),
                   complete := fun h37 => absurd h37 hnotc, dout := f.dout }⟩ }
        · rw [← h.frame a ha]
          simp only [Launch.outside] at ha
          show (s.mem.write _ b).read a = _
          rw [hbuf, hk]
          exact Memory.read_write_of_ne _ _ _ _ (by omega)
        · have := (h.qoutEmpty h1 h2).1; rw [hq] at this; cases this
        · show (s.mem.write _ b).read _ = _
          rw [hbuf, hk, Memory.read_write]
          split
          · rename_i heq; rw [hb]; congr 1; omega
          · exact f.stored j (by omega)
        · show match s.units.din.st with
            | .idle => _ | .fetch => _ | .recv => _ | .wb => _
          simp only [hst]
          exact ⟨hw0, hbuf, hk'⟩
      · rw [if_neg hlt] at hc; simp [setChaos] at hc
    · rename_i hq
      simp only [hq] at hc
      split
      · rename_i heof
        rw [if_pos heof] at hc
        simp only [dinSuccess, State.setUnits_ctl] at hc ⊢
        rw [dmaWriteWord_quiet _ _ _ hc]
        have := RunAt.dinEnd hl h hst (dw0 (dwSize s.units.din.w0) s.units.din.k false true false) false (by simp)
          (.inl fun d r f => by
            have h1 := f.qout; rw [hq] at h1
            have h2 := seg_nil _ _ _ h1.symm
            have h3 := f.eof heof
            have h4 := f.recvd
            rw [h3] at h2 h4; simp only [Launch.len]; omega)
        rw [← hdesc] at this
        exact this
      · exact h

theorem RunAt.dinErr (hl : G.Legal) (h : RunAt G p s) (hc : (dinErrorMove s).ctl.chaos = false) :
    RunAt G p (dinErrorMove s) := by
  unfold dinErrorMove at hc ⊢
  split
  · rename_i he
    rw [if_pos he] at hc
    simp only [dinFail, State.setUnits_ctl] at hc ⊢
    have hst : s.units.din.st = .recv := by simp [dinErrorEnabled] at he; exact he.2
    have hp : 18 ≤ p := by
      by_contra hp; rw [h.dinIdle (by omega)] at hst; cases hst
    obtain ⟨d, r, f⟩ := h.flow hp
    rw [dmaWriteWord_quiet _ _ _ hc]
    have := RunAt.dinEnd hl h hst (dw0 (dwSize s.units.din.w0) s.units.din.k true false false) s.units.qoutEof id (.inr ⟨dwErrEof_dw0 _ _ _ _ _, dwSucEof_dw0 _ _ _ _ _⟩)
    rw [← f.din.1] at this
    exact this
  · exact h

end Sys2Proof.Machine
end

