-- ==== Sys2Proof/Laws/RunSteps.lean ====
section
/-! SUPPORT. The micro-ops of the ROM (30_encoding.md R96) keep what Laws/RunMoves.lean says of a run: one lemma for each kind of
micro-op, then the invariant of a whole run. -/

namespace Sys2Proof.Machine

variable {G : Launch} {p : Nat} {s t : State} {i : Instr}

/-! ## Registers -/

/-- The micro-op at ROM index `n` (R96). -/
def romOp (n : Nat) : Option Instr := (seqRom[n]?).bind fun u => (decode u).toOption

theorem romOp_of {u : Byte} {n : Nat} (h : seqRom[n]? = some u) (hd : decode u = .ok i) : romOp n = some i := by
  simp [romOp, h, hd, Except.toOption]

/-- Each register with a rule of its own is written at its places of the ROM only. -/
theorem romOp_writes : ∀ n : Fin 38,
    ((romOp n).bind writtenReg = some .sysClkEn → n.val = 1) ∧ ((romOp n).bind writtenReg = some .sysRstEn → n.val = 2) ∧
      ((romOp n).bind writtenReg = some .dmaInLink → n.val = 13 ∨ n.val = 17) ∧
      ((romOp n).bind writtenReg = some .dmaOutLink → n.val = 14 ∨ n.val = 18) := by
  decide

theorem romOp_programs : ∀ n : Fin 38, ∀ e ∈ programmed, (romOp n).bind writtenReg = some e.1 → n.val + 1 = e.2.2 := by
  decide

theorem exec_link {i : Instr} {s t : State} (h : exec i s = .next t) (r : PReg) (hr : r = .dmaInLink ∨ r = .dmaOutLink) :
    regGet t.per r = regGet s.per r ∨ ∃ v, regGet t.per r = storedValue s.cfg r v := by
  by_cases hw : writtenReg i = some r
  · right
    rcases hr with rfl | rfl
    · cases i <;> simp [writtenReg] at hw
      case aesKey n => rcases keyReg_cases n with h | h | h | h <;> simp [h] at hw
      case aesIv n => rcases ivReg_cases n with h | h | h | h <;> simp [h] at hw
      all_goals cases h; exact ⟨_, by simp; rfl⟩
    · cases i <;> simp [writtenReg] at hw
      case aesKey n => rcases keyReg_cases n with h | h | h | h <;> simp [h] at hw
      case aesIv n => rcases ivReg_cases n with h | h | h | h <;> simp [h] at hw
      all_goals cases h; exact ⟨_, by simp; rfl⟩
  · exact .inl (exec_reg h r hw)

/-- R34: no micro-op leaves a start bit set. -/
theorem exec_startBitsZero (h : exec i s = .next t) (hs : startBitsZero s) : startBitsZero t := by
  have fc := (exec_fixed h).1
  constructor
  · rcases exec_link h .dmaInLink (.inl rfl) with e | ⟨v, e⟩ <;> simp only [regGet] at e <;> rw [fc, e]
    · exact hs.1
    · simp [storedValue]
  · rcases exec_link h .dmaOutLink (.inr rfl) with e | ⟨v, e⟩ <;> simp only [regGet] at e <;> rw [fc, e]
    · exact hs.2
    · simp [storedValue]

theorem mask_field {m v d M : Word} {n : Fin 32} (hb : bitOf M n = false) (hv : v = (m &&& ~~~M) ||| (d &&& M)) :
    (v &&& ~~~bitMask n) &&& M = d &&& M := by
  have h0 := bitMask_and_linkMask hb
  subst hv
  ext j hj
  have := congrArg (fun w : Word => w[j]) h0
  simp at this
  simp
  cases hM : M[j] <;> cases hN : (bitMask n)[j] <;> simp_all

theorem RegsAt.ungated (h : RegsAt G p s) (hp : 3 ≤ p) : aesGated s = false ∧ dmaGated s = false := by
  obtain ⟨c1, c2⟩ := h.clocks (by omega)
  obtain ⟨r1, r2⟩ := h.resets hp
  simp [aesGated, dmaGated, h.cfg, c1, c2, r1, r2]

theorem RegsAt.next (hl : G.Legal) (h : RegsAt G p s) (hp : p ≤ 37) (ho : romOp p = some i) (he : exec i s = .next t) :
    RegsAt G (p + 1) t := by
  obtain ⟨fc, fr⟩ := exec_fixed he
  have W := romOp_writes ⟨p, by omega⟩
  simp only [ho, Option.bind_some] at W
  obtain ⟨w1, w2, w3, w4⟩ := W
  have hx : ∀ r, r ≠ .pollcnt → r ≠ .dw0 → r ≠ .tmp → t.xval r = G.val r := by
    intro r h1 h2 h3
    rw [State.xval, exec_x he r ⟨h1, h2, h3⟩]
    exact h.x r h1 h2 h3
  refine { cfg := fc.trans h.cfg, rom := fr.trans h.rom, starts := exec_startBitsZero he h.starts, x := hx,
           clocks := fun h2 => ?_, resets := fun h3 => ?_, linkIn := fun h1 h2 => ?_, linkOut := fun h1 h2 => ?_,
           regs := fun e hmem h1 h2 => ?_ }
  · by_cases hp1 : p = 1
    · subst hp1
      have : i = .clkEn := by have : romOp 1 = some .clkEn := by decide
                              rw [this] at ho; cases ho; rfl
      subst this
      cases he
      rw [← h.cfg]
      simp [regSet, storedValue]
    · have := exec_reg he .sysClkEn (fun hh => hp1 (w1 hh))
      simp only [regGet] at this
      rw [this]; exact h.clocks (by omega)
  · by_cases hp2 : p = 2
    · subst hp2
      have : i = .clkRstclr := by have : romOp 2 = some .clkRstclr := by decide
                                  rw [this] at ho; cases ho; rfl
      subst this
      cases he
      simp [aesHeld, dmaHeld, regSet, storedValue]
    · have := exec_reg he .sysRstEn (fun hh => hp2 (w2 hh))
      simp only [regGet] at this
      obtain ⟨r1, r2⟩ := h.resets (by omega)
      exact ⟨by simpa [aesHeld, this, fc] using r1, by simpa [dmaHeld, this, fc] using r2⟩
  · by_cases hp2 : p = 13
    · subst hp2
      have : i = .dmaInLink := by have : romOp 13 = some .dmaInLink := by decide
                                  rw [this] at ho; cases ho; rfl
      subst this
      cases he
      simp only [advance_per, regModify_per, regSet, storedValue, h.cfg]
      exact mask_field (Params.wf_startOutsideMask hl.wf).1 rfl
    · have := exec_reg he .dmaInLink (fun hh => by have := w3 hh; omega)
      simp only [regGet] at this
      rw [this]; exact h.linkIn (by omega) (by omega)
  · by_cases hp2 : p = 14
    · subst hp2
      have : i = .dmaOutLink := by have : romOp 14 = some .dmaOutLink := by decide
                                   rw [this] at ho; cases ho; rfl
      subst this
      cases he
      simp only [advance_per, regModify_per, regSet, storedValue, h.cfg]
      exact mask_field (Params.wf_startOutsideMask hl.wf).2 rfl
    · have := exec_reg he .dmaOutLink (fun hh => by have := w4 hh; omega)
      simp only [regGet] at this
      rw [this]; exact h.linkOut (by omega) (by omega)
  · by_cases hw : writtenReg i = some e.1
    · have hpe := romOp_programs ⟨p, by omega⟩ e hmem (by simp only [ho, Option.bind_some]; exact hw)
      simp only at hpe
      simp only [programmed, List.mem_cons, List.not_mem_nil, or_false] at hmem
      have key : ∀ (r : PReg) (q : XReg), isPlainReg r = true → q ≠ .pollcnt → q ≠ .dw0 → q ≠ .tmp →
          regGet (regWrite r (s.xval q) (noteRead q s)).per r = G.val q := by
        intro r q hpl a b c
        rw [regWrite_per, regGet_regSet_same]
        have : storedValue (noteRead q s).cfg r (s.xval q) = s.xval q := by cases r <;> first | rfl | cases hpl
        rw [this]; exact h.x q a b c
      rcases hmem with rfl | rfl | rfl | rfl | rfl | rfl | rfl | rfl | rfl <;> simp only at hpe <;>
        obtain rfl : p = _ := Nat.succ_injective hpe
      · obtain rfl : i = .aesKey 0 := by have : romOp 22 = some (.aesKey 0) := by decide
                                         rw [this] at ho; cases ho; rfl
        cases he; exact key .aesKey0 .key0 rfl (by decide) (by decide) (by decide)
      · obtain rfl : i = .aesKey 1 := by have : romOp 23 = some (.aesKey 1) := by decide
                                         rw [this] at ho; cases ho; rfl
        cases he; exact key .aesKey1 .key1 rfl (by decide) (by decide) (by decide)
      · obtain rfl : i = .aesKey 2 := by have : romOp 24 = some (.aesKey 2) := by decide
                                         rw [this] at ho; cases ho; rfl
        cases he; exact key .aesKey2 .key2 rfl (by decide) (by decide) (by decide)
      · obtain rfl : i = .aesKey 3 := by have : romOp 25 = some (.aesKey 3) := by decide
                                         rw [this] at ho; cases ho; rfl
        cases he; exact key .aesKey3 .key3 rfl (by decide) (by decide) (by decide)
      · obtain rfl : i = .aesBlknum := by have : romOp 27 = some .aesBlknum := by decide
                                          rw [this] at ho; cases ho; rfl
        cases he; exact key .aesBlockNum .bc rfl (by decide) (by decide) (by decide)
      · obtain rfl : i = .aesIv 0 := by have : romOp 29 = some (.aesIv 0) := by decide
                                        rw [this] at ho; cases ho; rfl
        cases he; exact key .aesIv0 .iv0 rfl (by decide) (by decide) (by decide)
      · obtain rfl : i = .aesIv 1 := by have : romOp 30 = some (.aesIv 1) := by decide
                                        rw [this] at ho; cases ho; rfl
        cases he; exact key .aesIv1 .iv1 rfl (by decide) (by decide) (by decide)
      · obtain rfl : i = .aesIv 2 := by have : romOp 31 = some (.aesIv 2) := by decide
                                        rw [this] at ho; cases ho; rfl
        cases he; exact key .aesIv2 .iv2 rfl (by decide) (by decide) (by decide)
      · obtain rfl : i = .aesIv 3 := by have : romOp 32 = some (.aesIv 3) := by decide
                                        rw [this] at ho; cases ho; rfl
        cases he; exact key .aesIv3 .iv3 rfl (by decide) (by decide) (by decide)
    · rw [exec_reg he _ hw]
      have hne : p + 1 ≠ e.2.2 ∨ p + 1 = e.2.2 := by omega
      rcases hne with hne | heq
      · exact h.regs e hmem (by omega) (by omega)
      · exfalso
        have : ∀ n : Fin 38, ∀ e ∈ programmed, n.val + 1 = e.2.2 → (romOp n).bind writtenReg = some e.1 := by decide
        have := this ⟨p, by omega⟩ e hmem heq
        simp only [ho, Option.bind_some] at this
        exact hw this

/-! ## Memory and the agents -/

theorem madeBlocks_next (u : Units) (h : p ≠ 33) : madeBlocks (p + 1) u = madeBlocks p u := by
  unfold madeBlocks
  by_cases h1 : p ≤ 33
  · rw [if_pos h1, if_pos (by omega)]
  · rw [if_neg h1, if_neg (by omega)]

/-- A micro-op that leaves the agents and memory alone. -/
theorem RunAt.plain (h : RunAt G p s) (hr : RegsAt G (p + 1) t) (hu : t.units = s.units) (hm : t.mem = s.mem)
    (hp : p < 3 ∨ p = 10 ∨ 12 ≤ p ∧ p ≤ 16 ∨ 19 ≤ p ∧ p ≤ 32 ∨ 34 ≤ p)
    (hL : p = 35 → ∀ r, dinAt G s r → dwErrEof (t.xval .dw0) = true ∨ (s.units.din.st = .idle ∧ r = G.len))
    (hC : p = 36 → dwErrEof (s.xval .dw0) = false) : RunAt G (p + 1) t := by
  refine { toRegsAt := hr, frame := ?_, aesIdle := ?_, dinIdle := ?_, doutIdle := ?_, qoutEmpty := ?_, qinEmpty := ?_,
           out0 := ?_, out1 := ?_, in0 := ?_, in1 := ?_, core := ?_, flow := ?_ }
  all_goals try simp only [hu, hm]
  · exact h.frame
  · exact fun _ => h.aesIdle (by omega)
  · exact fun _ => h.dinIdle (by omega)
  · exact fun _ => h.doutIdle (by omega)
  · exact fun _ _ => h.qoutEmpty (by omega) (by omega)
  · exact fun _ _ => h.qinEmpty (by omega) (by omega)
  · exact fun _ ho => h.out0 (by omega) (ho.imp_left fun _ => by omega)
  · exact fun _ ho => h.out1 (by omega) (ho.imp_left fun _ => by omega)
  · exact fun _ ho => h.in0 (by omega) (ho.imp_left fun _ => by omega)
  · exact fun _ ho => h.in1 (by omega) (ho.imp_left fun _ => by omega)
  · exact fun _ => h.core (by omega)
  · intro _
    obtain ⟨d, r, f⟩ := h.flow (by omega)
    have hmb : madeBlocks (p + 1) t.units = madeBlocks p s.units := by rw [hu, madeBlocks_next _ (by omega)]
    refine ⟨d, r, { sent := ?_, recvd := ?_, qin := ?_, qout := ?_, eof := ?_, stored := ?_, din := ?_, dout := ?_,
                    latched := ?_, complete := ?_ }⟩
    · rw [hmb]; exact f.sent
    · rw [hmb]; exact f.recvd
    · rw [hmb, hu]; exact f.qin
    · rw [hmb, hu]; exact f.qout
    · rw [hmb, hu]; exact f.eof
    · rw [hm]; exact f.stored
    · have := f.din; unfold dinAt at *; rw [hu, hm]; exact this
    · have := f.dout
      rw [if_neg (by omega)] at this ⊢
      unfold doutAt at *; rw [hu]; exact this
    · intro h36; rw [hu]; exact hL (by omega) r f.din
    · intro h37
      rw [hu]
      by_cases h36 : p = 36
      · rcases f.latched h36 with hh | hh
        · rw [hC h36] at hh; cases hh
        · exact hh
      · exact f.complete (by omega)

/-- A micro-op that stores one word of a descriptor. -/
theorem RunAt.stores (hl : G.Legal) (h : RunAt G p s) (hr : RegsAt G (p + 1) t) (hu : t.units = s.units) (a : Nat) (v : Word)
    (hm : t.mem = s.mem.write32 a v)
    (hp : p = 3 ∧ a = G.cfg.descOut.toNat ∧ v = G.outW0 ∨ p = 4 ∧ a = G.cfg.descOut.toNat + 4 ∧ v = G.pt ∨
      p = 5 ∧ a = G.cfg.descOut.toNat + 8 ∨ p = 6 ∧ a = G.cfg.descIn.toNat ∧ v = G.inW0 ∨
      p = 7 ∧ a = G.cfg.descIn.toNat + 4 ∧ v = G.ct ∨ p = 8 ∧ a = G.cfg.descIn.toNat + 8) : RunAt G (p + 1) t := by
  have hdis := Params.wf_descDisjoint hl.wf
  have hp2 : 3 ≤ p ∧ p ≤ 8 := by omega
  have hr32 : ∀ b, (b + 4 ≤ a ∨ a + 4 ≤ b) → t.mem.read32 b = s.mem.read32 b := by
    intro b hb; rw [hm]; exact Memory.read32_write32_outside _ _ _ _ hb
  have hsame : t.mem.read32 a = v := by rw [hm]; exact Memory.read32_write32_same _ _ _
  refine { toRegsAt := hr, frame := ?_, aesIdle := ?_, dinIdle := ?_, doutIdle := ?_, qoutEmpty := ?_, qinEmpty := ?_,
           out0 := ?_, out1 := ?_, in0 := ?_, in1 := ?_, core := ?_, flow := ?_ }
  · intro b hb
    rw [← h.frame b hb, hm]
    simp only [Launch.outside] at hb
    exact Memory.read_write32_outside _ _ _ _ (by omega)
  · rw [hu]; exact fun _ => h.aesIdle (by omega)
  · rw [hu]; exact fun _ => h.dinIdle (by omega)
  · rw [hu]; exact fun _ => h.doutIdle (by omega)
  · exact fun _ _ => by omega
  · exact fun _ _ => by omega
  · intro h1 _
    by_cases ha : p = 3
    · rw [show G.cfg.descOut.toNat = a by omega, hsame]; rcases hp with hp | hp | hp | hp | hp | hp <;> simp_all
    · rw [hr32 _ (by omega)]; exact h.out0 (by omega) (.inl (by omega))
  · intro h1 _
    by_cases ha : p = 4
    · rw [show G.cfg.descOut.toNat + 4 = a by omega, hsame]; rcases hp with hp | hp | hp | hp | hp | hp <;> simp_all
    · rw [hr32 _ (by omega)]; exact h.out1 (by omega) (.inl (by omega))
  · intro h1 _
    by_cases ha : p = 6
    · rw [show G.cfg.descIn.toNat = a by omega, hsame]; rcases hp with hp | hp | hp | hp | hp | hp <;> simp_all
    · rw [hr32 _ (by omega)]; exact h.in0 (by omega) (.inl (by omega))
  · intro h1 _
    by_cases ha : p = 7
    · rw [show G.cfg.descIn.toNat + 4 = a by omega, hsame]; rcases hp with hp | hp | hp | hp | hp | hp <;> simp_all
    · rw [hr32 _ (by omega)]; exact h.in1 (by omega) (.inl (by omega))
  · exact fun _ => by omega
  · exact fun _ => by omega

/-- The resets of the two sub-channels. -/
theorem RunAt.resetUnits (h : RunAt G p s) (hr : RegsAt G (p + 1) t) (hm : t.mem = s.mem)
    (hp : p = 9 ∧ t.units = dinReset s.units ∨ p = 11 ∧ t.units = doutReset s.units) : RunAt G (p + 1) t := by
  refine { toRegsAt := hr, frame := ?_, aesIdle := ?_, dinIdle := ?_, doutIdle := ?_, qoutEmpty := ?_, qinEmpty := ?_,
           out0 := ?_, out1 := ?_, in0 := ?_, in1 := ?_, core := ?_, flow := ?_ }
  all_goals try simp only [hm]
  · exact h.frame
  · intro _; rcases hp with ⟨hp, hu⟩ | ⟨hp, hu⟩ <;> rw [hu] <;> exact h.aesIdle (by omega)
  · intro _; rcases hp with ⟨hp, hu⟩ | ⟨hp, hu⟩ <;> rw [hu]
    · rfl
    · exact h.dinIdle (by omega)
  · intro _; rcases hp with ⟨hp, hu⟩ | ⟨hp, hu⟩ <;> rw [hu]
    · exact h.doutIdle (by omega)
    · rfl
  · intro _ _; rcases hp with ⟨hp, hu⟩ | ⟨hp, hu⟩ <;> rw [hu]
    · exact ⟨rfl, rfl⟩
    · exact h.qoutEmpty (by omega) (by omega)
  · intro h1 _; rcases hp with ⟨hp, hu⟩ | ⟨hp, hu⟩ <;> rw [hu]
    · omega
    · rfl
  · exact fun _ _ => h.out0 (by omega) (.inl (by omega))
  · exact fun _ _ => h.out1 (by omega) (.inl (by omega))
  · exact fun _ _ => h.in0 (by omega) (.inl (by omega))
  · exact fun _ _ => h.in1 (by omega) (.inl (by omega))
  · intro _; omega
  · intro _; omega

/-- The start of DIN. -/
theorem RunAt.startIn (h : RunAt G 17 s) (hr : RegsAt G 18 t) (hm : t.mem = s.mem)
    (hu : t.units = { s.units with din := { s.units.din with desc := G.cfg.descIn, st := .fetch } }) : RunAt G 18 t := by
  obtain ⟨q1, q2⟩ := h.qoutEmpty (by omega) (by omega)
  have q3 := h.qinEmpty (by omega) (by omega)
  refine { toRegsAt := hr, frame := ?_, aesIdle := ?_, dinIdle := ?_, doutIdle := ?_, qoutEmpty := ?_, qinEmpty := ?_,
           out0 := ?_, out1 := ?_, in0 := ?_, in1 := ?_, core := ?_, flow := fun _ => ⟨0, 0, ?_⟩ }
  all_goals try simp only [hm, hu]
  · exact h.frame
  · exact fun _ => h.aesIdle (by omega)
  · exact fun _ => by omega
  · exact fun _ => h.doutIdle (by omega)
  · exact fun _ _ => ⟨q1, q2⟩
  · exact fun _ _ => q3
  · exact fun _ _ => h.out0 (by omega) (.inl (by omega))
  · exact fun _ _ => h.out1 (by omega) (.inl (by omega))
  · exact fun _ _ => h.in0 (by omega) (.inl (by omega))
  · exact fun _ _ => h.in1 (by omega) (.inl (by omega))
  · intro _; omega
  · have hmb : madeBlocks 18 t.units = 0 := madeBlocks_lt _ _ (by omega)
    exact {
      sent := by rw [hmb]; omega
      recvd := by omega
      qin := by rw [hmb, hu, seg_self]; exact q3
      qout := by rw [hmb, seg_self, hu]; exact q1
      eof := fun he => by rw [hu] at he; rw [q2] at he; cases he
      stored := fun j hj => by omega
      din := by unfold dinAt; rw [hu]; exact ⟨rfl, rfl⟩
      dout := by simp
      latched := fun _ => by omega
      complete := fun _ => by omega }

/-- The start of DOUT. -/
theorem RunAt.startOut (h : RunAt G 18 s) (hr : RegsAt G 19 t) (hm : t.mem = s.mem)
    (hu : t.units = { s.units with dout := { s.units.dout with desc := G.cfg.descOut, st := .fetch } }) : RunAt G 19 t := by
  obtain ⟨d, r, f⟩ := h.flow (by omega)
  have hd : d = 0 := by have := f.dout; rwa [if_pos rfl] at this
  refine { toRegsAt := hr, frame := ?_, aesIdle := ?_, dinIdle := ?_, doutIdle := ?_, qoutEmpty := ?_, qinEmpty := ?_,
           out0 := ?_, out1 := ?_, in0 := ?_, in1 := ?_, core := ?_, flow := fun _ => ⟨d, r, ?_⟩ }
  all_goals try simp only [hm, hu]
  · exact h.frame
  · exact fun _ => h.aesIdle (by omega)
  · exact fun _ => by omega
  · exact fun _ => by omega
  · exact fun _ _ => h.qoutEmpty (by omega) (by omega)
  · exact fun _ _ => by omega
  · exact fun _ _ => h.out0 (by omega) (.inl (by omega))
  · exact fun _ _ => h.out1 (by omega) (.inl (by omega))
  · exact fun _ ho => h.in0 (by omega) (ho.imp_left fun _ => by omega)
  · exact fun _ ho => h.in1 (by omega) (ho.imp_left fun _ => by omega)
  · intro _; omega
  · have hmb : madeBlocks 19 t.units = madeBlocks 18 s.units := by
      rw [madeBlocks_lt _ _ (by omega), madeBlocks_lt _ _ (by omega)]
    exact {
      sent := by rw [hmb]; exact f.sent
      recvd := by rw [hmb]; exact f.recvd
      qin := by rw [hmb, hu]; exact f.qin
      qout := by rw [hmb, hu]; exact f.qout
      eof := by rw [hmb, hu]; exact f.eof
      stored := by rw [hm]; exact f.stored
      din := by have := f.din; unfold dinAt at *; rw [hu, hm]; exact this
      dout := by rw [if_neg (by omega)]; unfold doutAt; rw [hu]; exact ⟨rfl, hd⟩
      latched := fun _ => by omega
      complete := fun _ => by omega }

/-- The trigger of the AES. -/
theorem RunAt.trigger (h : RunAt G 33 s) (hr : RegsAt G 34 t) (hm : t.mem = s.mem)
    (hu : t.units = { s.units with aes := latched s.per, qoutEof := false }) : RunAt G 34 t := by
  obtain ⟨d, r, f⟩ := h.flow (by omega)
  have R : ∀ e ∈ programmed, regGet s.per e.1 = G.val e.2.1 :=
    fun e he => h.regs e he (by revert e; decide) (by omega)
  have e0 := R (.aesKey0, .key0, 23) (by decide)
  have e1 := R (.aesKey1, .key1, 24) (by decide)
  have e2 := R (.aesKey2, .key2, 25) (by decide)
  have e3 := R (.aesKey3, .key3, 26) (by decide)
  have e4 := R (.aesBlockNum, .bc, 28) (by decide)
  have e5 := R (.aesIv0, .iv0, 30) (by decide)
  have e6 := R (.aesIv1, .iv1, 31) (by decide)
  have e7 := R (.aesIv2, .iv2, 32) (by decide)
  have e8 := R (.aesIv3, .iv3, 33) (by decide)
  simp only [regGet, Launch.val] at e0 e1 e2 e3 e4 e5 e6 e7 e8
  have hla : Machine.latched s.per = { st := .work, key := G.key, ctr := G.iv, n := G.bc, i := 0 } := by
    simp only [Machine.latched, e0, e1, e2, e3, e4, e5, e6, e7, e8, blockOfWords_blockWord]
  rw [hla] at hu
  refine { toRegsAt := hr, frame := ?_, aesIdle := ?_, dinIdle := ?_, doutIdle := ?_, qoutEmpty := ?_, qinEmpty := ?_,
           out0 := ?_, out1 := ?_, in0 := ?_, in1 := ?_, core := ?_, flow := fun _ => ⟨d, r, ?_⟩ }
  all_goals try simp only [hm, hu]
  · exact h.frame
  · exact fun _ => by omega
  · exact fun _ => by omega
  · exact fun _ => by omega
  · exact fun _ _ => by omega
  · exact fun _ _ => by omega
  · exact fun _ ho => h.out0 (by omega) (ho.imp_left fun _ => by omega)
  · exact fun _ ho => h.out1 (by omega) (ho.imp_left fun _ => by omega)
  · exact fun _ ho => h.in0 (by omega) (ho.imp_left fun _ => by omega)
  · exact fun _ ho => h.in1 (by omega) (ho.imp_left fun _ => by omega)
  · intro _; exact ⟨trivial, trivial, rfl, Nat.zero_le _, fun hh => by cases hh⟩
  · have hmb : madeBlocks 34 t.units = madeBlocks 33 s.units := by
      rw [madeBlocks_lt 33 _ (by omega), madeBlocks_ge _ _ (by omega), hu]; rfl
    exact {
      sent := by rw [hmb]; exact f.sent
      recvd := by rw [hmb]; exact f.recvd
      qin := by rw [hmb, hu]; exact f.qin
      qout := by rw [hmb, hu]; exact f.qout
      eof := fun he => by rw [hu] at he; cases he
      stored := by rw [hm]; exact f.stored
      din := by have := f.din; unfold dinAt at *; rw [hu, hm]; exact this
      dout := by
        have := f.dout
        rw [if_neg (by omega)] at this ⊢
        unfold doutAt at *; rw [hu]; exact this
      latched := fun _ => by omega
      complete := fun _ => by omega }

/-- The end of the run. -/
theorem RunAt.exit (h : RunAt G 37 s) (hr : RegsAt G 38 t) (hm : t.mem = s.mem)
    (hu : t.units = { s.units with aes := { s.units.aes with st := .idle } }) : RunAt G 38 t := by
  obtain ⟨d, r, f⟩ := h.flow (by omega)
  obtain ⟨k1, k2, k3, k4, k5⟩ := h.core (by omega)
  refine { toRegsAt := hr, frame := ?_, aesIdle := ?_, dinIdle := ?_, doutIdle := ?_, qoutEmpty := ?_, qinEmpty := ?_,
           out0 := ?_, out1 := ?_, in0 := ?_, in1 := ?_, core := ?_, flow := fun _ => ⟨d, r, ?_⟩ }
  all_goals try simp only [hm, hu]
  · exact h.frame
  · exact fun _ => by omega
  · exact fun _ => by omega
  · exact fun _ => by omega
  · exact fun _ _ => by omega
  · exact fun _ _ => by omega
  · exact fun _ ho => h.out0 (by omega) (ho.imp_left fun _ => by omega)
  · exact fun _ ho => h.out1 (by omega) (ho.imp_left fun _ => by omega)
  · exact fun _ ho => h.in0 (by omega) (ho.imp_left fun _ => by omega)
  · exact fun _ ho => h.in1 (by omega) (ho.imp_left fun _ => by omega)
  · intro _; exact ⟨k1, k2, k3, k4, fun hh => by cases hh⟩
  · have hmb : madeBlocks 38 t.units = madeBlocks 37 s.units := by
      rw [madeBlocks_ge _ _ (by omega), madeBlocks_ge _ _ (by omega), hu]
    exact {
      sent := by rw [hmb]; exact f.sent
      recvd := by rw [hmb]; exact f.recvd
      qin := by rw [hmb, hu]; exact f.qin
      qout := by rw [hmb, hu]; exact f.qout
      eof := by rw [hmb, hu]; exact f.eof
      stored := by rw [hm]; exact f.stored
      din := by have := f.din; unfold dinAt at *; rw [hu, hm]; exact this
      dout := by
        have := f.dout
        rw [if_neg (by omega)] at this ⊢
        unfold doutAt at *; rw [hu]; exact this
      latched := fun _ => by omega
      complete := fun _ => by rw [hu]; exact f.complete (by omega) }

theorem romOp_plain : ∀ n : Fin 38, (n.val < 2 ∨ n.val = 15 ∨ n.val = 16 ∨ 3 ≤ n.val ∧ n.val ≤ 8 ∨ 19 ≤ n.val ∧ n.val ≤ 32 ∨ 34 ≤ n.val ∧ n.val ≤ 36) →
    ((romOp n).bind writtenReg).all isPlainReg = true := by decide

def dscOps : List Instr := [.dscOutW0, .dscOutW1, .dscOutW2, .dscInW0, .dscInW1, .dscInW2]

theorem romOp_dsc : ∀ n : Fin 38, (n.val < 3 ∨ 9 ≤ n.val) → ∀ i ∈ dscOps, romOp n ≠ some i := by decide

theorem exec_mem_of_romOp (ho : romOp p = some i) (hp : p ≤ 37) (h : p < 3 ∨ 9 ≤ p) (he : exec i s = .next t) : t.mem = s.mem := by
  have h0 : i ∉ dscOps := fun hi => romOp_dsc ⟨p, by omega⟩ h i hi ho
  rcases exec_mem he with ⟨_, hm⟩ | ⟨a, v, hs, _⟩
  · exact hm
  · exfalso; cases i <;> first | (exact h0 (by decide)) | cases hs

theorem exec_units_of_romOp (ho : romOp p = some i) (hp : p ≤ 36)
    (h : p < 2 ∨ p = 15 ∨ p = 16 ∨ 3 ≤ p ∧ p ≤ 8 ∨ 19 ≤ p ∧ p ≤ 32 ∨ 34 ≤ p) (he : exec i s = .next t) : t.units = s.units := by
  refine exec_units_plain he fun r hr => ?_
  have := romOp_plain ⟨p, by omega⟩ (by simp only; omega)
  simp only [ho, Option.bind_some, hr] at this
  simpa using this

theorem or_bitMask_link {v M : Word} {n : Fin 32} (hb : bitOf M n = false) : (v ||| bitMask n) &&& M = v &&& M := by
  have h0 := bitMask_and_linkMask hb
  ext j hj
  have := congrArg (fun w : Word => w[j]) h0
  simp at this
  simp
  cases hM : M[j] <;> cases hN : (bitMask n)[j] <;> simp_all

/-- The advance of a run by one micro-op. -/
theorem RunAt.advance (hl : G.Legal) (h : RunAt G p s) (hp : p ≤ 36) (ho : romOp p = some i) (he : exec i s = .next t)
    (hc : t.ctl.chaos = false) (hadv : t.ctl.upc = s.ctl.upc + 1 ∧ t.ctl.busy = true) : RunAt G (p + 1) t := by
  have hr := h.toRegsAt.next hl (by omega) ho he
  have hupne : s.ctl.upc ≠ s.ctl.upc + 1 := by
    intro hh
    have := congrArg BitVec.toNat hh
    rw [BitVec.toNat_add] at this
    have := s.ctl.upc.isLt
    simp at *
  by_cases hd : 3 ≤ p ∧ p ≤ 8
  · have hu := exec_units_of_romOp ho hp (by omega) he
    have hbc : s.xval .bc = G.bc := h.x .bc (by decide) (by decide) (by decide)
    have hpt : s.xval .pt = G.pt := h.x .pt (by decide) (by decide) (by decide)
    have hct : s.xval .ct = G.ct := h.x .ct (by decide) (by decide) (by decide)
    obtain rfl | rfl | rfl | rfl | rfl | rfl : p = 3 ∨ p = 4 ∨ p = 5 ∨ p = 6 ∨ p = 7 ∨ p = 8 := by omega
    · have : romOp 3 = some .dscOutW0 := by decide
      rw [this] at ho; cases ho
      cases he
      exact h.stores hl hr hu _ _ (by simp; rfl) (.inl ⟨rfl, by rw [← h.cfg], by rw [hbc]; rfl⟩)
    · have : romOp 4 = some .dscOutW1 := by decide
      rw [this] at ho; cases ho
      cases he
      exact h.stores hl hr hu _ _ (by simp; rfl) (.inr (.inl ⟨rfl, by rw [← h.cfg], hpt⟩))
    · have : romOp 5 = some .dscOutW2 := by decide
      rw [this] at ho; cases ho
      cases he
      exact h.stores hl hr hu _ _ rfl (.inr (.inr (.inl ⟨rfl, by rw [← h.cfg]⟩)))
    · have : romOp 6 = some .dscInW0 := by decide
      rw [this] at ho; cases ho
      cases he
      exact h.stores hl hr hu _ _ (by simp; rfl) (.inr (.inr (.inr (.inl ⟨rfl, by rw [← h.cfg], by rw [hbc]; rfl⟩))))
    · have : romOp 7 = some .dscInW1 := by decide
      rw [this] at ho; cases ho
      cases he
      exact h.stores hl hr hu _ _ (by simp; rfl) (.inr (.inr (.inr (.inr (.inl ⟨rfl, by rw [← h.cfg], hct⟩)))))
    · have : romOp 8 = some .dscInW2 := by decide
      rw [this] at ho; cases ho
      cases he
      exact h.stores hl hr hu _ _ rfl (.inr (.inr (.inr (.inr (.inr ⟨rfl, by rw [← h.cfg]⟩)))))
  have hm := exec_mem_of_romOp ho (by omega) (by omega) he
  by_cases hpl : p < 2 ∨ p = 15 ∨ p = 16 ∨ 19 ≤ p ∧ p ≤ 32 ∨ 34 ≤ p
  · have hu := exec_units_of_romOp ho hp (by omega) he
    refine h.plain hr hu hm (by omega) ?_ ?_
    · intro h35 r hdi
      subst h35
      have : romOp 35 = some .pollDesc := by decide
      rw [this] at ho; cases ho
      obtain ⟨hdone, rfl⟩ | ⟨_, rfl⟩ := execPollDesc_cases he
      · simp only [advance_xval]
        rw [writeX_xval_of_ne _ _ _ _ (by decide), writeX_xval_same, h.cfg]
        rw [h.cfg] at hdone
        obtain ⟨_, hdi⟩ := hdi
        have hre := hl.reimpl
        by_cases hst : s.units.din.st = .idle
        · rw [hst] at hdi
          rcases hdi with hdi | hdi
          · exact .inr ⟨hst, hdi⟩
          · exact .inl hdi.1
        · exfalso
          have h0 := h.in0 (by omega) (.inr hst)
          have hown : dwOwner G.inW0 = true := dwOwner_dw0 _ _ _ _ _
          have hchk : G.cfg.checks.doneMode = .and := by
            revert hre; unfold Checks.isReimpl; split
            · rename_i hh; rw [hh]; simp
            · intro hh; cases hh
          simp [descDone, descFaultSeen, hchk, h0, isDone, hown] at hdone
      · exfalso
        obtain ⟨_, hh⟩ | ⟨_, _, ⟨_, hh⟩ | ⟨_, hh⟩⟩ := pollMiss_cases 2 (seqMemRead s.cfg.descIn.toNat s) <;> rw [hh] at hadv
        · exact hupne hadv.1
        · cases hadv.2
        · exact hupne (by have := hadv.1; rwa [writeX_ctl, noteRead_ctl, seqMemRead_ctl] at this)
    · intro h36
      subst h36
      have : romOp 36 = some .chkDma := by decide
      rw [this] at ho; cases ho
      have hre := hl.reimpl
      have hchk : s.cfg.checks.checkErrEof = true := by
        rw [h.cfg]
        revert hre; unfold Checks.isReimpl; split
        · rename_i hh; rw [hh]; simp
        · intro hh; cases hh
      obtain ⟨r, _, ⟨rfl, _⟩ | ⟨rfl, _⟩ | ⟨_, _, hne⟩ | ⟨_, _, hne⟩⟩ := execChkDma_cases he
      · cases hadv.2
      · cases hadv.2
      · simpa [hchk] using hne
      · simpa [hchk] using hne
  obtain rfl | rfl | rfl | rfl | rfl | rfl | rfl | rfl | rfl | rfl :
      p = 2 ∨ p = 9 ∨ p = 10 ∨ p = 11 ∨ p = 12 ∨ p = 13 ∨ p = 14 ∨ p = 17 ∨ p = 18 ∨ p = 33 := by omega
  · have : romOp 2 = some .clkRstclr := by decide
    rw [this] at ho; cases ho
    refine h.plain hr ?_ hm (by omega) (fun hh => by omega) (fun hh => by omega)
    cases he
    simp [regModify_units, regWrite_rstEn_units]
  · have : romOp 9 = some .dmaInRstSet := by decide
    rw [this] at ho; cases ho
    refine h.resetUnits hr hm (.inl ⟨rfl, ?_⟩)
    cases he
    simp [regModify_units, regWrite_inConf0_units]
  · have : romOp 10 = some .dmaInRstClr := by decide
    rw [this] at ho; cases ho
    refine h.plain hr ?_ hm (by omega) (fun hh => by omega) (fun hh => by omega)
    cases he
    simp [regModify_units, regWrite_inConf0_units]
  · have : romOp 11 = some .dmaOutRstSet := by decide
    rw [this] at ho; cases ho
    refine h.resetUnits hr hm (.inr ⟨rfl, ?_⟩)
    cases he
    simp [regModify_units, regWrite_outConf0_units]
  · have : romOp 12 = some .dmaOutRstClr := by decide
    rw [this] at ho; cases ho
    refine h.plain hr ?_ hm (by omega) (fun hh => by omega) (fun hh => by omega)
    cases he
    simp [regModify_units, regWrite_outConf0_units]
  · have : romOp 13 = some .dmaInLink := by decide
    rw [this] at ho; cases ho
    refine h.plain hr ?_ hm (by omega) (fun hh => by omega) (fun hh => by omega)
    cases he
    have hg : regGated .dmaInLink s = false := by simp [regGated, isDmaReg, isAesReg, (h.ungated (by omega)).2]
    have hb := (Params.wf_startOutsideMask hl.wf).1
    have hs := h.starts.1
    rw [h.cfg] at hs
    simp [regModify_units, regWrite_inLink_units, regValue_of_not_gated _ _ hg, regGet, h.cfg, hb, hs]
  · have : romOp 14 = some .dmaOutLink := by decide
    rw [this] at ho; cases ho
    refine h.plain hr ?_ hm (by omega) (fun hh => by omega) (fun hh => by omega)
    cases he
    have hg : regGated .dmaOutLink s = false := by simp [regGated, isDmaReg, isAesReg, (h.ungated (by omega)).2]
    have hb := (Params.wf_startOutsideMask hl.wf).2
    have hs := h.starts.2
    rw [h.cfg] at hs
    simp [regModify_units, regWrite_outLink_units, regValue_of_not_gated _ _ hg, regGet, h.cfg, hb, hs]
  · have : romOp 17 = some .dmaInStart := by decide
    rw [this] at ho; cases ho
    have hg : regGated .dmaInLink s = false := by simp [regGated, isDmaReg, isAesReg, (h.ungated (by omega)).2]
    have hheld := (h.resets (by omega)).2
    refine h.startIn hr hm ?_
    cases he
    simp [regModify_inLink_ctl, hheld] at hc
    obtain ⟨_, hsel⟩ := hc
    have hla : linkAddr G.cfg (s.per.dmaInLink ||| bitMask G.cfg.bits.inStart) = G.cfg.descIn :=
      linkAddr_eq (Params.wf_link hl.wf).2 (by
        rw [or_bitMask_link (Params.wf_startOutsideMask hl.wf).1]; exact h.linkIn (by omega) (by omega))
    rw [h.cfg] at hsel
    simp [regModify_units, regWrite_inLink_units, regValue_of_not_gated _ _ hg, regGet, hheld, h.cfg, hsel, hla]
  · have : romOp 18 = some .dmaOutStart := by decide
    rw [this] at ho; cases ho
    have hg : regGated .dmaOutLink s = false := by simp [regGated, isDmaReg, isAesReg, (h.ungated (by omega)).2]
    have hheld := (h.resets (by omega)).2
    refine h.startOut hr hm ?_
    cases he
    simp [regModify_outLink_ctl, hheld] at hc
    obtain ⟨_, hsel⟩ := hc
    have hla : linkAddr G.cfg (s.per.dmaOutLink ||| bitMask G.cfg.bits.outStart) = G.cfg.descOut :=
      linkAddr_eq (Params.wf_link hl.wf).1 (by
        rw [or_bitMask_link (Params.wf_startOutsideMask hl.wf).2]; exact h.linkOut (by omega) (by omega))
    rw [h.cfg] at hsel
    simp [regModify_units, regWrite_outLink_units, regValue_of_not_gated _ _ hg, regGet, hheld, h.cfg, hsel, hla]
  · have : romOp 33 = some .aesTrigger := by decide
    rw [this] at ho; cases ho
    refine h.trigger hr hm ?_
    cases he
    simp [regWrite_trigger_units, (h.resets (by omega)).1, h.aesIdle (by omega)]

/-! ## A whole run -/

/-- The invariant of a run of the start `G`, from the start on: while no misuse is seen, it has failed, or it stands at the
micro-op of its ROM index, or it has ended. -/
def RunInv (G : Launch) (s : State) : Prop :=
  s.ctl.chaos = false →
    (s.ctl.busy = false ∧ s.ctl.state = .error) ∨
      (s.ctl.busy = true ∧ s.ctl.state ≠ .released ∧ s.ctl.upc.toNat ≤ 37 ∧ RunAt G s.ctl.upc.toNat s) ∨ (s.ctl.busy = false ∧ RunAt G 38 s)

theorem RunAt.stay (h : RunAt G p s) (hp : 34 ≤ p) (hp' : p ≤ 35) (hr : RegsAt G p t) (hu : t.units = s.units)
    (hm : t.mem = s.mem) : RunAt G p t := by
  refine { toRegsAt := hr, frame := ?_, aesIdle := ?_, dinIdle := ?_, doutIdle := ?_, qoutEmpty := ?_, qinEmpty := ?_,
           out0 := ?_, out1 := ?_, in0 := ?_, in1 := ?_, core := ?_, flow := ?_ }
  all_goals try simp only [hu, hm]
  · exact h.frame
  · exact fun _ => by omega
  · exact fun _ => by omega
  · exact fun _ => by omega
  · exact fun _ _ => by omega
  · exact fun _ _ => by omega
  · exact h.out0
  · exact h.out1
  · exact h.in0
  · exact h.in1
  · exact h.core
  · intro h18
    obtain ⟨d, r, f⟩ := h.flow h18
    exact ⟨d, r, {
      sent := by rw [hu]; exact f.sent
      recvd := by rw [hu]; exact f.recvd
      qin := by rw [hu]; exact f.qin
      qout := by rw [hu]; exact f.qout
      eof := by rw [hu]; exact f.eof
      stored := by rw [hm]; exact f.stored
      din := by have := f.din; unfold dinAt at *; rw [hu, hm]; exact this
      dout := by have := f.dout; unfold doutAt at *; rw [hu]; exact this
      latched := fun _ => by omega
      complete := fun _ => by omega }⟩

theorem RegsAt.late {q : Nat} (h : RegsAt G p s) (hp : 34 ≤ p) (hq : 34 ≤ q) : RegsAt G q s :=
  { cfg := h.cfg, rom := h.rom, starts := h.starts, x := h.x, clocks := fun _ => h.clocks (by omega),
    resets := fun _ => h.resets (by omega), linkIn := fun _ _ => by omega, linkOut := fun _ _ => by omega,
    regs := fun _ _ _ _ => by omega }

theorem romOp_some : ∀ n : Fin 38, (romOp n).isSome = true := by decide
theorem romOp_chkLen : ∀ n : Fin 38, romOp n = some .chkLen → n.val = 0 := by decide
theorem romOp_relExit : ∀ n : Fin 38, romOp n = some .relExit → n.val = 37 := by decide
theorem romOp_polls : ∀ n : Fin 38, romOp n = some .pollAes ∨ romOp n = some .pollDesc → 34 ≤ n.val ∧ n.val ≤ 35 := by decide

theorem completedState_not_released (i : Instr) (q : SeqState) (h : q ≠ .released) : completedState i q ≠ .released := by
  cases i <;> simp only [completedState] <;> first | exact h | (simp; done) | (split <;> simp [h])

/-- The sequencer's turn. -/
theorem RunInv.seq (hl : G.Legal) (h : RunInv G s) (ht : takeTurn .seq s = .next t) : RunInv G t := by
  intro hc
  obtain ⟨hb, rfl⟩ | ⟨hb, u, hu, hx⟩ := takeTurn_seq_cases ht
  · exact h hc
  have hcs : s.ctl.chaos = false := by
    rcases hx with ⟨i, _, he⟩ | ⟨_, rfl⟩
    · obtain ⟨_, c, hh⟩ | ⟨e, n, hh, _⟩ | ⟨_, c, hh⟩ | ⟨_, hh⟩ := exec_ctl he <;> rw [hh] at hc <;> first | exact hc | (simp at hc; exact hc.1)
    · exact hc
  rcases h hcs with ⟨h1, _⟩ | ⟨_, hnr, hup, h⟩ | ⟨h1, _⟩
  · rw [hb] at h1; cases h1
  rotate_left
  · rw [hb] at h1; cases h1
  rw [h.rom] at hu
  have hlt : s.ctl.upc.toNat < 38 := by omega
  rcases hx with ⟨i, hi, he⟩ | ⟨hno, _⟩
  rotate_left
  · exfalso
    have h1 := romOp_some ⟨_, hlt⟩
    simp only [romOp, hu] at h1
    cases hd : decode u with
    | ok i => exact hno i hd
    | error e => simp [hd, Except.toOption] at h1
  have ho := romOp_of hu hi
  obtain ⟨hne, c, hh⟩ | ⟨e, n, hh, _⟩ | ⟨hii, c, hh⟩ | ⟨hii, hh⟩ := exec_ctl he
  · have h37 : s.ctl.upc.toNat ≤ 36 := by
      by_contra hcon
      have h0 : s.ctl.upc.toNat = 37 := by omega
      rw [h0, show romOp 37 = some .relExit by decide] at ho; injection ho with ho; exact hne ho.symm
    have hup1 : t.ctl.upc.toNat = s.ctl.upc.toNat + 1 := by
      rw [hh]; simp only; rw [BitVec.toNat_add]; simp; omega
    right; left
    rw [hup1]
    exact ⟨by rw [hh]; exact hb, by rw [hh]; exact completedState_not_released i _ hnr, by omega, h.advance hl h37 ho he hc ⟨by rw [hh], by rw [hh]; exact hb⟩⟩
  · left; rw [hh]; exact ⟨rfl, rfl⟩
  · rcases hii with rfl | rfl
    · have h37 := romOp_relExit ⟨_, hlt⟩ ho
      simp only at h37
      rw [h37] at h ho
      right; right
      refine ⟨by rw [hh], h.exit (h.toRegsAt.next hl (by omega) ho he) (exec_mem_of_romOp ho (by omega) (by omega) he) ?_⟩
      cases he
      simp [regWrite_exit_ctl] at hc
      simp [regWrite_exit_units, hc]
    · exfalso
      have h0 := romOp_chkLen ⟨_, hlt⟩ ho
      have hbc : s.xval .bc = G.bc := h.x .bc (by decide) (by decide) (by decide)
      obtain ⟨r, hr, ⟨rfl, _, hz⟩ | ⟨rfl, _⟩ | ⟨rfl, _⟩⟩ := execChkLen_cases he
      · rw [hbc] at hz
        have := hl.pos; rw [hz] at this; simp at this
      · have := congrArg Control.state hh; simp at this
      · have hbu := congrArg Control.busy hh
        have : r.ctl = s.ctl := by rcases hr with rfl | rfl <;> simp
        simp [this, hb] at hbu
  · have hpp := romOp_polls ⟨_, hlt⟩ (by rcases hii with rfl | rfl <;> [exact .inl ho; exact .inr ho])
    simp only at hpp
    have hr := (h.toRegsAt.next hl (by omega) ho he).late (q := s.ctl.upc.toNat) (by omega) hpp.1
    have hu := exec_units_of_romOp ho (by omega) (by omega) he
    have hm := exec_mem_of_romOp ho (by omega) (by omega) he
    right; left
    rw [hh]
    exact ⟨hb, hnr, hup, h.stay hpp.1 hpp.2 hr hu hm⟩

theorem RunInv.agent (h : RunInv G s) (hctl : ∃ c, t.ctl = { s.ctl with chaos := s.ctl.chaos || c })
    (hm : ∀ p, t.ctl.chaos = false → s.ctl.chaos = false → RunAt G p s → RunAt G p t) : RunInv G t := by
  intro hc
  obtain ⟨c, hh⟩ := hctl
  have hcs : s.ctl.chaos = false := by rw [hh] at hc; simp at hc; exact hc.1
  have e1 : t.ctl.busy = s.ctl.busy := by rw [hh]
  have e2 : t.ctl.state = s.ctl.state := by rw [hh]
  have e3 : t.ctl.upc = s.ctl.upc := by rw [hh]
  rw [e1, e2, e3]
  rcases h hcs with h | ⟨h1, h0, h2, h3⟩ | ⟨h1, h2⟩
  · exact .inl h
  · exact .inr (.inl ⟨h1, h0, h2, hm _ hc hcs h3⟩)
  · exact .inr (.inr ⟨h1, hm _ hc hcs h2⟩)

theorem RunInv.turn (hl : G.Legal) (h : RunInv G s) (u : Turn) (hu : isMachineTurn u = true) (ht : takeTurn u s = .next t) :
    RunInv G t := by
  cases u
  case seq => exact h.seq hl ht
  case start => cases hu
  case store => cases hu
  case systemReset => cases hu
  all_goals simp only [takeTurn, Host.Outcome.next.injEq] at ht; subst ht
  · exact h.agent (doutMove_ctl s) fun p hc _ hr => hr.dout hl hc
  · exact h.agent (dinMove_ctl s) fun p hc _ hr => hr.din hl hc
  · exact h.agent (dinErrorMove_ctl s) fun p hc _ hr => hr.dinErr hl hc
  · exact h.agent ⟨false, by simp⟩ fun p hc _ hr => hr.aes hl
  · rename_i m
    refine h.agent (chaosMove_ctl s m) fun p hc hcs hr => ?_
    rw [show chaosMove m s = s by simp [chaosMove, hcs]]; exact hr

theorem RunInv.run (hl : G.Legal) (ts : List Turn) : ∀ s, RunInv G s → (∀ u ∈ ts, isMachineTurn u = true) →
    runTurns ts s = some t → RunInv G t := by
  induction ts with
  | nil => intro s h _ ht; simp [runTurns] at ht; rw [← ht]; exact h
  | cons u ts ih =>
    intro s h hu ht
    simp only [runTurns] at ht
    split at ht
    · rename_i s' hs'
      exact ih s' (h.turn hl u (hu u (by simp)) hs') (fun v hv => hu v (by simp [hv])) ht
    · cases ht

/-- The start establishes the invariant. -/
theorem RunInv.start {key iv : Block} {pt ct bc : Word} (hrom : s.rom = seqRom) (hs : startBitsZero s)
    (h1 : s.units.dout.st = .idle) (h2 : s.units.din.st = .idle) (h3 : s.units.aes.st = .idle) :
    RunInv ⟨s.cfg, key, iv, pt, ct, bc, fun a => s.mem.read a⟩ (acceptStart key iv pt ct bc s) := by
  intro _
  obtain ⟨c, hc⟩ := acceptStart_ctl key iv pt ct bc s
  right; left
  rw [hc]
  refine ⟨rfl, by simp, by simp, ?_⟩
  exact {
    cfg := by simp
    rom := by simpa using hrom
    starts := by simpa [startBitsZero] using hs
    x := fun r a b c => by
      cases r <;> first | contradiction | simp [acceptStart, State.xval, Launch.val, Session.get_set]
    clocks := fun h => by simp at h
    resets := fun h => by simp at h
    linkIn := fun h => by simp at h
    linkOut := fun h => by simp at h
    regs := fun e he h => by
      exfalso
      have : ∀ e ∈ programmed, ¬ e.2.2 ≤ 0 := by decide
      exact this e he h
    frame := fun a _ => by simp
    aesIdle := fun _ => by simpa using h3
    dinIdle := fun _ => by simpa using h2
    doutIdle := fun _ => by simpa using h1
    qoutEmpty := fun h => by simp at h
    qinEmpty := fun h => by simp at h
    out0 := fun h => by simp at h
    out1 := fun h => by simp at h
    in0 := fun h => by simp at h
    in1 := fun h => by simp at h
    core := fun h => by simp at h
    flow := fun h => by simp at h }

end Sys2Proof.Machine
end

