-- ==== Sys2Proof/Tests/Slice0.lean ====
section
/-! SUPPORT. Tests of the model, with expected values from the spec's encodings (30_encoding.md R93) and vectors
(95_test_vectors.md, V<n>), and a witness for the hypotheses of every obligation that has any. -/

namespace Sys2Proof.Tests

open Sys2Proof Sys2Proof.Machine

/-! ## Well-formedness: one ill-formed term for each check -/

theorem test_wf_key_index : Instr.wf (.aesKey 4) = false ∧ Instr.wf (.aesKey 3) = true := by decide

theorem test_wf_iv_index : Instr.wf (.aesIv 7) = false ∧ Instr.wf (.aesIv 0) = true := by decide

/-- The candidate parameters. -/
abbrev c0 : Params := .candidate

theorem test_wf_candidate : c0.wf = true := by decide

theorem test_wf_channel : ({ c0 with dmaCh := 3 } : Params).wf = false := by decide

theorem test_wf_descAligned : ({ c0 with descIn := 0x3FC80102 } : Params).wf = false := by decide

theorem test_wf_addrAligned :
    ({ c0 with addr := { c0.addr with aesState := 0x6003A04E } } : Params).wf = false := by decide

theorem test_wf_addrDistinct :
    ({ c0 with addr := { c0.addr with aesState := 0x6003A048 } } : Params).wf = false := by decide

theorem test_wf_regionInSpace :
    ({ c0 with dmaRegion := ⟨0xFFFFFF00, 0x101⟩ :: c0.dmaRegion } : Params).wf = false := by decide

theorem test_wf_descInRegion : ({ c0 with dmaRegion := [⟨0x3FC80000, 0x11B⟩] } : Params).wf = false := by decide

theorem test_wf_descDisjoint : ({ c0 with descOut := 0x3FC80108 } : Params).wf = false := by decide

theorem test_wf_addrOutsideRegion :
    ({ c0 with dmaRegion := ⟨0x6003A0BB, 1⟩ :: c0.dmaRegion } : Params).wf = false := by decide

theorem test_wf_link : ({ c0 with linkBase := 0x3FD00000 } : Params).wf = false := by decide

theorem test_wf_startOutsideMask :
    ({ c0 with bits := { c0.bits with inStart := 19 } } : Params).wf = false := by decide

theorem test_wf_periInsideMask :
    ({ c0 with vals := { c0.vals with periAes := 0x46 } } : Params).wf = false := by decide

theorem test_wf_stateValsDistinct :
    ({ c0 with vals := { c0.vals with stateDone := 1 } } : Params).wf = false := by decide

theorem test_wf_pollLimit :
    ({ c0 with checks := { c0.checks with pollLimit := .bounded 0 } } : Params).wf = false := by decide

/-! ## Decoding: one code of every row, bit by bit from R93 -/

theorem test_decode_chk_clk : decode 0b00000000 = .ok .chkLen ∧ decode 0b00000001 = .ok .chkDma ∧
    decode 0b00100000 = .ok .clkEn ∧ decode 0b00100001 = .ok .clkRstclr := by decide

theorem test_decode_dsc : decode 0b01000000 = .ok .dscOutW0 ∧ decode 0b01000001 = .ok .dscOutW1 ∧
    decode 0b01000010 = .ok .dscOutW2 ∧ decode 0b01000100 = .ok .dscInW0 ∧ decode 0b01000101 = .ok .dscInW1 ∧
    decode 0b01000110 = .ok .dscInW2 := by decide

theorem test_decode_dma : decode 0b01100000 = .ok .dmaInRstSet ∧ decode 0b01100001 = .ok .dmaInRstClr ∧
    decode 0b01100010 = .ok .dmaOutRstSet ∧ decode 0b01100011 = .ok .dmaOutRstClr ∧
    decode 0b01100100 = .ok .dmaInLink ∧ decode 0b01100101 = .ok .dmaOutLink ∧ decode 0b01100110 = .ok .dmaInPeri ∧
    decode 0b01100111 = .ok .dmaOutPeri ∧ decode 0b01101000 = .ok .dmaInStart ∧
    decode 0b01101001 = .ok .dmaOutStart := by decide

theorem test_decode_aes : decode 0b10000000 = .ok .aesDmaen ∧ decode 0b10000001 = .ok .aesIntdis ∧
    decode 0b10000010 = .ok .aesMode ∧ decode 0b10000011 = .ok .aesBlkmode ∧ decode 0b10000101 = .ok (.aesKey 1) ∧
    decode 0b10001000 = .ok .aesBlknum ∧ decode 0b10001001 = .ok .aesIncsel ∧ decode 0b10001010 = .ok .aesTrigger ∧
    decode 0b10001110 = .ok (.aesIv 2) := by decide

theorem test_decode_poll_rel : decode 0b10100000 = .ok .pollAes ∧ decode 0b10100001 = .ok .pollDesc ∧
    decode 0b11000000 = .ok .relExit := by decide

/-- V25. -/
theorem test_decode_reserved :
    ([0x02, 0x1F, 0x22, 0x43, 0x47, 0x6A, 0x8B, 0x90, 0xA2, 0xC1, 0xFF] : List Byte).all
      (fun u => decode u == .error (.reservedCode u)) = true := by decide

theorem test_table_word : decodeTableWord 8 0x84 = some (.aesKey 0) ∧ decodeTableWord 8 0x8B = none ∧
    decodeTableWord 8 0x100 = none := by decide

/-! ## The states the effect tests start from -/

/-- V1: the key. -/
def key1 : Block :=
  #v[0x2b, 0x7e, 0x15, 0x16, 0x28, 0xae, 0xd2, 0xa6, 0xab, 0xf7, 0x15, 0x88, 0x09, 0xcf, 0x4f, 0x3c]

/-- V1: the initial counter block. -/
def iv1 : Block :=
  #v[0xf0, 0xf1, 0xf2, 0xf3, 0xf4, 0xf5, 0xf6, 0xf7, 0xf8, 0xf9, 0xfa, 0xfb, 0xfc, 0xfd, 0xfe, 0xff]

/-- After reset and the start of V1 with `bc` blocks. -/
def started (bc : Word) : State := acceptStart key1 iv1 0x3FC81000 0x3FC82000 bc .reset

/-- The same with both units ungated (V18), at ROM index `upc`. -/
def ready (upc : BitVec 6) (bc : Word := 1) : State :=
  { started bc with
    per := { resetRegs with sysClkEn := 0x42, sysRstEn := 0xFFFFFFAD },
    ctl := { (started bc).ctl with upc := upc, state := stateAtUpc upc.toNat } }

/-- The state after the micro-op. -/
def run (i : Instr) (s : State) : Option State := match exec i s with | .next t => some t | _ => none

/-- The state after the turn. -/
def turn (u : Turn) (s : State) : Option State := match takeTurn u s with | .next t => some t | _ => none

def withPer (f : RegTable → RegTable) (s : State) : State := { s with per := f s.per }
def withUnits (f : Units → Units) (s : State) : State := { s with units := f s.units }
def withChecks (k : Checks) (s : State) : State := { s with cfg := { s.cfg with checks := k } }
/-- Profile SOURCE. -/
def source (s : State) : State := withChecks (Profile.source.checks 0) s
/-- The same state with `x[r] = v`. -/
def withX (r : XReg) (v : Word) (s : State) : State := writeX r v s
/-- The word at `a` is `v`. -/
def withWord (a : Nat) (v : Word) (s : State) : State := s.setMem (s.mem.write32 a v)

/-! ## The family `chk` -/

/-- V20, V21 in SOURCE. -/
theorem test_chk_len_passes :
    (run .chkLen (started 0xFF)).map (·.ctl.upc) = some 1 ∧
    (run .chkLen (source (started 0x100))).map (·.ctl.upc) = some 1 := by decide

/-- V21 to V23. -/
theorem test_chk_len_ends :
    (run .chkLen (started 0)).map hostView = some (7, false, 0, 0, 0) ∧
    (run .chkLen (started 0x100)).map hostView = some (8, false, 1, 0, 0) ∧
    (run .chkLen (started 0x10000000)).map (·.ctl.status) = some .invalidLength := by decide

/-- V13. -/
theorem test_chk_dma :
    (run .chkDma (withX .dw0 0x40010010 (ready 36))).map (fun t => (t.ctl.upc, t.ctl.state)) = some (37, .done) ∧
    (run .chkDma (withX .dw0 0x10000010 (ready 36))).map (fun t => (hostView t, t.aux.trace)) =
      some ((8, false, 3, 1, 36), []) ∧
    (run .chkDma (withX .dw0 0x10000010 (source (ready 36)))).map (fun t => (t.ctl.state, t.aux.trace)) =
      some (.done, []) := by decide

/-! ## The family `clk` -/

/-- V7. -/
theorem test_clk_en :
    (run .clkEn (withPer (fun p => { p with sysClkEn := 0x12345678 }) (started 1))).map
      (fun t => (t.per.sysClkEn, t.xval .tmp, t.ctl.upc)) = some (0x1234567A, 0x12345678, 1) := by decide

/-- V7. -/
theorem test_clk_rstclr :
    (run .clkRstclr (withPer (fun p => { p with sysRstEn := 0x12345678 }) (started 1))).map
      (fun t => (t.per.sysRstEn, t.ctl.state)) = some (0x12345628, .clockEnabled) ∧
    (run .clkRstclr (started 1)).map (·.per.sysRstEn) = some 0xFFFFFFAD := by decide

/-! ## The family `dsc` -/

/-- V4. -/
theorem test_descLength :
    ([0, 1, 4, 0xFF, 0x100, 0x101, 0x10000000, 0xFFFFFFFF] : List Word).map descLength =
      [0x000, 0x010, 0x040, 0xFF0, 0x000, 0x010, 0x000, 0xFF0] := by decide

/-- V5. -/
theorem test_dsc_out_w0 :
    (run .dscOutW0 (ready 3 4)).map (·.mem.read32 0x3FC80110) = some 0xC0040040 ∧
    (run .dscOutW0 (ready 3 0xFF)).map (·.mem.read32 0x3FC80110) = some 0xC0FF0FF0 := by decide

/-- V5, over a previous run's write-back. -/
theorem test_dsc_in_w0 :
    (run .dscInW0 (withWord 0x3FC80100 0x40010010 (ready 6))).map (·.mem.read32 0x3FC80100) = some 0x80000010 := by
  decide

theorem test_dsc_w1 :
    (run .dscOutW1 (ready 4)).map (·.mem.read32 0x3FC80114) = some 0x3FC81000 ∧
    (run .dscInW1 (ready 7)).map (·.mem.read32 0x3FC80104) = some 0x3FC82000 := by decide

theorem test_dsc_w2 :
    (run .dscOutW2 (withWord 0x3FC80118 0xFFFFFFFF (ready 5))).map (·.mem.read32 0x3FC80118) = some 0 ∧
    (run .dscInW2 (withWord 0x3FC80108 0xFFFFFFFF (ready 8))).map (·.mem.read32 0x3FC80108) = some 0 := by decide

/-- V5: the accessors on 40FF0FF0. -/
theorem test_accessors :
    (dwSize 0x40FF0FF0, dwLength 0x40FF0FF0, dwErrEof 0x40FF0FF0, dwSucEof 0x40FF0FF0, dwOwner 0x40FF0FF0,
      isDone 0x40FF0FF0, frameComplete 0x40FF0FF0) = (0xFF0, 0xFF0, false, true, false, true, true) := by decide

/-! ## The family `dma` (V8) -/

theorem test_dma_in_rst_set :
    (run .dmaInRstSet (withUnits (fun u => { u with din := { u.din with st := .recv }, qout := [1], qoutEof := true })
      (withPer (fun p => { p with dmaInConf0 := 0x0C }) (ready 9)))).map
      (fun t => (t.per.dmaInConf0, t.units.din.st, t.units.qout, t.units.qoutEof)) = some (0x0D, .idle, [], false) := by
  decide

theorem test_dma_in_rst_clr :
    (run .dmaInRstClr (withPer (fun p => { p with dmaInConf0 := 0x0D }) (ready 10))).map (·.per.dmaInConf0) =
      some 0x0C := by decide

theorem test_dma_out_rst_set :
    (run .dmaOutRstSet (withUnits (fun u => { u with dout := { u.dout with st := .send }, qin := [1, 2] }) (ready 11))).map
      (fun t => (t.per.dmaOutConf0, t.units.dout.st, t.units.qin)) = some (1, .idle, []) := by decide

theorem test_dma_out_rst_clr :
    (run .dmaOutRstClr (withPer (fun p => { p with dmaOutConf0 := 1 }) (ready 12))).map (·.per.dmaOutConf0) = some 0 := by
  decide

theorem test_dma_link :
    (run .dmaInLink (withPer (fun p => { p with dmaInLink := 0x12345678 }) (ready 13))).map (·.per.dmaInLink) =
      some 0x12380100 ∧
    (run .dmaOutLink (ready 14)).map (·.per.dmaOutLink) = some 0x00080110 := by decide

theorem test_dma_peri :
    (run .dmaInPeri (ready 15)).map (·.per.dmaInPeriSel) = some 0x06 ∧
    (run .dmaOutPeri (withPer (fun p => { p with dmaOutPeriSel := 0xFFFFFFC0 }) (ready 16))).map (·.per.dmaOutPeriSel) =
      some 0xFFFFFFC6 := by decide

/-- The state before `dma.in.start` and `dma.out.start`: linked and selected. -/
def linked (upc : BitVec 6) : State :=
  withPer (fun p => { p with dmaInLink := 0x00180100, dmaOutLink := 0x00080110, dmaInPeriSel := 6, dmaOutPeriSel := 6 })
    (ready upc)

theorem test_dma_in_start :
    (run .dmaInStart (linked 17)).map
      (fun t => (t.per.dmaInLink, t.units.din.desc, t.units.din.st, t.ctl.chaos, t.aux.trace.head?)) =
        some (0x00180100, 0x3FC80100, .fetch, false, some (.write 0x6003F080 0x00580100)) ∧
    (run .dmaInStart (withPer (fun p => { p with dmaInPeriSel := 0x3F }) (linked 17))).map (·.ctl.chaos) = some true := by
  decide

theorem test_dma_out_start :
    (run .dmaOutStart (linked 18)).map
      (fun t => (t.per.dmaOutLink, t.units.dout.desc, t.units.dout.st, t.ctl.state, t.aux.trace.head?)) =
        some (0x00080110, 0x3FC80110, .fetch, .dmaArmed, some (.write 0x6003F0E0 0x00280110)) ∧
    (run .dmaOutStart (withUnits (fun u => { u with dout := { u.dout with st := .send } }) (linked 18))).map
      (·.ctl.chaos) = some true := by decide

/-! ## The family `aes` (V9) -/

theorem test_aes_dmaen_intdis :
    (run .aesDmaen (ready 19)).map (·.per.aesDmaEnable) = some 1 ∧
    (run .aesIntdis (withPer (fun p => { p with aesIntEna := 1 }) (ready 20))).map (·.per.aesIntEna) = some 0 := by decide

theorem test_aes_mode_blkmode_incsel :
    (run .aesMode (withPer (fun p => { p with aesMode := 7 }) (ready 21))).map (·.per.aesMode) = some 0 ∧
    (run .aesBlkmode (ready 26)).map (·.per.aesBlockMode) = some 3 ∧
    (run .aesIncsel (withPer (fun p => { p with aesIncSel := 1 }) (ready 28))).map (·.per.aesIncSel) = some 0 := by decide

theorem test_aes_key :
    (run (.aesKey 0) (ready 22)).map (·.per.aesKey0) = some 0x16157E2B ∧
    (run (.aesKey 1) (ready 23)).map (·.per.aesKey1) = some 0xA6D2AE28 ∧
    (run (.aesKey 2) (ready 24)).map (·.per.aesKey2) = some 0x8815F7AB ∧
    (run (.aesKey 3) (ready 25)).map (fun t => (t.per.aesKey3, t.ctl.state)) = some (0x3C4FCF09, .keyProgrammed) := by
  decide

theorem test_aes_iv :
    (run (.aesIv 0) (ready 29)).map (·.per.aesIv0) = some 0xF3F2F1F0 ∧
    (run (.aesIv 1) (ready 30)).map (·.per.aesIv1) = some 0xF7F6F5F4 ∧
    (run (.aesIv 2) (ready 31)).map (·.per.aesIv2) = some 0xFBFAF9F8 ∧
    (run (.aesIv 3) (ready 32)).map (·.per.aesIv3) = some 0xFFFEFDFC := by decide

/-- `x[BC]` unmasked, also above 255 in SOURCE. -/
theorem test_aes_blknum : (run .aesBlknum (source (ready 27 0x100))).map (·.per.aesBlockNum) = some 0x100 := by decide

/-- The accelerator's registers as the ROM leaves them before the trigger (V9). -/
def configured (n : Word) : State :=
  withPer (fun p => { p with
    aesDmaEnable := 1, aesBlockMode := 3, aesBlockNum := n,
    aesKey0 := 0x16157E2B, aesKey1 := 0xA6D2AE28, aesKey2 := 0x8815F7AB, aesKey3 := 0x3C4FCF09,
    aesIv0 := 0xF3F2F1F0, aesIv1 := 0xF7F6F5F4, aesIv2 := 0xFBFAF9F8, aesIv3 := 0xFFFEFDFC }) (ready 33)

theorem test_aes_trigger :
    (run .aesTrigger (configured 0xFF)).map
      (fun t => (t.units.aes.st, t.units.aes.n, t.units.aes.i, t.ctl.chaos, t.ctl.state)) =
        some (.work, 0xFF, 0, false, .triggered) ∧
    (run .aesTrigger (configured 1)).map (fun t => (t.units.aes.key.toList, t.units.aes.ctr.toList)) =
      some (key1.toList, iv1.toList) := by decide

theorem test_aes_trigger_chaos :
    (run .aesTrigger (configured 0)).map (·.ctl.chaos) = some true ∧
    (run .aesTrigger (configured 0x100)).map (·.ctl.chaos) = some true ∧
    (run .aesTrigger (withPer (fun p => { p with aesBlockMode := 0 }) (configured 1))).map (·.ctl.chaos) = some true ∧
    (run .aesTrigger (withUnits (fun u => { u with aes := { u.aes with st := .done } }) (configured 1))).map
      (·.ctl.chaos) = some true := by decide

/-! ## The families `poll` and `rel` -/

/-- A state at `poll.aes` or later, the AES in state `st` and `n` failed reads counted. -/
def polling (upc : BitVec 6) (st : AesSt) (n : Word) : State :=
  withX .pollcnt n (withUnits (fun u => { u with aes := { u.aes with st := st } }) (ready upc))

/-- V10. -/
theorem test_poll_aes :
    (run .pollAes (polling 34 .done 2)).map (fun t => (t.ctl.upc, t.ctl.state, t.xval .pollcnt)) =
      some (35, .awaitingDma, 0) ∧
    (run .pollAes (polling 34 .work 1)).map (fun t => (t.ctl.upc, t.ctl.state, t.xval .pollcnt)) =
      some (34, .triggered, 2) ∧
    (run .pollAes (polling 34 .idle 2)).map hostView = some (8, false, 2, 1, 34) ∧
    (run .pollAes (source (polling 34 .work 0))).map (fun t => (t.ctl.upc, t.xval .pollcnt)) = some (34, 0) := by decide

/-- What `poll.desc` does on the descriptor word `w`: the next upc, `DW0` and the poll count. -/
def pollWord (k : Checks) (w : Word) : Option (BitVec 6 × Word × Word) :=
  (run .pollDesc (withX .dw0 0 (withChecks k (withWord 0x3FC80100 w (ready 35))))).map
    (fun t => (t.ctl.upc, t.xval .dw0, t.xval .pollcnt))

/-- V11, the columns AND and AND-only. -/
theorem test_poll_desc_and :
    pollWord (Profile.reimpl.checks 3) 0x80000010 = some (35, 0, 1) ∧
    pollWord (Profile.reimpl.checks 3) 0x40010010 = some (36, 0x40010010, 0) ∧
    pollWord (Profile.reimpl.checks 3) 0x10005010 = some (36, 0x10005010, 0) ∧
    pollWord (Profile.reimpl.checks 3) 0x00010010 = some (35, 0, 1) ∧
    pollWord (Profile.reimpl.checks 3) 0x90000010 = some (35, 0, 1) ∧
    pollWord ⟨true, true, .bounded 3, .and, false, true⟩ 0x10000010 = some (35, 0, 1) ∧
    (run .pollDesc (withWord 0x3FC80100 0x80000010 (polling 35 .done 2))).map hostView =
      some (8, false, 2, 2, 35) := by decide

/-- V11, the column OR. -/
theorem test_poll_desc_or :
    pollWord (Profile.source.checks 0) 0x80000010 = some (35, 0, 0) ∧
    pollWord (Profile.source.checks 0) 0x10000010 = some (36, 0x10000010, 0) ∧
    pollWord (Profile.source.checks 0) 0xC0010010 = some (36, 0xC0010010, 0) ∧
    pollWord (Profile.source.checks 0) 0x90000010 = some (35, 0, 0) := by decide

/-- V14. -/
theorem test_rel_exit :
    (run .relExit (polling 37 .done 0)).map (fun t => (t.units.aes.st, t.ctl.state, t.ctl.busy, t.ctl.upc, t.per.aesDmaExit)) =
      some (.idle, .released, false, 37, 1) ∧
    (run .relExit (polling 37 .work 0)).map (fun t => (t.units.aes.st, t.ctl.chaos)) = some (.work, true) := by decide

/-! ## The agents -/

/-- V12. -/
theorem test_inc32 :
    (inc32 #v[0, 1, 2, 3, 4, 5, 6, 7, 8, 9, 0xa, 0xb, 0xff, 0xff, 0xff, 0xff]).toList =
      [0, 1, 2, 3, 4, 5, 6, 7, 8, 9, 0xa, 0xb, 0, 0, 0, 0] ∧
    (inc32 iv1).toList =
      [0xf0, 0xf1, 0xf2, 0xf3, 0xf4, 0xf5, 0xf6, 0xf7, 0xf8, 0xf9, 0xfa, 0xfb, 0xfc, 0xfd, 0xff, 0x00] := by decide

/-- DIN in RECV with the fetched word `w0` and `k` bytes received. -/
def receiving (w0 : Word) (k : BitVec 12) (q : List Byte) (eof : Bool) : State :=
  withUnits (fun u => { u with din := ⟨.recv, 0x3FC80100, w0, 0x3FC82000, k⟩, qout := q, qoutEof := eof }) (ready 34)

/-- V15. -/
theorem test_din_write_backs :
    (turn .din (receiving 0x80000040 64 [] true)).map (·.mem.read32 0x3FC80100) = some 0x40040040 ∧
    (turn .dinError (receiving 0x80000010 5 [] false)).map (·.mem.read32 0x3FC80100) = some 0x10005010 ∧
    (turn .din (receiving 0x80000010 16 [] false)).map (·.units.din.st) = some .recv ∧
    (turn .din (receiving 0x80000000 0 [7] false)).map (·.ctl.chaos) = some true := by decide

theorem test_din_receive :
    (turn .din (receiving 0x80000010 15 [7, 8] false)).map
      (fun t => (t.mem.read 0x3FC8200F, t.units.qout, t.units.din.k)) = some (7, [8], 16) := by decide

/-- DOUT with the fetched word `w0` and `k` bytes sent. -/
def sending (st : DoutSt) (w0 : Word) (k : BitVec 12) : State :=
  withUnits (fun u => { u with dout := ⟨st, 0x3FC80110, w0, 0x3FC81000, k⟩ }) (ready 34)

/-- V16. -/
theorem test_dout_end :
    (turn .dout (sending .wb 0xC0040040 64)).map (fun t => (t.mem.read32 0x3FC80110, t.units.dout.st, t.ctl.chaos)) =
      some (0x40040040, .idle, false) ∧
    (turn .dout (sending .wb 0x80010010 16)).map (·.ctl.chaos) = some true := by decide

theorem test_dout_send :
    (turn .dout (withWord 0x3FC81004 0x969F402E (sending .send 0xC0010010 5))).map (fun t => (t.units.qin, t.units.dout.k)) =
      some ([0x40], 6) := by decide

theorem test_fetch :
    (turn .dout (withWord 0x3FC80114 0x3FC81000 (withWord 0x3FC80110 0xC0010010 (sending .fetch 0 9)))).map
      (fun t => t.units.dout) = some ⟨.send, 0x3FC80110, 0xC0010010, 0x3FC81000, 0⟩ := by decide

/-- The same with both descriptor and buffer addresses of the DMA agents at 0x10, outside `P_DMA_REGION`. -/
def outside (s : State) : State :=
  withUnits (fun u => { u with dout := { u.dout with desc := 0x10, buf := 0x10 }, din := { u.din with desc := 0x10, buf := 0x10 } }) s

/-- R230 (f): a write outside the region has no effect and is misuse. -/
theorem test_outside_region :
    (turn .din (outside (receiving 0x80000010 0 [7] false))).map (fun t => (t.mem.read 0x10, t.units.din.k, t.ctl.chaos)) =
      some ((State.reset).mem.read 0x10, 1, true) ∧
    (turn .dout (outside (sending .wb 0xC0010010 16))).map (fun t => (t.mem.read32 0x10, t.units.dout.st, t.ctl.chaos)) =
      some ((State.reset).mem.read32 0x10, .idle, true) := by decide

/-- The same without the DMA error end. -/
def noErrors (s : State) : State := { s with cfg := { s.cfg with dmaErrors := false } }

/-- R212, R231, R232: what is a move of DIN, and what is none. -/
theorem test_takesMove :
    (let s := receiving 0x80000010 16 [] false;
      takesMove .din .din s = false ∧ takesMove .din .dinError s = true ∧ takesMove .din (.chaos (.dinWord 0)) s = false ∧
        takesMove .din (.chaos (.dinWord 0)) (setChaos s) = true) ∧
    let s := noErrors (receiving 0x80000010 16 [] false);
    takesMove .din .dinError s = false ∧ agentEnabled .din s = false ∧ agentEnabled .din (setChaos s) = true := by decide

/-- V18. -/
theorem test_gating :
    ([(0x00000000, 0xFFFFFFFF), (0x42, 0xFFFFFFFF), (0x42, 0xFFFFFFEF), (0x42, 0xFFFFFFAD), (0x02, 0)] : List (Word × Word)).map
      (fun p => (aesGated (withPer (fun r => { r with sysClkEn := p.1, sysRstEn := p.2 }) .reset),
        dmaGated (withPer (fun r => { r with sysClkEn := p.1, sysRstEn := p.2 }) .reset))) =
      [(true, true), (true, true), (true, true), (false, false), (false, true)] := by decide

/-! ## The host -/

/-- V3: accepted from reset. -/
theorem test_start :
    (turn (.start key1 iv1 0x3FC81000 0x3FC82000 1) .reset).map
      (fun t => [t.xval .key0, t.xval .key3, t.xval .iv0, t.xval .iv3, t.xval .pt, t.xval .bc]) =
      some [0x16157E2B, 0x3C4FCF09, 0xF3F2F1F0, 0xFFFEFDFC, 0x3FC81000, 1] ∧
    (turn (.start key1 iv1 0x3FC81000 0x3FC82000 1) .reset).map hostView = some (0, true, 0, 0, 0) := by decide

/-- V3: a misaligned buffer, and a start while busy. -/
theorem test_start_misaligned_and_busy :
    (turn (.start key1 iv1 0x3FC81001 0x3FC82000 1) .reset).map (fun t => (t.ctl.busy, t.ctl.chaos)) = some (true, true) ∧
    (turn (.start key1 iv1 0x3FC81000 0x3FC82000 2) (ready 20)).map
      (fun t => (t.faults.reentry, t.ctl.upc, t.xval .bc)) = some (true, 20, 1) := by decide

/-! ## Witnesses: for each obligation with hypotheses, concrete inputs that meet them, one per clause -/

theorem witness_DecodeOfEncodeIsTheMicroOp : Instr.wf (.aesIv 3) = true ∧ Instr.wf .relExit = true := by decide

theorem witness_EncodeOfDecodeIsTheByte : decode 0x87 = .ok (.aesKey 3) ∧ decode 0xC0 = .ok .relExit := by decide

/-- The machine of `ready`, whose next turns are those listed. -/
def scripted (ts : List Turn) (s : State) : State := { s with aux := { s.aux with script := ts } }

theorem witness_StepRunsTheDecodedMicroOp :
    let s := scripted [.seq, .din] (ready 37);
    s.cfg.wf = true ∧ s.aux.script = .seq :: [.din] ∧ s.ctl.busy = true ∧ s.rom[s.ctl.upc.toNat]? = some 0xC0 ∧
      decode 0xC0 = .ok .relExit := by decide

theorem witness_StepRunsTheFetchWord :
    State.reset.cfg.wf = true ∧ decodeTableWord 8 0x8F = some (.aesIv 3) := by decide

theorem witness_ReservedCodeStopsTheSequencer :
    let s : State := { ready 0 with rom := [0x8B] };
    s.ctl.busy = true ∧ s.rom[s.ctl.upc.toNat]? = some 0x8B ∧ decode 0x8B = .error (.reservedCode 0x8B) := by decide

theorem witness_IdleSequencerTakesNoStep : State.reset.ctl.busy = false := by decide

theorem witness_SequencerAccessesAreAligned :
    (∃ t, (ready 3).cfg.wf = true ∧ exec .dscOutW0 (ready 3) = .next t ∧ .write 0x3FC80110 0xC0010010 ∈ newEvents (ready 3) t) ∧
    ({ c0 with descOut := 0x3FC80111 } : Params).descOut.toNat % 4 ≠ 0 ∧
    ({ c0 with descIn := 0x3FC80101 } : Params).descIn.toNat % 4 ≠ 0 ∧
    ∃ a ∈ ({ c0 with addr := { c0.addr with aesState := 0x6003A04E } } : Params).addr.all, a.toNat % 4 ≠ 0 :=
  ⟨⟨_, by decide, rfl, by decide⟩, by decide, by decide, 0x6003A04E, by simp [AddrMap.all], by decide⟩

theorem witness_ChkLenOutcomes :
    (∀ bc, ((started bc).x.get .bc).written = true) ∧
    ((started 0).cfg.checks.checkZero = true ∧ (started 0).xval .bc = 0) ∧
    (let s := started 256;
      ¬(s.cfg.checks.checkZero = true ∧ s.xval .bc = 0) ∧ s.cfg.checks.checkLength = true ∧ 255 < (s.xval .bc).toNat) ∧
    (let s := started 255;
      ¬(s.cfg.checks.checkZero = true ∧ s.xval .bc = 0) ∧
        ¬(s.cfg.checks.checkLength = true ∧ 255 < (s.xval .bc).toNat)) ∧
    let s := source (started 0);
    ¬(s.cfg.checks.checkZero = true ∧ s.xval .bc = 0) ∧ ¬(s.cfg.checks.checkLength = true ∧ 255 < (s.xval .bc).toNat) :=
  ⟨fun _ => acceptStart_written _ _ _ _ _ _ _ (by decide) (by decide), by decide, by decide, by decide, by decide⟩

/-- At `chk.dma` with a success word latched, while DIN is not idle. -/
def undrained : State := withX .dw0 0x40010010 (receiving 0x80000010 16 [] true)

theorem witness_ChkDmaOutcomes :
    (let s := withX .dw0 0x10000010 (ready 36);
      (s.x.get .dw0).written = true ∧ s.cfg.checks.checkErrEof = true ∧ dwErrEof (s.xval .dw0) = true) ∧
    (let s := withX .dw0 0x10000010 (source (ready 36));
      (s.x.get .dw0).written = true ∧ ¬(s.cfg.checks.checkErrEof = true ∧ dwErrEof (s.xval .dw0) = true) ∧
        s.cfg.checks.fifoCheck = false) ∧
    (let s := withX .dw0 0x40010010 (ready 36);
      (s.x.get .dw0).written = true ∧ ¬(s.cfg.checks.checkErrEof = true ∧ dwErrEof (s.xval .dw0) = true) ∧
        s.cfg.checks.fifoCheck = true ∧ drained s = true) ∧
    let s := undrained;
    (s.x.get .dw0).written = true ∧ ¬(s.cfg.checks.checkErrEof = true ∧ dwErrEof (s.xval .dw0) = true) ∧
      s.cfg.checks.fifoCheck = true ∧ drained s = false := by decide

/-- The hypotheses of `SubChannelResets`: an ungated unit. -/
theorem witness_SubChannelResets : dmaGated (ready 9) = false := by decide

/-- R201, R202, R207, R213: on units held in reset a sub-channel reset still empties its queue, and a trigger clears the end of
frame. -/
theorem test_effects_on_held_units :
    let s := withUnits (fun u => { u with qin := [1], qout := [2], qoutEof := true }) (started 1);
    (aesHeld s = true ∧ dmaHeld s = true) ∧
    (regWrite .dmaInConf0 1 s).units.qout = [] ∧ (regWrite .dmaInConf0 1 s).units.qoutEof = false ∧
    (regWrite .dmaOutConf0 1 s).units.qin = [] ∧
    (run .aesTrigger s).map (fun t => (t.units.aes.st, t.units.qoutEof, t.ctl.chaos)) = some (.idle, false, true) := by decide

theorem witness_UnitsAreUngatedForTheRun :
    ∃ t, exec .relExit (ready 37) = .next t ∧ aesGated (ready 37) = false ∧ dmaGated (ready 37) = false :=
  ⟨_, rfl, by decide, by decide⟩

/-- The hypotheses of `LinkAndPeripheralSelect`. -/
theorem witness_LinkAndPeripheralSelect :
    (ready 13).cfg.wf = true ∧ dmaGated (ready 13) = false ∧ startBitsZero (ready 13) := by
  refine ⟨by decide, by decide, ?_⟩
  unfold startBitsZero; decide

/-- The hypotheses of `SubChannelStarts`. -/
theorem witness_SubChannelStarts :
    (let s := linked 17;
      dmaGated s = false ∧ s.units.din.st = .idle ∧ selectsAes s.cfg s.per.dmaInPeriSel = true ∧
        s.units.dout.st = .idle ∧ selectsAes s.cfg s.per.dmaOutPeriSel = true) ∧
    dmaHeld .reset = true ∧
    let s := withUnits (fun u => { u with din := { u.din with st := .recv }, dout := { u.dout with st := .wb } }) (ready 17);
    dmaGated s = false ∧ (s.units.din.st ≠ .idle ∨ selectsAes s.cfg s.per.dmaInPeriSel = false) ∧
      (s.units.dout.st ≠ .idle ∨ selectsAes s.cfg s.per.dmaOutPeriSel = false) := by decide

theorem witness_ArmingNamesTheDescriptors :
    let s := ready 13;
    s.cfg.wf = true ∧ dmaGated s = false ∧ startBitsZero s ∧ s.units.din.st = .idle ∧ s.units.dout.st = .idle := by
  refine ⟨by decide, by decide, ?_, by decide, by decide⟩
  unfold startBitsZero; decide

theorem witness_AesWholeRegisterWrites :
    aesOperand (.aesKey 3) (ready 25) = some (.aesKey3, 0x3C4FCF09) ∧ aesOperand .aesBlknum (ready 27) = some (.aesBlockNum, 1) ∧
    aesOperand (.aesIv 0) .reset = some (.aesIv0, 0) := by decide

theorem witness_TriggerLatchesTheConfiguration :
    (aesHeld (configured 1) = false ∧ (configured 1).units.aes.st = .idle) ∧
    (polling 33 .done 0).units.aes.st ≠ .idle ∧ aesHeld .reset = true ∧ State.reset.units.aes.st = .idle := by decide

theorem witness_PollAesOutcomes :
    (let s := polling 34 .done 2;
      (s.x.get .pollcnt).written = true ∧ aesStateValue s = s.cfg.vals.stateDone) ∧
    (let s := source (polling 34 .work 0);
      (s.x.get .pollcnt).written = true ∧ aesStateValue s ≠ s.cfg.vals.stateDone ∧ s.cfg.checks.pollLimit = .unbounded) ∧
    (let s := polling 34 .work 1;
      (s.x.get .pollcnt).written = true ∧ aesStateValue s ≠ s.cfg.vals.stateDone ∧ s.cfg.checks.pollLimit = .bounded 3 ∧
        s.xval .pollcnt + 1 ≠ 3) ∧
    let s := polling 34 .idle 2;
    (s.x.get .pollcnt).written = true ∧ aesStateValue s ≠ s.cfg.vals.stateDone ∧ s.cfg.checks.pollLimit = .bounded 3 ∧
      s.xval .pollcnt + 1 = 3 := by decide

theorem witness_AesStateReads :
    ([.idle, .work, .done] : List AesSt).all (fun st =>
      !aesGated (polling 34 st 0) && !(polling 34 st 0).ctl.chaos && (polling 34 st 0).units.aes.st == st) = true ∧
    aesGated .reset = true ∧ aesGated (setChaos (ready 34)) = false ∧ (setChaos (ready 34)).ctl.chaos = true := by decide

/-- At `poll.desc`, under the checks `k`, on the word `w`, with `n` failed reads. -/
def atDesc (k : Checks) (w n : Word) : State := withChecks k (withWord 0x3FC80100 w (polling 35 .done n))

theorem witness_PollDescOutcomes :
    (((atDesc (Profile.reimpl.checks 3) 0 0).x.get .pollcnt).written = true) ∧
    (let s := atDesc (Profile.reimpl.checks 3) 0x40010010 2;
      let w := s.mem.read32 s.cfg.descIn.toNat;
      s.cfg.checks.doneMode = .and ∧ dwOwner w = false ∧ dwSucEof w = true) ∧
    (let s := atDesc (Profile.source.checks 0) 0xC0010010 0;
      let w := s.mem.read32 s.cfg.descIn.toNat;
      s.cfg.checks.doneMode = .or ∧ (dwOwner w = false ∨ dwSucEof w = true)) ∧
    (let s := atDesc (Profile.reimpl.checks 3) 0x10000010 2;
      let w := s.mem.read32 s.cfg.descIn.toNat;
      s.cfg.checks.checkErrEof = true ∧ dwOwner w = false ∧ dwErrEof w = true) ∧
    (let s := atDesc (Profile.source.checks 0) 0x80000010 0;
      let w := s.mem.read32 s.cfg.descIn.toNat;
      ¬(dwOwner w = false ∨ dwSucEof w = true) ∧ s.cfg.checks.checkErrEof = false ∧
        s.cfg.checks.pollLimit = .unbounded) ∧
    (let s := atDesc (Profile.reimpl.checks 3) 0x80000010 1;
      ¬(dwOwner (s.mem.read32 s.cfg.descIn.toNat) = false) ∧ s.cfg.checks.doneMode = .and ∧
        s.cfg.checks.pollLimit = .bounded 3 ∧ s.xval .pollcnt + 1 ≠ 3) ∧
    let s := atDesc (Profile.reimpl.checks 3) 0x80000010 2;
    ¬(dwOwner (s.mem.read32 s.cfg.descIn.toNat) = false) ∧ s.cfg.checks.doneMode = .and ∧
      s.cfg.checks.pollLimit = .bounded 3 ∧ s.xval .pollcnt + 1 = 3 :=
  ⟨by decide, by decide, by decide, by decide, by decide, by decide, by decide⟩

theorem witness_ReleaseEndsTheRun :
    ([.idle, .done, .work] : List AesSt).all (fun st =>
      (polling 37 st 0).units.aes.st == st) = true := by decide

/-- Each of the exceptions is taken from some state: the hypotheses of `ExceptionEntry` and `ExceptionTaxonomy`. DmaFault(2)
rests on the free predicate of log 4, so its witness names the two values. -/
theorem witness_Exceptions :
    (∃ t, exec .chkLen (started 256) = .next t ∧ (started 256).ctl.state ≠ .error ∧ t.ctl.state = .error) ∧
    (∃ t, exec .pollAes (polling 34 .work 2) = .next t ∧ (polling 34 .work 2).ctl.state ≠ .error ∧ t.ctl.state = .error) ∧
    (let s := atDesc (Profile.reimpl.checks 3) 0x80000010 2;
      ∃ t, exec .pollDesc s = .next t ∧ s.ctl.state ≠ .error ∧ t.ctl.state = .error) ∧
    (let s := withX .dw0 0x10000010 (ready 36);
      ∃ t, exec .chkDma s = .next t ∧ s.ctl.state ≠ .error ∧ t.ctl.state = .error) ∧
    (let s := undrained;
      Config.fifoFault (Config.drawWord s.aux.draws) (Config.drawWord (s.aux.draws + 1)) = true →
        ∃ t, exec .chkDma s = .next t ∧ s.ctl.state ≠ .error ∧ t.ctl.state = .error) := by
  refine ⟨⟨_, rfl, by decide, by decide⟩, ⟨_, rfl, by decide, by decide⟩, ⟨_, rfl, by decide, by decide⟩,
    ⟨_, rfl, by decide, by decide⟩, fun h => ⟨takeException .dmaFault 2 (fifoStatusRead undrained), ?_, by decide, rfl⟩⟩
  have hf : fifoFaultSeen (noteRead .dw0 undrained) = true := (congrArg (fun b => !drained undrained && b) h).trans (by decide)
  exact congrArg Host.Outcome.next (if_pos hf)

theorem witness_StartAccepted : State.reset.ctl.busy = false := by decide

theorem witness_StartWhileBusy : (ready 20).ctl.busy = true := by decide

theorem witness_ZeroBlockRunEndsAtOnce :
    State.reset.ctl.busy = false ∧ State.reset.cfg.checks.isReimpl = true ∧ State.reset.rom = seqRom := by decide

/-- A store that changes its byte, of a quiescent system to a lent byte, and of one that is not to another byte; and a byte of a
register. -/
theorem witness_HostStoresWithinItsDuties :
    (isRegisterByte .reset 0x3FC80100 = false ∧ isLentByte .reset 0x3FC80100 = true ∧ quiescent .reset = true ∧
      (hostStore 0x3FC80100 7 .reset).mem.read 0x3FC80100 ≠ State.reset.mem.read 0x3FC80100) ∧
    (isRegisterByte (ready 3) 0x3FC8010C = false ∧ isLentByte (ready 3) 0x3FC8010C = false ∧ quiescent (ready 3) = false ∧
      (hostStore 0x3FC8010C 7 (ready 3)).mem.read 0x3FC8010C ≠ (ready 3).mem.read 0x3FC8010C) ∧
    isRegisterByte .reset 0x6003A04F = true := by decide

theorem witness_DoutMoves :
    (let s := sending .fetch 0 0;
      dmaGated s = false ∧ s.units.dout.st = .fetch ∧ s.cfg.rangeInRegion s.units.dout.desc.toNat 4 = true ∧
        s.cfg.rangeInRegion (s.units.dout.desc.toNat + 4) 4 = true) ∧
    (let s := outside (sending .fetch 0 0);
      dmaGated s = false ∧ s.units.dout.st = .fetch ∧ s.cfg.rangeInRegion s.units.dout.desc.toNat 4 = false) ∧
    (let s := sending .send 0xC0FF0FF0 0xFEF;
      s.units.dout.st = .send ∧ s.units.dout.k < dwLength s.units.dout.w0 ∧
        s.cfg.rangeInRegion (s.units.dout.buf.toNat + s.units.dout.k.toNat) 1 = true) ∧
    (let s := outside (sending .send 0xC0FF0FF0 0);
      dmaGated s = false ∧ s.units.dout.st = .send ∧ s.units.dout.k < dwLength s.units.dout.w0 ∧
        s.cfg.rangeInRegion (s.units.dout.buf.toNat + s.units.dout.k.toNat) 1 = false) ∧
    (let s := sending .send 0xC0FF0FF0 0xFF0;
      s.units.dout.st = .send ∧ ¬s.units.dout.k < dwLength s.units.dout.w0) ∧
    (let s := sending .wb 0xC0FF0FF0 0xFF0;
      s.units.dout.st = .wb ∧ s.cfg.outWrback = true ∧ s.cfg.rangeInRegion s.units.dout.desc.toNat 4 = true) ∧
    (let s := outside (sending .wb 0xC0FF0FF0 0xFF0);
      dmaGated s = false ∧ s.units.dout.st = .wb ∧ s.cfg.outWrback = true ∧
        s.cfg.rangeInRegion s.units.dout.desc.toNat 4 = false) ∧
    let s := sending .wb 0xC0FF0FF0 0xFF0;
    let s : State := { s with cfg := { s.cfg with outWrback := false } };
    dmaGated s = false ∧ s.units.dout.st = .wb ∧ s.cfg.outWrback = false := by decide

/-- DIN about to fetch. -/
def fetching : State := withUnits (fun u => { u with din := { u.din with st := .fetch } }) (receiving 0 0 [] false)

theorem witness_DinFetchAndReceive :
    (dmaGated fetching = false ∧ fetching.units.din.st = .fetch ∧
      fetching.cfg.rangeInRegion fetching.units.din.desc.toNat 4 = true ∧
        fetching.cfg.rangeInRegion (fetching.units.din.desc.toNat + 4) 4 = true) ∧
    (dmaGated (outside fetching) = false ∧ (outside fetching).units.din.st = .fetch ∧
      (outside fetching).cfg.rangeInRegion (outside fetching).units.din.desc.toNat 4 = false) ∧
    (let s := receiving 0x80000FF0 0xFEF [7] false;
      s.units.din.st = .recv ∧ s.units.qout = 7 :: [] ∧ s.units.din.k < dwSize s.units.din.w0 ∧
        s.cfg.rangeInRegion (s.units.din.buf.toNat + s.units.din.k.toNat) 1 = true) ∧
    (let s := outside (receiving 0x80000FF0 0 [7] false);
      dmaGated s = false ∧ s.units.din.st = .recv ∧ s.units.qout = 7 :: [] ∧ s.units.din.k < dwSize s.units.din.w0 ∧
        s.cfg.rangeInRegion (s.units.din.buf.toNat + s.units.din.k.toNat) 1 = false) ∧
    (let s := receiving 0x80000FF0 0xFF0 [7] false;
      s.units.din.st = .recv ∧ s.units.qout = 7 :: [] ∧ ¬s.units.din.k < dwSize s.units.din.w0) ∧
    let s := receiving 0x80000FF0 0xFF0 [] false;
    dmaGated s = false ∧ s.units.din.st = .recv ∧ s.units.qout = [] ∧ s.units.qoutEof = false := by decide

theorem witness_DinWriteBacks :
    (let s := receiving 0x80000010 16 [] true;
      dmaGated s = false ∧ s.units.din.st = .recv ∧ s.cfg.rangeInRegion s.units.din.desc.toNat 4 = true ∧
        s.units.qout = [] ∧ s.units.qoutEof = true ∧ s.cfg.dmaErrors = true) ∧
    (let s := outside (receiving 0x80000010 16 [] true);
      dmaGated s = false ∧ s.units.din.st = .recv ∧ s.cfg.rangeInRegion s.units.din.desc.toNat 4 = false ∧
        s.units.qout = [] ∧ s.units.qoutEof = true ∧ s.cfg.dmaErrors = true) ∧
    let s := noErrors (receiving 0x80000010 16 [] true);
    dmaGated s = false ∧ s.units.din.st = .recv ∧ s.cfg.dmaErrors = false := by decide

/-- The AES at work after `i` of `n` blocks, with the queue `q`. -/
def working (n i : Word) (q : List Byte) : State :=
  withUnits (fun u => { u with aes := { st := .work, key := key1, ctr := iv1, n := n, i := i }, qin := q }) (ready 34)

theorem witness_AesMoves :
    (aesGated (working 2 1 key1.toList) = false ∧ (working 2 1 key1.toList).units.aes.st = .work) ∧
    ((working 2 1 (key1.toList ++ [9])).units.aes.i < (working 2 1 (key1.toList ++ [9])).units.aes.n ∧
      (working 2 1 (key1.toList ++ [9])).units.qin = key1.toList ++ [9]) ∧
    ((working 2 1 (List.replicate 15 0)).units.qin.length < 16) ∧
    (working 255 255 []).units.aes.i = (working 255 255 []).units.aes.n := by decide

theorem witness_GatedUnits :
    dmaGated .reset = true ∧ aesGated .reset = true ∧
      writtenReg .aesTrigger = some .aesTrigger ∧ regGated .aesTrigger .reset = true ∧
      writtenReg .dmaInStart = some .dmaInLink ∧ isDmaReg .dmaInLink = true ∧ regGated .dmaInLink .reset = true := by decide

/-- The hypotheses of `AgentsWriteOnlyInTheRegion`, `AgentsWriteOnlyTheirSegments` and `AgentsLeaveTheSequencerAlone`, on turns
that change a byte: DOUT's write-back, DIN's receive, its error end, and a chaos move; and on a turn of the AES. -/
theorem witness_AgentTurns :
    (∃ t, takeTurn .dout (sending .wb 0xC0010010 16) = .next t ∧
      t.mem.read 0x3FC80110 ≠ (sending .wb 0xC0010010 16).mem.read 0x3FC80110) ∧
    (∃ t, takeTurn .din (receiving 0x80000010 15 [7] false) = .next t ∧
      t.mem.read 0x3FC8200F ≠ (receiving 0x80000010 15 [7] false).mem.read 0x3FC8200F) ∧
    (∃ t, takeTurn .dinError (receiving 0x80000010 5 [] false) = .next t ∧
      t.mem.read 0x3FC80103 ≠ (receiving 0x80000010 5 [] false).mem.read 0x3FC80103) ∧
    (∃ t, takeTurn (.chaos (.dinByte 15 9)) (setChaos (receiving 0x80000010 5 [] false)) = .next t ∧
      t.mem.read 0x3FC8200F ≠ (setChaos (receiving 0x80000010 5 [] false)).mem.read 0x3FC8200F) ∧
    (∃ t, takeTurn .aes (working 1 1 []) = .next t ∧ t.units.aes.st = .done) ∧
    ([.dout, .din, .dinError, .chaos (.dinByte 15 9), .aes] : List Turn).all (fun u => isMachineTurn u && u != .seq) = true :=
  ⟨⟨_, rfl, by decide⟩, ⟨_, rfl, by decide⟩, ⟨_, rfl, by decide⟩, ⟨_, rfl, by decide⟩, ⟨_, rfl, by decide⟩, by decide⟩

theorem witness_QuiescentSystemStaysPut : quiescent .reset = true ∧ isMachineTurn .seq = true := by decide

/-- The state with both descriptors' marks set (log 26). -/
def prepared (s : State) : State := s.setAux { s.aux with inPrepared := true, outPrepared := true }

theorem witness_InputDescriptorLifeCycle :
    (∃ t, takeTurn .systemReset (ready 6) = .next t) ∧
    (∃ t, (ready 6).units.din.st = .idle ∧ exec .dscInW0 (ready 6) = .next t) ∧
    (∃ t, dmaGated (linked 17) = false ∧ (linked 17).units.din.st = .idle ∧
      selectsAes (linked 17).cfg (linked 17).per.dmaInPeriSel = true ∧ exec .dmaInStart (linked 17) = .next t) ∧
    (∃ t, dmaGated fetching = false ∧ fetching.units.din.st = .fetch ∧ takeTurn .din fetching = .next t) ∧
    (let s := prepared (receiving 0x80000010 16 [] true);
      (s.cfg.wf = true ∧ dmaGated s = false ∧ s.aux.inPrepared = true ∧ s.units.din.st = .recv ∧
        s.units.din.desc = s.cfg.descIn ∧ s.units.qout = [] ∧ s.units.qoutEof = true ∧ s.cfg.dmaErrors = true) ∧
        (∃ t, takeTurn .din s = .next t) ∧ ∃ t, takeTurn .dinError s = .next t) ∧
    let s := prepared (withWord 0x3FC80100 0x80000010 (receiving 0x80000010 5 [] false));
    dmaGated s = false ∧ s.aux.inPrepared = true ∧ dwOwner (s.mem.read32 s.cfg.descIn.toNat) = true ∧
      ∃ t, exec .dmaInRstSet s = .next t :=
  ⟨⟨_, rfl⟩, ⟨_, by decide, rfl⟩, ⟨_, by decide, by decide, by decide, rfl⟩, ⟨_, by decide, by decide, rfl⟩,
    ⟨by decide, ⟨_, rfl⟩, ⟨_, rfl⟩⟩, by decide, by decide, by decide, _, rfl⟩

/-- The same of the output descriptor. -/
theorem witness_OutputDescriptorLifeCycle :
    (∃ t, (ready 3).units.dout.st = .idle ∧ exec .dscOutW0 (ready 3) = .next t) ∧
    (∃ t, dmaGated (linked 18) = false ∧ (linked 18).units.dout.st = .idle ∧
      selectsAes (linked 18).cfg (linked 18).per.dmaOutPeriSel = true ∧ exec .dmaOutStart (linked 18) = .next t) ∧
    (∃ t, dmaGated (sending .fetch 0 0) = false ∧ takeTurn .dout (sending .fetch 0 0) = .next t) ∧
    (let s := prepared (sending .wb 0xC0010010 16);
      (s.cfg.wf = true ∧ dmaGated s = false ∧ s.cfg.outWrback = true ∧ s.aux.outPrepared = true ∧ s.units.dout.st = .wb ∧
        s.units.dout.desc = s.cfg.descOut) ∧ ∃ t, takeTurn .dout s = .next t) ∧
    let s := prepared (withWord 0x3FC80110 0xC0010010 (sending .wb 0xC0010010 16));
    (dmaGated s = false ∧ s.aux.outPrepared = true ∧ dwOwner (s.mem.read32 s.cfg.descOut.toNat) = true) ∧
      (∃ t, exec .dmaOutRstSet s = .next t) ∧
      let s : State := { s with cfg := { s.cfg with outWrback := false } };
      dmaGated s = false ∧ s.aux.outPrepared = true ∧ s.units.dout.st = .wb ∧ s.cfg.outWrback = false ∧
        dwOwner (s.mem.read32 s.cfg.descOut.toNat) = true ∧ ∃ t, takeTurn .dout s = .next t :=
  ⟨⟨_, by decide, rfl⟩, ⟨_, by decide, by decide, by decide, rfl⟩, ⟨_, by decide, rfl⟩, ⟨by decide, ⟨_, rfl⟩⟩,
    by decide, ⟨_, rfl⟩, by decide, by decide, by decide, by decide, by decide, _, rfl⟩

theorem witness_TransactionsAreThoseOfTheRow :
    ∃ t, exec .clkEn (started 1) = .next t ∧ newEvents (started 1) t ≠ [] := ⟨_, rfl, by decide⟩

/-- A step that changes `s.state`, by the sequencer, by a start and by a system reset. -/
theorem witness_StateChangesOnlyAtItsPoints :
    (∃ t, step (scripted [.seq] (ready 37)) = .next t ∧ t.ctl.state ≠ (ready 37).ctl.state) ∧
    (let s := scripted [.start key1 iv1 0 0 1] (endRun (ready 37));
      ∃ t, step s = .next t ∧ t.ctl.state ≠ s.ctl.state) ∧
    ∃ t, step (scripted [.systemReset] (ready 37)) = .next t ∧ t.ctl.state ≠ (ready 37).ctl.state :=
  ⟨⟨_, rfl, by decide⟩, ⟨_, rfl, by decide⟩, ⟨_, rfl, by decide⟩⟩

theorem witness_FixedAndStickyParts :
    let s := scripted [.dout] (setChaos { ready 3 with faults := ⟨true, true, true⟩ });
    ∃ t, step s = .next t ∧ s.faults.unwrittenRead = true ∧ s.faults.reentry = true ∧ s.faults.reservedUop = true ∧
      s.ctl.chaos = true ∧ s.turn ≠ .systemReset :=
  ⟨_, rfl, by decide, by decide, by decide, by decide, by decide⟩

/-- The invariants hold in a running state from which a step leads on; also the hypotheses of each of the five. -/
theorem witness_Invariants :
    let s := scripted [.seq] (started 1);
    (∃ t, step s = .next t) ∧ s.mem.wf ∧ s.mem.inSpace ∧ seqInv s ∧ startBitsZero s ∧ heldIdle s ∧ segmentsBounded s ∧
      aesFollowsRegisters s := by
  refine ⟨⟨_, rfl⟩, by decide, by unfold Memory.inSpace; decide, ?_, by unfold startBitsZero; decide,
    by unfold heldIdle; decide, by unfold segmentsBounded; decide, fun _ h => absurd rfl h⟩
  refine ⟨rfl, by unfold controlLegal errorCode; decide, ?_, ?_, rfl, rfl⟩
  · intro _ n h
    have h : PollLimit.bounded 3 = .bounded n := h
    injection h with h
    subst h; decide
  · refine fun _ => ⟨fun r h1 h2 => ?_, fun h => absurd h (by decide)⟩
    cases r <;> first | rfl | exact absurd rfl h1 | exact absurd rfl h2

/-- An AES at work or done that follows its registers, and segments in use. -/
theorem witness_AesFollowsItsRegisters :
    let s := withUnits (fun u => { u with aes := { st := .work, key := key1, ctr := iv1, n := 1, i := 0 } }) (configured 1);
    s.ctl.chaos = false ∧ s.units.aes.st ≠ .idle ∧ aesFollowsRegisters s := by
  refine ⟨by decide, by decide, fun _ _ => ⟨?_, ?_, ?_⟩⟩
  · apply Vector.toList_inj.1; decide
  · apply Vector.toList_inj.1; decide
  · decide

theorem witness_EveryBoundedRunEnds :
    State.reset.cfg.wf = true ∧ State.reset.cfg.checks.pollLimit = .bounded 3 ∧ State.reset.rom = seqRom ∧
      State.reset.ctl.busy = false ∧ (∀ u ∈ List.replicate 42 Turn.seq, staysInRun u = true) ∧
      36 + 2 * (3 : Word).toNat ≤ (List.replicate 42 Turn.seq).count .seq := by decide +kernel

/-- The turns of program P1 (95_test_vectors.md), from the start to the trigger. -/
def p1Turns : List Turn :=
  .start key1 iv1 0x3FC81000 0x3FC82000 1 ::
    (List.replicate 19 .seq ++ [.din, .dout] ++ List.replicate 18 .dout ++ List.replicate 15 .seq)

/-- P1 just after the trigger. -/
@[irreducible] def p1Triggered : State := (runTurns p1Turns .reset).getD .reset

theorem p1_triggered : runTurns p1Turns .reset = some p1Triggered := by
  have h : (runTurns p1Turns .reset).isSome = true := by decide +kernel
  unfold p1Triggered
  revert h
  cases runTurns p1Turns State.reset with
  | none => intro h; cases h
  | some t => intro _; rfl

theorem p1_ctl : p1Triggered.ctl = ⟨34, .triggered, true, .ok, 0, 0, false⟩ := by decide +kernel
theorem p1_aes : p1Triggered.units.aes.st = .work ∧ p1Triggered.units.aes.n = 1 ∧ p1Triggered.units.aes.i = 0 ∧
  p1Triggered.units.qin = List.replicate 16 0 := by decide +kernel

/-! ### A whole successful run

The hypothesis of the statements about successful runs asks for a whole run, so this one witness is one: program P1 of
95_test_vectors.md on a buffer of zeros. The bytes the AES makes are those of a constant without a body, so the run is followed
by evaluation up to the trigger and by the laws of the moves after it. -/

theorem runTurns_append (l1 l2 : List Turn) (s : State) : runTurns (l1 ++ l2) s = (runTurns l1 s).bind (runTurns l2) := by
  induction l1 generalizing s with
  | nil => rfl
  | cons u l ih =>
    simp only [List.cons_append, runTurns]
    cases takeTurn u s <;> simp [ih]

/-- P1 after the AES has made its block `bs` and is done. -/
def p1Block (bs : List Byte) : State :=
  { p1Triggered with units := { p1Triggered.units with
      qin := [], qout := bs, qoutEof := true,
      aes := { p1Triggered.units.aes with st := .done, ctr := inc32 p1Triggered.units.aes.ctr, i := 1 } } }

def p1Out : List Byte := (xorBlock (Vector.replicate 16 0) (Config.aes128 p1Triggered.units.aes.key p1Triggered.units.aes.ctr)).toList

theorem aes_takes {s : State} {p : Block} {rest : List Byte} (hg : aesGated s = false) (hst : s.units.aes.st = .work)
    (hlt : s.units.aes.i < s.units.aes.n) (hq : takeBlock s.units.qin = some (p, rest)) :
    takeTurn .aes s = .next (aesBlock p rest s) := by
  simp [takeTurn, aesMove, hg, hst, hlt, hq]

theorem aes_ends {s : State} (hg : aesGated s = false) (hst : s.units.aes.st = .work)
    (hi : s.units.aes.i = s.units.aes.n) : takeTurn .aes s = .next (aesDone s) := by
  simp [takeTurn, aesMove, hg, hst, hi]

theorem p1_block : runTurns [.aes, .aes] p1Triggered = some (p1Block p1Out) := by
  have hg : aesGated p1Triggered = false := by decide +kernel
  have hst : p1Triggered.units.aes.st = .work := by decide +kernel
  have hlt : p1Triggered.units.aes.i < p1Triggered.units.aes.n := by decide +kernel
  have hi : p1Triggered.units.aes.i + 1 = p1Triggered.units.aes.n := by decide +kernel
  have hn : p1Triggered.units.aes.n = 1 := by decide +kernel
  have hq : takeBlock p1Triggered.units.qin = some (Vector.replicate 16 0, []) := by
    rw [show p1Triggered.units.qin = List.replicate 16 0 by decide +kernel]; rfl
  have ho : p1Triggered.units.qout = [] := by decide +kernel
  have hi0 : p1Triggered.units.aes.i = 0 := by decide +kernel
  have h1 := aes_takes (rest := []) hg hst hlt hq
  have h2 : takeTurn .aes (aesBlock (Vector.replicate 16 0) [] p1Triggered) = _ := aes_ends hg hst hi
  simp only [runTurns, h1, h2]
  simp [aesDone, aesBlock, State.setUnits, p1Block, p1Out, ho, hn, hi0]

theorem din_receives (bs : List Byte) : ∀ s : State, dmaGated s = false → s.units.din.st = .recv → s.units.qout = bs →
    s.units.din.k.toNat + bs.length ≤ (dwSize s.units.din.w0).toNat →
    (∀ j < bs.length, s.cfg.rangeInRegion (s.units.din.buf.toNat + s.units.din.k.toNat + j) 1 = true) →
    ∃ m, runTurns (List.replicate bs.length .din) s = some { s with mem := m, units := { s.units with
      qout := [], din := { s.units.din with k := s.units.din.k + BitVec.ofNat 12 bs.length } } } := by
  induction bs with
  | nil => 
    rintro ⟨cfg, rom, x, ctl, f, per, ⟨dout, din, aes, qin, qout, eof⟩, mem, aux⟩ _ _ hq _ _
    cases hq
    exact ⟨mem, by simp [runTurns]⟩
  | cons b rest ih =>
    intro s hg hst hq hk hr
    have hlt : s.units.din.k < dwSize s.units.din.w0 := by
      simp only [BitVec.lt_def, List.length_cons] at *; omega
    have hr0 := hr 0 (by simp)
    have h1 : takeTurn .din s = .next { s with mem := s.mem.write (s.units.din.buf.toNat + s.units.din.k.toNat) b, units := { s.units with
      qout := rest, din := { s.units.din with k := s.units.din.k + 1 } } } := by
      simp only [takeTurn, dinMove, hg, hst, hq, dinReceive, hlt, dmaWriteByte]
      simp only [Nat.add_zero] at hr0
      simp [hr0, State.setMem, State.setUnits]
    have hk1 : (s.units.din.k + 1).toNat = s.units.din.k.toNat + 1 := by
      have := s.units.din.k.isLt; have := (dwSize s.units.din.w0).isLt
      simp only [BitVec.lt_def] at hlt
      simp [BitVec.toNat_add]; omega
    obtain ⟨m, hm⟩ := ih { s with mem := s.mem.write (s.units.din.buf.toNat + s.units.din.k.toNat) b, units := { s.units with
      qout := rest, din := { s.units.din with k := s.units.din.k + 1 } } } hg hst rfl
      (by simp only [hk1, List.length_cons] at *; omega)
      (by intro j hj; have := hr (j+1) (by simp; omega); simp only [hk1]; rw [← this]; congr 1; omega)
    refine ⟨m, ?_⟩
    simp only [List.length_cons, List.replicate_succ, runTurns, h1, hm]
    congr 4
    rw [BitVec.add_assoc]; congr 1
    rw [BitVec.ofNat_add, BitVec.add_comm]; rfl

/-- P1 once DIN holds all 16 bytes, with the memory `m`. -/
def p1Received (m : Memory) : State :=
  { p1Block [] with mem := m, units := { (p1Block []).units with din := { p1Triggered.units.din with k := 16 } } }

theorem p1_received : ∃ m, runTurns (List.replicate 16 .din) (p1Block p1Out) = some (p1Received m) := by
  have hl : p1Out.length = 16 := by simp [p1Out]
  obtain ⟨m, hm⟩ := din_receives p1Out (p1Block p1Out) (by decide +kernel) (by decide +kernel) rfl
    (by rw [hl]; decide +kernel) (by rw [hl]; decide +kernel)
  rw [hl] at hm
  have hk : p1Triggered.units.din.k = 0 := by decide +kernel
  refine ⟨m, hm.trans ?_⟩
  simp [p1Received, p1Block, hk]

/-- From the end of the transfer, with a done AES and a success word in the input descriptor, four micro-ops end the run. -/
theorem finishes {s : State} (hc : s.cfg = .candidate) (hr : s.rom = seqRom)
    (hctl : s.ctl = ⟨34, .triggered, true, .ok, 0, 0, false⟩) (hf : s.noFault = true)
    (ha : aesGated s = false) (hst : s.units.aes.st = .done) (hi : s.units.qin = []) (ho : s.units.qout = [])
    (hdo : s.units.dout.st = .idle) (hdi : s.units.din.st = .idle) (hw : s.mem.read32 0x3FC80100 = 0x40010010) :
    ∃ t, runTurns (List.replicate 4 .seq) s = some t ∧ t.ctl = ⟨37, .released, false, .ok, 0, 0, false⟩ ∧
      t.noFault = true := by
  have e1 : takeTurn .seq s = exec .pollAes s := takeTurn_seq (by rw [hctl]) (u := 0xA0) (by rw [hctl, hr]; decide) (by decide)
  have v1 : aesStateValue s = s.cfg.vals.stateDone := by simp [aesStateValue, aesStateDrawn, ha, hctl, hst]
  have w1 : exec .pollAes s = .next (advance (enterState .awaitingDma (writeX .pollcnt 0 (aesStateRead s)))) := by
    simp [exec, execPollAes, v1]
  generalize hs1 : advance (enterState .awaitingDma (writeX .pollcnt 0 (aesStateRead s))) = s1 at w1
  have c1 : s1.ctl = ⟨35, .awaitingDma, true, .ok, 0, 0, false⟩ := by rw [← hs1]; simp [hctl]
  have e2 : takeTurn .seq s1 = exec .pollDesc s1 :=
    takeTurn_seq (by rw [c1]) (u := 0xA1) (by rw [c1, ← hs1]; simp only [advance_rom, enterState_rom, writeX_rom, aesStateRead_rom, hr]; decide) (by decide)
  have m1 : s1.mem.read32 s1.cfg.descIn.toNat = 0x40010010 := by
    rw [← hs1, ← hw]; simp only [advance_cfg, enterState_cfg, writeX_cfg, aesStateRead_cfg, hc, advance_mem, enterState_mem, writeX_mem, aesStateRead_mem]; rfl
  have d1 : descDone s1.cfg 0x40010010 = true := by rw [← hs1]; simp only [advance_cfg, enterState_cfg, writeX_cfg, aesStateRead_cfg, hc]; decide
  have w2 : exec .pollDesc s1 = .next (advance (writeX .pollcnt 0 (writeX .dw0 0x40010010 (seqMemRead s1.cfg.descIn.toNat s1)))) := by
    simp only [exec, execPollDesc, m1, d1]; rfl
  generalize hs2 : advance (writeX .pollcnt 0 (writeX .dw0 0x40010010 (seqMemRead s1.cfg.descIn.toNat s1))) = s2 at w2
  have c2 : s2.ctl = ⟨36, .awaitingDma, true, .ok, 0, 0, false⟩ := by rw [← hs2]; simp [c1]
  have e3 : takeTurn .seq s2 = exec .chkDma s2 :=
    takeTurn_seq (by rw [c2]) (u := 0x01) (by rw [c2, ← hs2, ← hs1]; simp only [advance_rom, enterState_rom, writeX_rom, aesStateRead_rom, seqMemRead_rom, hr]; decide) (by decide)
  have u2 : s2.units = s.units := by rw [← hs2, ← hs1]; simp
  have x2 : s2.xval .dw0 = 0x40010010 ∧ (s2.x.get .dw0).written = true := by
    rw [← hs2]; simp [State.xval, Session.get_set]
  have r2 : noteRead .dw0 s2 = s2 := by simp [noteRead, x2.2]
  have f2 : fifoFaultSeen s2 = false := by simp [fifoFaultSeen, drained, u2, hi, ho, hdo, hdi, c2]
  have p2 : s2.cfg = .candidate := by rw [← hs2, ← hs1]; simp [hc]
  have w3 : exec .chkDma s2 = .next (advance (enterState .done (fifoStatusRead s2))) := by
    simp only [exec, execChkDma, p2, r2, x2.1]
    simp [f2, show Params.candidate.checks = ⟨true, true, .bounded 3, .and, true, true⟩ from rfl]
    intro h; exact absurd h (by decide)
  generalize hs3 : advance (enterState .done (fifoStatusRead s2)) = s3 at w3
  have c3 : s3.ctl = ⟨37, .done, true, .ok, 0, 0, false⟩ := by rw [← hs3]; simp [c2]
  have e4 : takeTurn .seq s3 = exec .relExit s3 :=
    takeTurn_seq (by rw [c3]) (u := 0xC0) (by rw [c3, ← hs3, ← hs2, ← hs1]; simp only [advance_rom, enterState_rom, writeX_rom, aesStateRead_rom, seqMemRead_rom, fifoStatusRead_rom, hr]; decide) (by decide)
  have g3 : aesGated s3 = false := by
    rw [← ha]; simp only [aesGated, aesHeld, ← hs3, ← hs2, ← hs1]; simp
  have u3 : s3.units.aes.st = .done := by rw [← hs3]; simp [u2, hst]
  have k3 : s3.faults = s.faults := by rw [← hs3, ← hs2, ← hs1]; simp
  refine ⟨endRun (regWrite .aesDmaExit s3.cfg.vals.dmaExit s3), ?_, ?_, ?_⟩
  · simp only [List.replicate, runTurns, e1, w1, e2, w2, e3, w3, e4]; rfl
  · simp only [endRun, State.setCtl_ctl, regWrite_exit_ctl, c3, g3, u3]; simp
  · simp [State.noFault, k3]; simpa [State.noFault] using hf

/-- P1 after DIN's write-back, with the memory `m`. -/
def p1End (m : Memory) : State :=
  { p1Block [] with mem := m, units := { (p1Block []).units with
      qoutEof := false, din := { p1Triggered.units.din with st := .idle, k := 16 } } }

/-- A whole successful run: program P1 of 95_test_vectors.md, on a buffer of zeros. -/
theorem witness_SuccessfulRunWritesTheCiphertext :
    ∃ ts t, successfulRun .reset key1 iv1 0x3FC81000 0x3FC82000 1 ts t := by
  obtain ⟨m, hm⟩ := p1_received
  have hcfg : p1Triggered.cfg = .candidate := by decide +kernel
  have hdi : runTurns [.din] (p1Received m) = some (p1End (m.write32 0x3FC80100 0x40010010)) := by
    have hg : dmaGated (p1Received m) = false := by
      have : dmaGated p1Triggered = false := by decide +kernel
      exact this
    have hst : (p1Received m).units.din.st = .recv := by
      have : p1Triggered.units.din.st = .recv := by decide +kernel
      exact this
    have h1 : p1Triggered.units.din.desc = 0x3FC80100 := by decide +kernel
    have h2 : p1Triggered.units.din.w0 = 0x80000010 := by decide +kernel
    have h3 : Params.candidate.rangeInRegion (0x3FC80100 : Word).toNat 4 = true := by decide +kernel
    have h4 : dw0 (dwSize 0x80000010) 16 false true false = 0x40010010 := by decide
    have h5 : dinMove (p1Received m) = dinSuccess (p1Received m) := by simp only [dinMove, hg, hst]; rfl
    have h6 : dinSuccess (p1Received m) = p1End (m.write32 0x3FC80100 0x40010010) := by
      have h7 : (p1Received m).units.din.desc = 0x3FC80100 := h1
      have h8 : (p1Received m).units.din.w0 = 0x80000010 := h2
      have h9 : (p1Received m).units.din.k = 16 := rfl
      have h10 : (p1Received m).cfg = .candidate := hcfg
      simp only [dinSuccess, dmaWriteWord, h7, h8, h9, h10, h3, h4]
      simp [p1Received, p1End, p1Block, h1, h2, State.setMem, State.setUnits]
    simp only [runTurns, takeTurn, h5, h6]
  obtain ⟨t, ht, hc, hf⟩ := finishes (s := p1End (m.write32 0x3FC80100 0x40010010)) hcfg
    (show p1Triggered.rom = seqRom by decide +kernel)
    (show p1Triggered.ctl = _ by decide +kernel) (show p1Triggered.noFault = true by decide +kernel)
    (show aesGated p1Triggered = false by decide +kernel) rfl rfl rfl
    (show p1Triggered.units.dout.st = .idle by decide +kernel) rfl (Memory.read32_write32_same m _ _)
  have hrun : runTurns (p1Turns ++ ([.aes, .aes] ++ (List.replicate 16 .din ++ ([.din] ++ List.replicate 4 .seq))))
      .reset = some t := by
    simp only [runTurns_append, p1_triggered, Option.bind_some, p1_block, hm, hdi, ht]
  have hturns : ∀ u ∈ p1Turns.tail ++ ([.aes, .aes] ++ (List.replicate 16 .din ++ ([.din] ++ List.replicate 4 .seq))),
      isMachineTurn u = true := by decide +kernel
  have hduties : hostDuties .reset 0x3FC81000 0x3FC82000 1 := by unfold hostDuties disjointRanges; decide +kernel
  have hstart : startBitsZero .reset := by unfold startBitsZero; decide
  exact ⟨_, t, by decide, by decide, rfl, rfl, rfl, hstart, hduties, by decide, by decide, hturns, hrun, by rw [hc],
    by rw [hc], by rw [hc], hf⟩

/-- The hypotheses of `RerunGivesTheSameCiphertext`. -/
theorem witness_RerunGivesTheSameCiphertext :
    ∃ ts t, successfulRun .reset key1 iv1 0x3FC81000 0x3FC82000 1 ts t ∧
      ∀ n, n < 16 * (1 : Word).toNat → State.reset.mem.read ((0x3FC81000 : Word).toNat + n) =
        State.reset.mem.read ((0x3FC81000 : Word).toNat + n) := by
  obtain ⟨ts, t, h⟩ := witness_SuccessfulRunWritesTheCiphertext
  exact ⟨ts, t, h, fun _ _ => rfl⟩

/-- The hypotheses of `SecondEncryptionDecrypts`: a buffer of zeros is the encryption of the key stream. -/
theorem witness_SecondEncryptionDecrypts :
    ∃ (ts : List Turn) (t : State) (p : Nat → Byte), successfulRun .reset key1 iv1 0x3FC81000 0x3FC82000 1 ts t ∧
      ∀ (i : Nat) (j : Fin 16), i < (1 : Word).toNat →
        State.reset.mem.read ((0x3FC81000 : Word).toNat + (16 * i + j.val)) = ctrByte p key1 iv1 i j := by
  obtain ⟨ts, t, h⟩ := witness_SuccessfulRunWritesTheCiphertext
  refine ⟨ts, t, fun n => (Config.aes128 key1 iv1)[n % 16]'(Nat.mod_lt _ (by decide)), h, fun i j hi => ?_⟩
  have hi : i = 0 := by have : (1 : Word).toNat = 1 := rfl; omega
  subst hi
  have hj : (16 * 0 + j.val) % 16 = j.val := by omega
  simp only [ctrByte, hj, Function.iterate_zero, id_eq]
  exact (BitVec.xor_self (x := (Config.aes128 key1 iv1)[j])).symm

end Sys2Proof.Tests
end

section
/-! The packing of words: the descriptor word's two reserved fields (00_scope.md R14), and the counter increment on the
big-endian low word (R16). The other fields and the block packing are in the laws of bits. -/

namespace Sys2Proof.Machine

/-! ## The descriptor word's reserved fields -/

/-- Bits 24 to 27 of a descriptor word lie above both lengths and below every flag. -/
theorem dw0_reserved24 (size length : BitVec 12) (e f o : Bool) :
    (dw0 size length e f o).extractLsb' 24 4 = 0 := by
  apply BitVec.eq_of_getLsbD_eq
  intro i hi
  have hErr : ¬ 24 + i = 28 := by omega
  have hSuc : ¬ 24 + i = 30 := by omega
  have hOwner : ¬ 24 + i = 31 := by omega
  have hSize : size.getLsbD (24 + i) = false := BitVec.getLsbD_of_ge size _ (by omega)
  have hLength : length.getLsbD (24 + i - 12) = false := BitVec.getLsbD_of_ge length _ (by omega)
  simp [dw0, flagBit_getElem, show 24 + i < 32 by omega, hErr, hSuc, hOwner, hSize, hLength]

/-- Bit 29 lies between the two end-of-frame flags. -/
theorem dw0_reserved29 (size length : BitVec 12) (e f o : Bool) : (dw0 size length e f o).getLsbD 29 = false := by
  simp [dw0, flagBit_getElem, BitVec.getLsbD_of_ge]

/-- Settles O25: each field of the packed word is read back, and the four words of a block give the block. -/
theorem packedWordsReadBack : Obligations.PackedWordsReadBack :=
  ⟨fun size length e f o =>
    ⟨dwSize_dw0 size length e f o, dwLength_dw0 size length e f o, dwErrEof_dw0 size length e f o,
      dwSucEof_dw0 size length e f o, dwOwner_dw0 size length e f o, dw0_reserved24 size length e f o,
      dw0_reserved29 size length e f o⟩,
    blockOfWords_blockWord⟩

/-! ## The counter increment -/

/-- Big-endian is little-endian with the bytes in the opposite order. -/
theorem be32_eq_le32 (b0 b1 b2 b3 : Byte) : be32 b0 b1 b2 b3 = le32 b3 b2 b1 b0 := rfl

theorem be32_byteOf (w : Word) : be32 (byteOf w 3) (byteOf w 2) (byteOf w 1) (byteOf w 0) = w := by
  rw [be32_eq_le32, le32_byteOf]

/-- R16: bytes 12 to 15 of `inc32`, read big-endian, are the incremented low word. -/
theorem be32_inc32 (b : Block) : be32 (inc32 b)[12] (inc32 b)[13] (inc32 b)[14] (inc32 b)[15] =
    be32 b[12] b[13] b[14] b[15] + 1 :=
  be32_byteOf (be32 b[12] b[13] b[14] b[15] + 1)

/-- R16: `inc32` leaves bytes 0 to 11 unchanged. -/
theorem inc32_getElem_of_lt (b : Block) (i : Nat) (hi : i < 12) : (inc32 b)[i] = b[i] := by
  interval_cases i <;> rfl

/-- Settles O41: the low word is incremented modulo 2^32, and the bytes above it stay. -/
theorem inc32IsThe32BitIncrement : Obligations.Inc32IsThe32BitIncrement :=
  fun b => ⟨be32_inc32 b, fun j hj => inc32_getElem_of_lt b j.val hj⟩

end Sys2Proof.Machine
end

section
/-! The cases of a turn, as one inversion, and what the turns of the agents leave unchanged and can change: the invariants of
the state are derived from these. -/

namespace Sys2Proof.Machine

variable {s t : State} {u : Turn}

/-! ## The cases of a turn -/

/-- What the turn `u` does from `s` (43_orchestrator.md R170 to R172, R199, 44_autonomous_units.md R200, 70_reset_and_hazards.md
R270). -/
inductive TurnCase (s : State) : Turn → State → Prop where
  | idle (hb : s.ctl.busy = false) : TurnCase s .seq s
  | micro {c : Byte} {i : Instr} {t : State} (hb : s.ctl.busy = true) (hc : s.rom[s.ctl.upc.toNat]? = some c)
      (hi : decode c = .ok i) (he : exec i s = .next t) : TurnCase s .seq t
  | reserved {c : Byte} (hb : s.ctl.busy = true) (hc : s.rom[s.ctl.upc.toNat]? = some c)
      (hi : ∀ i, decode c ≠ .ok i) : TurnCase s .seq (reservedUop s)
  | agent {u : Turn} {t : State} (hu : isMachineTurn u = true) (hne : u ≠ .seq) (h : takeTurn u s = .next t) :
      TurnCase s u t
  | reentry {key iv : Block} {pt ct bc : Word} (hb : s.ctl.busy = true) :
      TurnCase s (.start key iv pt ct bc) (s.setFaults { s.faults with reentry := true })
  | start {key iv : Block} {pt ct bc : Word} (hb : s.ctl.busy = false) :
      TurnCase s (.start key iv pt ct bc) (acceptStart key iv pt ct bc s)
  | noStore {a : Word} {b : Byte} : TurnCase s (.store a b) s
  | store {a : Word} {b : Byte} (hm : mayStore s a.toNat = true) :
      TurnCase s (.store a b) (s.setMem (s.mem.write a.toNat b))
  | systemReset : TurnCase s .systemReset (systemReset s)

/-- Every turn that answers a next state is one of the cases. -/
theorem takeTurn_case (h : takeTurn u s = .next t) : TurnCase s u t := by
  cases u with
  | seq =>
    obtain ⟨hb, rfl⟩ | ⟨hb, c, hc, ⟨i, hi, he⟩ | ⟨hi, rfl⟩⟩ := takeTurn_seq_cases h
    · exact .idle hb
    · exact .micro hb hc hi he
    · exact .reserved hb hc hi
  | start key iv pt ct bc =>
    cases h
    obtain ⟨hb, e⟩ | ⟨hb, e⟩ := startRequest_cases key iv pt ct bc s <;> rw [e]
    · exact .reentry hb
    · exact .start hb
  | store a b =>
    cases h
    obtain e | ⟨hm, e⟩ := hostStore_cases a b s <;> rw [e]
    · exact .noStore
    · exact .store hm
  | systemReset => cases h; exact .systemReset
  | dout => exact .agent rfl (by simp) h
  | din => exact .agent rfl (by simp) h
  | dinError => exact .agent rfl (by simp) h
  | aes => exact .agent rfl (by simp) h
  | chaos m => exact .agent rfl (by simp) h

/-- A property that taking the turn off and every turn keep is kept by every step. -/
theorem step_keeps {P : State → Prop} (hpop : ∀ s, P s → P (popTurn s))
    (hturn : ∀ u s t, s.cfg.wf = true → takeTurn u s = .next t → P s → P t) (h : step s = .next t) (hs : P s) : P t := by
  obtain ⟨hw, ht⟩ := step_next h
  exact hturn _ _ _ (by simpa using hw) ht (hpop s hs)

/-! ## The system reset -/

@[simp] theorem systemReset_cfg (s : State) : (systemReset s).cfg = s.cfg := rfl
@[simp] theorem systemReset_rom (s : State) : (systemReset s).rom = s.rom := rfl
@[simp] theorem systemReset_x (s : State) : (systemReset s).x = .afterReset := rfl
@[simp] theorem systemReset_ctl (s : State) : (systemReset s).ctl = .afterReset := rfl
@[simp] theorem systemReset_faults (s : State) : (systemReset s).faults = s.faults := rfl
@[simp] theorem systemReset_per (s : State) : (systemReset s).per = drawnRegs s.cfg s.aux.draws := rfl
@[simp] theorem systemReset_units (s : State) : (systemReset s).units = .afterReset := rfl
@[simp] theorem systemReset_mem (s : State) : (systemReset s).mem = .ofCells (Config.drawMem (s.aux.draws + 24)) := rfl

/-! ## The turns of the agents -/

/-- The five shapes of an agent's turn, each with the move it makes. -/
theorem agent_cases (hu : isMachineTurn u = true) (hne : u ≠ .seq) (h : takeTurn u s = .next t) :
    (u = .dout ∧ t = doutMove s) ∨ (u = .din ∧ t = dinMove s) ∨ (u = .dinError ∧ t = dinErrorMove s) ∨
      (u = .aes ∧ t = aesMove s) ∨ ∃ m, u = .chaos m ∧ t = chaosMove m s := by
  cases u with
  | seq => exact absurd rfl hne
  | dout => cases h; exact .inl ⟨rfl, rfl⟩
  | din => cases h; exact .inr (.inl ⟨rfl, rfl⟩)
  | dinError => cases h; exact .inr (.inr (.inl ⟨rfl, rfl⟩))
  | aes => cases h; exact .inr (.inr (.inr (.inl ⟨rfl, rfl⟩)))
  | chaos m => cases h; exact .inr (.inr (.inr (.inr ⟨m, rfl, rfl⟩)))
  | start => cases hu
  | store => cases hu
  | systemReset => cases hu

/-- Settles O45: every move leaves the sequencer, the registers and `F` alone, and of the control fields sets only `s.chaos`. -/
theorem agentsLeaveTheSequencerAlone : Obligations.AgentsLeaveTheSequencerAlone := by
  intro u s t hu hne h
  obtain ⟨_, rfl⟩ | ⟨_, rfl⟩ | ⟨_, rfl⟩ | ⟨_, rfl⟩ | ⟨m, _, rfl⟩ := agent_cases hu hne h
  · exact ⟨by simp, by simp, by simp, by simp, by simp, by simp, doutMove_ctl s⟩
  · exact ⟨by simp, by simp, by simp, by simp, by simp, by simp, dinMove_ctl s⟩
  · exact ⟨by simp, by simp, by simp, by simp, by simp, by simp, dinErrorMove_ctl s⟩
  · exact ⟨by simp, by simp, by simp, by simp, by simp, by simp, false, by simp⟩
  · exact ⟨by simp, by simp, by simp, by simp, by simp, by simp, chaosMove_ctl s m⟩

/-! ### Memory -/

/-- The one byte a write changes. -/
theorem Memory.eq_of_write_changes {m : Memory} {a a' : Nat} {b : Byte} (h : (m.write a b).read a' ≠ m.read a') : a' = a :=
  not_imp_comm.1 (Memory.read_write_of_ne m a b a') h

/-- The four bytes a word write changes at most. -/
theorem Memory.mem_of_write32_changes {m : Memory} {a a' : Nat} {v : Word} (h : (m.write32 a v).read a' ≠ m.read a') :
    a ≤ a' ∧ a' < a + 4 := by
  by_contra hout
  exact h (Memory.read_write32_outside m a v a' (by omega))

/-- R230 (f): an agent writes at most one byte or one word, and that inside `P_DMA_REGION`. -/
theorem agent_mem (hu : isMachineTurn u = true) (hne : u ≠ .seq) (h : takeTurn u s = .next t) : t.mem = s.mem ∨
    (∃ a b, s.cfg.rangeInRegion a 1 = true ∧ t.mem = s.mem.write a b) ∨
      ∃ a v, s.cfg.rangeInRegion a 4 = true ∧ t.mem = s.mem.write32 a v := by
  obtain ⟨_, rfl⟩ | ⟨_, rfl⟩ | ⟨_, rfl⟩ | ⟨_, rfl⟩ | ⟨m, _, rfl⟩ := agent_cases hu hne h
  · obtain e | ⟨hr, _, _, e⟩ := doutMove_mem s
    · exact .inl e
    · exact .inr (.inr ⟨_, _, hr, e⟩)
  · obtain e | ⟨_, _, hr, b, e⟩ | ⟨_, hr, v, e⟩ := dinMove_mem s
    · exact .inl e
    · exact .inr (.inl ⟨_, b, hr, e⟩)
    · exact .inr (.inr ⟨_, v, hr, e⟩)
  · obtain e | ⟨hr, v, e⟩ := dinErrorMove_mem s
    · exact .inl e
    · exact .inr (.inr ⟨_, v, hr, e⟩)
  · exact .inl (aesMove_mem s)
  · obtain e | ⟨off, b, _, hr, e⟩ | ⟨hr, v, e⟩ := chaosMove_mem s m
    · exact .inl e
    · exact .inr (.inl ⟨_, b, hr, e⟩)
    · exact .inr (.inr ⟨_, v, hr, e⟩)

/-- DIN's moves, its error end and the chaos moves write one byte of the armed buffer or the descriptor word. -/
theorem din_mem (hu : u = .din ∨ u = .dinError ∨ ∃ m, u = .chaos m) (h : takeTurn u s = .next t) : t.mem = s.mem ∨
    (∃ off b, off < (dwSize s.units.din.w0).toNat ∧ t.mem = s.mem.write (s.units.din.buf.toNat + off) b) ∨
      ∃ v, t.mem = s.mem.write32 s.units.din.desc.toNat v := by
  obtain rfl | rfl | ⟨m, rfl⟩ := hu <;> cases h
  · obtain e | ⟨_, hk, _, b, e⟩ | ⟨_, _, v, e⟩ := dinMove_mem s
    · exact .inl e
    · exact .inr (.inl ⟨_, b, BitVec.lt_def.1 hk, e⟩)
    · exact .inr (.inr ⟨v, e⟩)
  · obtain e | ⟨_, v, e⟩ := dinErrorMove_mem s
    · exact .inl e
    · exact .inr (.inr ⟨v, e⟩)
  · obtain e | ⟨off, b, hoff, _, e⟩ | ⟨_, v, e⟩ := chaosMove_mem s m
    · exact .inl e
    · exact .inr (.inl ⟨off, b, hoff, e⟩)
    · exact .inr (.inr ⟨v, e⟩)

/-- Settles O44: DOUT's one write is its descriptor word; DIN's and the chaos moves' is a byte below the buffer's size or the
descriptor word; the AES has none. -/
theorem agentsWriteOnlyTheirSegments : Obligations.AgentsWriteOnlyTheirSegments := by
  refine ⟨fun s t h => ?_, fun u s t hu h a ha => ?_, fun s t h => ?_⟩
  · cases h
    intro a ha
    obtain e | ⟨_, _, _, e⟩ := doutMove_mem s <;> rw [e]
    exact Memory.read_write32_outside _ _ _ _ ha
  · obtain e | ⟨off, b, hoff, e⟩ | ⟨v, e⟩ := din_mem hu h <;> rw [e] at ha
    · exact absurd rfl ha
    · have := Memory.eq_of_write_changes ha
      omega
    · exact .inr (Memory.mem_of_write32_changes ha)
  · cases h
    intro a
    rw [aesMove_mem]

/-! ### The other agents -/

@[simp] theorem doutMove_din (s : State) : (doutMove s).units.din = s.units.din := by
  unfold doutMove doutFetch doutSend doutEnd; simp only; (repeat' split) <;> simp
@[simp] theorem doutMove_aes (s : State) : (doutMove s).units.aes = s.units.aes := by
  unfold doutMove doutFetch doutSend doutEnd; simp only; (repeat' split) <;> simp
@[simp] theorem dinMove_dout (s : State) : (dinMove s).units.dout = s.units.dout := by
  unfold dinMove dinFetch dinReceive dinSuccess; simp only; (repeat' split) <;> simp
@[simp] theorem dinMove_aes (s : State) : (dinMove s).units.aes = s.units.aes := by
  unfold dinMove dinFetch dinReceive dinSuccess; simp only; (repeat' split) <;> simp
@[simp] theorem dinErrorMove_dout (s : State) : (dinErrorMove s).units.dout = s.units.dout := by
  unfold dinErrorMove dinFail; simp only; split <;> simp
@[simp] theorem dinErrorMove_aes (s : State) : (dinErrorMove s).units.aes = s.units.aes := by
  unfold dinErrorMove dinFail; simp only; split <;> simp
@[simp] theorem aesMove_dout (s : State) : (aesMove s).units.dout = s.units.dout := by
  unfold aesMove aesBlock aesDone; (repeat' split) <;> rfl
@[simp] theorem aesMove_din (s : State) : (aesMove s).units.din = s.units.din := by
  unfold aesMove aesBlock aesDone; (repeat' split) <;> rfl

/-- R221: a gated AES has no move. -/
theorem aesMove_of_gated (hg : aesGated s = true) : aesMove s = s := if_pos hg
/-- R221: a gated DOUT has no move. -/
theorem doutMove_of_gated (hg : dmaGated s = true) : doutMove s = s := if_pos hg
/-- R221: a gated DIN has no move. -/
theorem dinMove_of_gated (hg : dmaGated s = true) : dinMove s = s := if_pos hg

/-- What a chaos move can do to the AES: set its state, on an ungated unit (R231). -/
theorem chaosMove_aes (m : ChaosMove) (s : State) : (chaosMove m s).units.aes = s.units.aes ∨
    (aesGated s = false ∧ ∃ q, (chaosMove m s).units.aes = { s.units.aes with st := q }) := by
  unfold chaosMove
  split
  · rename_i hg
    cases m with
    | aesState q => exact .inr ⟨by simpa [chaosGuard] using (Bool.and_eq_true_iff.1 hg).2, q, rfl⟩
    | _ => exact .inl (by simp [chaosEffect])
  · exact .inl rfl

/-- What a chaos move can do to DOUT: stop it, on an ungated unit (R231). -/
theorem chaosMove_dout (m : ChaosMove) (s : State) : (chaosMove m s).units.dout = s.units.dout ∨
    (dmaGated s = false ∧ (chaosMove m s).units.dout = { s.units.dout with st := .idle }) := by
  unfold chaosMove
  split
  · rename_i hg
    cases m with
    | doutStop =>
      simp only [chaosGuard, Bool.and_eq_true, Bool.not_eq_true'] at hg
      exact .inr ⟨hg.2.1, rfl⟩
    | _ => exact .inl (by simp [chaosEffect])
  · exact .inl rfl

/-- No chaos move changes DIN's own fields (R231). -/
@[simp] theorem chaosMove_din (m : ChaosMove) (s : State) : (chaosMove m s).units.din = s.units.din := by
  unfold chaosMove
  split
  · cases m <;> simp [chaosEffect]
  · rfl

/-- An agent's turn changes the AES only where the AES is not gated. -/
theorem agent_aes (hu : isMachineTurn u = true) (hne : u ≠ .seq) (h : takeTurn u s = .next t) :
    t.units.aes = s.units.aes ∨ aesGated s = false := by
  obtain ⟨_, rfl⟩ | ⟨_, rfl⟩ | ⟨_, rfl⟩ | ⟨_, rfl⟩ | ⟨m, _, rfl⟩ := agent_cases hu hne h
  · exact .inl (by simp)
  · exact .inl (by simp)
  · exact .inl (by simp)
  · cases hg : aesGated s
    · exact .inr rfl
    · exact .inl (by rw [aesMove_of_gated hg])
  · exact (chaosMove_aes m s).imp_right And.left

/-- An agent's turn changes DOUT only where the DMA unit is not gated, and then by DOUT's own move or a stop. -/
theorem agent_dout (hu : isMachineTurn u = true) (hne : u ≠ .seq) (h : takeTurn u s = .next t) :
    t.units.dout = s.units.dout ∨ (dmaGated s = false ∧
      (t.units.dout = (doutMove s).units.dout ∨ t.units.dout = { s.units.dout with st := .idle })) := by
  obtain ⟨_, rfl⟩ | ⟨_, rfl⟩ | ⟨_, rfl⟩ | ⟨_, rfl⟩ | ⟨m, _, rfl⟩ := agent_cases hu hne h
  · cases hg : dmaGated s
    · exact .inr ⟨rfl, .inl rfl⟩
    · exact .inl (by rw [doutMove_of_gated hg])
  · exact .inl (by simp)
  · exact .inl (by simp)
  · exact .inl (by simp)
  · exact (chaosMove_dout m s).imp_right fun ⟨hg, e⟩ => ⟨hg, .inr e⟩

/-- An agent's turn changes DIN only where the DMA unit is not gated, and then by DIN's own move or its error end. -/
theorem agent_din (hu : isMachineTurn u = true) (hne : u ≠ .seq) (h : takeTurn u s = .next t) :
    t.units.din = s.units.din ∨ (dmaGated s = false ∧
      (t.units.din = (dinMove s).units.din ∨ t.units.din = { s.units.din with st := .idle })) := by
  obtain ⟨_, rfl⟩ | ⟨_, rfl⟩ | ⟨_, rfl⟩ | ⟨_, rfl⟩ | ⟨m, _, rfl⟩ := agent_cases hu hne h
  · exact .inl (by simp)
  · cases hg : dmaGated s
    · exact .inr ⟨rfl, .inl rfl⟩
    · exact .inl (by rw [dinMove_of_gated hg])
  · unfold dinErrorMove
    split
    · rename_i hd
      simp only [dinErrorEnabled, Bool.and_eq_true, Bool.not_eq_true'] at hd
      exact .inr ⟨hd.1.1, .inr rfl⟩
    · exact .inl rfl
  · exact .inl (by simp)
  · exact .inl (by simp)

end Sys2Proof.Machine
end

section
/-! The control fields and the parts of the state that are fixed: what an idle sequencer does, what the system reset leaves, where
`s.state` changes, and what no step takes back. -/

namespace Sys2Proof.Machine

variable {s t : State} {u : Turn} {i : Instr}

/-! ## The idle sequencer and the reset -/

/-- Settles O10, by induction on the number of turns: each leaves the idle sequencer's state, which is idle again. -/
theorem idleSequencerTakesNoStep : Obligations.IdleSequencerTakesNoStep := by
  intro s n hb
  have hturn : takeTurn .seq s = .next s := by simp [takeTurn, seqTurn, hb]
  induction n with
  | zero => rfl
  | succ n ih => simpa [List.replicate_succ, runTurns, hturn] using ih

/-- R52: a system reset leaves every session register but `POLLCNT` unwritten. -/
theorem afterReset_unwritten (r : XReg) (hr : r ≠ .pollcnt) : (Session.afterReset.get r).written = false := by
  cases r with
  | pollcnt => exact absurd rfl hr
  | _ => rfl

/-- Settles O34: the two code tables, and the state the reset puts in place. -/
theorem systemResetState : Obligations.SystemResetState := by
  refine ⟨fun s => rfl, by decide, by decide, fun s => ⟨systemReset s, rfl, ?_⟩⟩
  exact ⟨rfl, rfl, afterReset_unwritten, rfl, rfl, rfl, rfl, rfl, rfl, rfl, rfl, rfl, rfl⟩

/-! ## What no turn takes back -/

/-- R30, R95: no turn changes the parameters or the ROM. -/
theorem takeTurn_fixed (h : takeTurn u s = .next t) : t.cfg = s.cfg ∧ t.rom = s.rom := by
  cases takeTurn_case h with
  | micro _ _ _ he => exact exec_fixed he
  | agent hu hne h =>
    obtain ⟨hcfg, hrom, _⟩ := agentsLeaveTheSequencerAlone u s t hu hne h
    exact ⟨hcfg, hrom⟩
  | start => simp
  | _ => exact ⟨rfl, rfl⟩

/-- Every name in `f` is in `g`. -/
def FaultSet.subset (f g : FaultSet) : Prop :=
  (f.unwrittenRead = true → g.unwrittenRead = true) ∧ (f.reentry = true → g.reentry = true) ∧
    (f.reservedUop = true → g.reservedUop = true)

theorem FaultSet.subset_of_eq {f g : FaultSet} (h : g = f) : f.subset g := by subst h; exact ⟨id, id, id⟩

/-- R245: no turn removes a name from `F`. -/
theorem takeTurn_faults (h : takeTurn u s = .next t) : s.faults.subset t.faults := by
  cases takeTurn_case h with
  | micro _ _ _ he =>
    obtain e | ⟨e, _⟩ := exec_faults he <;> rw [e]
    · exact FaultSet.subset_of_eq rfl
    · exact ⟨fun _ => rfl, id, id⟩
  | reserved => exact ⟨id, id, fun _ => rfl⟩
  | agent hu hne h =>
    obtain ⟨_, _, _, _, hf, _⟩ := agentsLeaveTheSequencerAlone u s t hu hne h
    exact FaultSet.subset_of_eq hf
  | reentry => exact ⟨id, fun _ => rfl, id⟩
  | start => exact FaultSet.subset_of_eq (acceptStart_faults ..)
  | _ => exact FaultSet.subset_of_eq rfl

/-- R49: a micro-op never clears `s.chaos`. -/
theorem exec_chaos (h : exec i s = .next t) (hc : s.ctl.chaos = true) : t.ctl.chaos = true := by
  obtain ⟨_, c, e⟩ | ⟨e', n, e, _⟩ | ⟨_, c, e⟩ | ⟨_, e⟩ := exec_ctl h <;> simp [e, hc]

/-- R49: no turn but the system reset clears `s.chaos`. -/
theorem takeTurn_chaos (h : takeTurn u s = .next t) (hu : u ≠ .systemReset) (hc : s.ctl.chaos = true) :
    t.ctl.chaos = true := by
  cases takeTurn_case h with
  | micro _ _ _ he => exact exec_chaos he hc
  | agent hm hne h =>
    obtain ⟨_, _, _, _, _, _, c, e⟩ := agentsLeaveTheSequencerAlone u s t hm hne h
    simp [e, hc]
  | start =>
    obtain ⟨c, e⟩ := acceptStart_ctl _ _ _ _ _ s
    rw [e]; simp [hc]
  | systemReset => exact absurd rfl hu
  | _ => exact hc

/-- Settles O50: the turn taken off changes none of these parts, and no turn takes any of them back. -/
theorem fixedAndStickyParts : Obligations.FixedAndStickyParts := by
  intro s t h
  obtain ⟨_, ht⟩ := step_next h
  obtain ⟨hcfg, hrom⟩ := takeTurn_fixed ht
  obtain ⟨hunwritten, hreentry, hreserved⟩ := takeTurn_faults ht
  rw [popTurn_faults] at hunwritten hreentry hreserved
  refine ⟨by simpa using hcfg, by simpa using hrom, hunwritten, hreentry, hreserved, fun hc hu => ?_⟩
  exact takeTurn_chaos ht hu (by simpa using hc)

/-! ## Where `s.state` changes -/

theorem indexOf_lt (c : Byte) : indexOf c < 4 := (c.extractLsb' 0 2).isLt

/-- R92: every row of the opcode map makes well-formed micro-ops of the four indices. -/
theorem opRows_wf : ∀ r ∈ opRows, ∀ n : Fin 4, (r.make n).wf = true := by decide

/-- R92: the decoder gives well-formed micro-ops only. -/
theorem decode_wf {c : Byte} (h : decode c = .ok i) : i.wf = true := by
  unfold decode at h
  split at h
  · rename_i r hr
    cases h
    exact opRows_wf r (List.mem_of_find?_eq_some hr) ⟨indexOf c, indexOf_lt c⟩
  · cases h

/-- The one index of `aes.key` whose completion changes `s.state`. -/
theorem decode_aesKey_last {c : Byte} {n : Nat} (h : decode c = .ok (.aesKey n)) (hn : n % 4 = 3) : n = 3 := by
  have hlt : n < 4 := by simpa [Instr.wf] using decode_wf h
  omega

/-- R26: the completions that change `s.state`. -/
theorem completedState_changes {q : SeqState} {c : Byte} (hd : decode c = .ok i) (h : completedState i q ≠ q) :
    (i = .clkRstclr ∧ completedState i q = .clockEnabled) ∨ (i = .dmaOutStart ∧ completedState i q = .dmaArmed) ∨
      (i = .aesKey 3 ∧ completedState i q = .keyProgrammed) ∨ (i = .aesTrigger ∧ completedState i q = .triggered) ∨
      (i = .pollAes ∧ completedState i q = .awaitingDma) ∨ (i = .chkDma ∧ completedState i q = .done) := by
  cases i with
  | aesKey n =>
    by_cases hn : n % 4 = 3
    · obtain rfl := decode_aesKey_last hd hn
      exact .inr (.inr (.inl ⟨rfl, rfl⟩))
    · exact absurd (if_neg hn) h
  | clkRstclr => exact .inl ⟨rfl, rfl⟩
  | dmaOutStart => exact .inr (.inl ⟨rfl, rfl⟩)
  | aesTrigger => exact .inr (.inr (.inr (.inl ⟨rfl, rfl⟩)))
  | pollAes => exact .inr (.inr (.inr (.inr (.inl ⟨rfl, rfl⟩))))
  | chkDma => exact .inr (.inr (.inr (.inr (.inr ⟨rfl, rfl⟩))))
  | _ => exact absurd rfl h

/-- R26: the points of `s.state` among the micro-ops: the completions of R26, an end of the run, an exception. -/
theorem exec_changes_state {c : Byte} (hd : decode c = .ok i) (h : exec i s = .next t) (hq : t.ctl.state ≠ s.ctl.state) :
    (i = .clkRstclr ∧ t.ctl.state = .clockEnabled) ∨ (i = .dmaOutStart ∧ t.ctl.state = .dmaArmed) ∨
      (i = .aesKey 3 ∧ t.ctl.state = .keyProgrammed) ∨ (i = .aesTrigger ∧ t.ctl.state = .triggered) ∨
      (i = .pollAes ∧ t.ctl.state = .awaitingDma) ∨ (i = .chkDma ∧ t.ctl.state = .done) ∨
      ((i = .relExit ∨ i = .chkLen) ∧ t.ctl.state = .released) ∨ t.ctl.state = .error := by
  obtain ⟨_, c, e⟩ | ⟨e', n, e, _⟩ | ⟨hi, c, e⟩ | ⟨_, e⟩ := exec_ctl h <;> simp only [e, takeException_ctl] at hq ⊢
  · have := completedState_changes hd hq
    tauto
  · simp
  · simp [hi]
  · exact absurd rfl hq

/-- Settles O49: of the turns only an accepted start, a system reset and a micro-op can change `s.state`. -/
theorem stateChangesOnlyAtItsPoints : Obligations.StateChangesOnlyAtItsPoints := by
  intro s t h hq
  obtain ⟨_, ht⟩ := step_next h
  have hctl : (popTurn s).ctl = s.ctl := popTurn_ctl s
  have hrom : (popTurn s).rom = s.rom := popTurn_rom s
  rw [← hctl] at hq
  rw [← hctl, ← hrom]
  generalize s.turn = u at ht ⊢
  generalize popTurn s = r at ht hq ⊢
  cases takeTurn_case ht with
  | micro hb hc hi he => exact .inr (.inr ⟨rfl, hb, _, _, hc, hi, exec_changes_state hi he hq⟩)
  | agent hu hne h =>
    obtain ⟨_, _, _, _, _, _, c, e⟩ := agentsLeaveTheSequencerAlone _ _ _ hu hne h
    exact absurd (by rw [e]) hq
  | start hb =>
    obtain ⟨c, e⟩ := acceptStart_ctl _ _ _ _ _ r
    exact .inl ⟨hb, by rw [e], _, _, _, _, _, rfl⟩
  | systemReset => exact .inr (.inl ⟨rfl, rfl⟩)
  | _ => exact absurd rfl hq

end Sys2Proof.Machine
end

section
/-! The invariants of memory and of the agents that every step keeps: the canonical form of memory (10_state.md R50), the start
bits and the agents of a held unit (R34, 44_autonomous_units.md R221), and the byte counts of the segments (R42). -/

namespace Sys2Proof.Machine

variable {s t : State} {u : Turn} {i : Instr}

/-! ## Memory in canonical form -/

/-- A memory in canonical form, inside the 32-bit space (R50). -/
def Memory.canonical (m : Memory) : Prop := m.wf ∧ m.inSpace

theorem Memory.canonical_write {m : Memory} {a : Nat} (b : Byte) (h : m.canonical) (ha : a < 2 ^ 32) :
    (m.write a b).canonical :=
  ⟨write_wf m a b h.1, write_inSpace m a b h.2 ha⟩

theorem Memory.canonical_write32 {m : Memory} {a : Nat} (v : Word) (h : m.canonical) (ha : a + 4 ≤ 2 ^ 32) :
    (m.write32 a v).canonical :=
  ⟨write32_wf m a v h.1, write32_inSpace m a v h.2 ha⟩

/-- The descriptor words lie inside the 32-bit space, since legal parameters put both descriptors in `P_DMA_REGION` (R73). -/
theorem storedWord_inSpace {p : Params} {a : Nat} (hw : p.wf = true) (h : storedWord i p = some a) : a + 4 ≤ 2 ^ 32 := by
  obtain ⟨hout, hin⟩ := Params.wf_descInRegion hw
  have hspace := Params.wf_regionInSpace hw
  have := rangeInRegion_lt p _ 11 hspace hout
  have := rangeInRegion_lt p _ 11 hspace hin
  cases i <;> simp only [storedWord, Option.some.injEq, reduceCtorEq] at h <;> omega

/-- R50, R60: every turn keeps memory in canonical form. -/
theorem takeTurn_keeps_canonical (hw : s.cfg.wf = true) (h : takeTurn u s = .next t) (hm : s.mem.canonical) :
    t.mem.canonical := by
  have hspace := Params.wf_regionInSpace hw
  cases takeTurn_case h with
  | micro _ _ _ he =>
    obtain ⟨_, e⟩ | ⟨a, v, ha, e⟩ := exec_mem he <;> rw [e]
    · exact hm
    · exact Memory.canonical_write32 v hm (storedWord_inSpace hw ha)
  | agent hu hne h =>
    obtain e | ⟨a, b, hr, e⟩ | ⟨a, v, hr, e⟩ := agent_mem hu hne h <;> rw [e]
    · exact hm
    · exact Memory.canonical_write b hm (rangeInRegion_lt _ a 0 hspace hr)
    · exact Memory.canonical_write32 v hm (rangeInRegion_lt _ a 3 hspace hr)
  | start => rw [acceptStart_mem]; exact hm
  | store => exact Memory.canonical_write _ hm (BitVec.isLt _)
  | systemReset => exact ⟨Memory.ofCells_wf _, Memory.ofCells_inSpace _⟩
  | _ => exact hm

/-- Settles O51: the writes of legal parameters are at 32-bit addresses, and a byte write keeps the canonical form. -/
theorem memoryStaysCanonical : Obligations.MemoryStaysCanonical :=
  fun _ _ h hm => step_keeps (P := fun s => s.mem.canonical) (fun s hs => by simpa using hs)
    (fun _ _ _ hw ht => takeTurn_keeps_canonical hw ht) h hm

/-! ## The start bits -/

/-- R34: what the start bits read depends on the parameters and the registers alone. -/
theorem startBitsZero_of_frame (hcfg : t.cfg = s.cfg) (hper : t.per = s.per) (hs : startBitsZero s) : startBitsZero t := by
  rw [startBitsZero, hcfg, hper]; exact hs

/-- R34: every turn keeps the start bits 0; a system reset draws them as 0 (log 25). -/
theorem takeTurn_keeps_startBitsZero (h : takeTurn u s = .next t) (hs : startBitsZero s) : startBitsZero t := by
  cases takeTurn_case h with
  | micro _ _ _ he => exact exec_startBitsZero he hs
  | agent hu hne h =>
    obtain ⟨hcfg, _, _, hper, _⟩ := agentsLeaveTheSequencerAlone _ _ _ hu hne h
    exact startBitsZero_of_frame hcfg hper hs
  | start => exact startBitsZero_of_frame (acceptStart_cfg ..) (acceptStart_per ..) hs
  | systemReset => exact ⟨bitOf_clear _ _, bitOf_clear _ _⟩
  | _ => exact startBitsZero_of_frame rfl rfl hs

/-! ## Held units -/

theorem aesGated_of_held (h : aesHeld s = true) : aesGated s = true := by simp [aesGated, h]
theorem dmaGated_of_held (h : dmaHeld s = true) : dmaGated s = true := by simp [dmaGated, h]

/-- R221: which units are held depends on the parameters and the registers alone, and whether their agents are idle on the
agents. -/
theorem heldIdle_of_frame (hcfg : t.cfg = s.cfg) (hper : t.per = s.per) (hunits : t.units = s.units) (hs : heldIdle s) :
    heldIdle t := by
  simpa only [heldIdle, aesHeld, dmaHeld, hcfg, hper, hunits] using hs

/-- R221: a micro-op takes no unit into reset, and starts no agent of a held one. -/
theorem exec_heldIdle (h : exec i s = .next t) (hs : heldIdle s) : heldIdle t := by
  obtain ⟨haesHeld, hdmaHeld⟩ := exec_held h
  obtain ⟨haes, hdma⟩ := hs
  refine ⟨fun hheld => ?_, fun hheld => ⟨?_, ?_⟩⟩
  · have hheld' : aesHeld s = true := by simpa [hheld] using haesHeld.symm
    obtain e | e | ⟨hfree, _⟩ := exec_aes h
    · rw [e]; exact haes hheld'
    · rw [e]
    · simp [hheld'] at hfree
  · have hheld' : dmaHeld s = true := by simpa [hheld] using hdmaHeld.symm
    obtain e | e | ⟨hfree, _⟩ := exec_dout h
    · rw [e]; exact (hdma hheld').1
    · rw [e]
    · simp [hheld'] at hfree
  · have hheld' : dmaHeld s = true := by simpa [hheld] using hdmaHeld.symm
    obtain e | e | ⟨hfree, _⟩ := exec_din h
    · rw [e]; exact (hdma hheld').2
    · rw [e]
    · simp [hheld'] at hfree

/-- R221: an agent of a held unit has no move. -/
theorem agent_heldIdle (hu : isMachineTurn u = true) (hne : u ≠ .seq) (h : takeTurn u s = .next t) (hs : heldIdle s) :
    heldIdle t := by
  obtain ⟨hcfg, _, _, hper, _⟩ := agentsLeaveTheSequencerAlone _ _ _ hu hne h
  have haesHeld : aesHeld t = aesHeld s := by simp only [aesHeld, hcfg, hper]
  have hdmaHeld : dmaHeld t = dmaHeld s := by simp only [dmaHeld, hcfg, hper]
  refine ⟨fun hheld => ?_, fun hheld => ⟨?_, ?_⟩⟩
  · rw [haesHeld] at hheld
    obtain e | hg := agent_aes hu hne h
    · rw [e]; exact hs.1 hheld
    · simp [aesGated_of_held hheld] at hg
  · rw [hdmaHeld] at hheld
    obtain e | ⟨hg, _⟩ := agent_dout hu hne h
    · rw [e]; exact (hs.2 hheld).1
    · simp [dmaGated_of_held hheld] at hg
  · rw [hdmaHeld] at hheld
    obtain e | ⟨hg, _⟩ := agent_din hu hne h
    · rw [e]; exact (hs.2 hheld).2
    · simp [dmaGated_of_held hheld] at hg

/-- R221: every turn keeps the agents of a held unit idle. -/
theorem takeTurn_keeps_heldIdle (h : takeTurn u s = .next t) (hs : heldIdle s) : heldIdle t := by
  cases takeTurn_case h with
  | micro _ _ _ he => exact exec_heldIdle he hs
  | agent hu hne h => exact agent_heldIdle hu hne h hs
  | start => exact heldIdle_of_frame (acceptStart_cfg ..) (acceptStart_per ..) (acceptStart_units ..) hs
  | systemReset => exact ⟨fun _ => rfl, fun _ => ⟨rfl, rfl⟩⟩
  | _ => exact heldIdle_of_frame rfl rfl rfl hs

/-- Settles O53: both are kept by taking the turn off and by every turn. -/
theorem startBitsStayZeroAndHeldUnitsIdle : Obligations.StartBitsStayZeroAndHeldUnitsIdle := fun _ _ h =>
  ⟨step_keeps (fun s hs => startBitsZero_of_frame (popTurn_cfg s) (popTurn_per s) hs)
      (fun _ _ _ _ ht => takeTurn_keeps_startBitsZero ht) h,
    step_keeps (fun s hs => heldIdle_of_frame (popTurn_cfg s) (popTurn_per s) (popTurn_units s) hs)
      (fun _ _ _ _ ht => takeTurn_keeps_heldIdle ht) h⟩

/-! ## The byte counts of the segments -/

/-- R205: DOUT sends no more bytes than the length of its descriptor. -/
def Dout.bounded (d : Dout) : Prop := d.st = .send → d.k ≤ dwLength d.w0

/-- R210: DIN receives no more bytes than its buffer holds. -/
def Din.bounded (d : Din) : Prop := d.st = .recv → d.k ≤ dwSize d.w0

/-- R42: the bound on the two counts is one on each agent. -/
theorem segmentsBounded_iff (s : State) : segmentsBounded s ↔ s.units.din.bounded ∧ s.units.dout.bounded := Iff.rfl

/-- Counting one more below a bound stays within the bound. -/
theorem count_succ_le {w : Nat} {k n : BitVec w} (h : k < n) : k + 1 ≤ n := by
  have hone : (1 : BitVec w).toNat ≤ 1 := Nat.mod_le 1 _
  have hsum : (k + 1).toNat ≤ k.toNat + (1 : BitVec w).toNat := by rw [BitVec.toNat_add]; exact Nat.mod_le _ _
  rw [BitVec.lt_def] at h
  rw [BitVec.le_def]
  omega

/-- R204, R205: DOUT starts at 0 and counts while below the length. -/
theorem doutMove_bounded (h : s.units.dout.bounded) : (doutMove s).units.dout.bounded := by
  unfold doutMove
  split
  · exact h
  · split
    · exact h
    · intro _; exact BitVec.le_def.2 (Nat.zero_le _)
    · unfold doutSend
      simp only
      split
      · rename_i hk
        intro _; exact count_succ_le hk
      · exact nofun
    · exact nofun

/-- R209, R210: DIN starts at 0 and counts while below the size. -/
theorem dinMove_bounded (h : s.units.din.bounded) : (dinMove s).units.din.bounded := by
  unfold dinMove
  split
  · exact h
  · split
    · exact h
    · exact h
    · intro _; exact BitVec.le_def.2 (Nat.zero_le _)
    · split
      · unfold dinReceive
        simp only
        split
        · rename_i hk
          intro _; exact count_succ_le hk
        · exact h
      · split
        · exact nofun
        · exact h

/-- A micro-op leaves an agent's count, stops the agent or starts it at its fetch (R202, R203, R207, R208). -/
theorem exec_segmentsBounded (h : exec i s = .next t) (hs : segmentsBounded s) : segmentsBounded t := by
  rw [segmentsBounded_iff] at hs ⊢
  constructor
  · obtain e | e | ⟨_, _, _, a, e⟩ := exec_din h <;> rw [e]
    · exact hs.1
    · exact nofun
    · exact nofun
  · obtain e | e | ⟨_, _, _, a, e⟩ := exec_dout h <;> rw [e]
    · exact hs.2
    · exact nofun
    · exact nofun

theorem agent_segmentsBounded (hu : isMachineTurn u = true) (hne : u ≠ .seq) (h : takeTurn u s = .next t)
    (hs : segmentsBounded s) : segmentsBounded t := by
  rw [segmentsBounded_iff] at hs ⊢
  constructor
  · obtain e | ⟨_, e | e⟩ := agent_din hu hne h <;> rw [e]
    · exact hs.1
    · exact dinMove_bounded hs.1
    · exact nofun
  · obtain e | ⟨_, e | e⟩ := agent_dout hu hne h <;> rw [e]
    · exact hs.2
    · exact doutMove_bounded hs.2
    · exact nofun

/-- Every turn keeps the counts within their bounds. -/
theorem takeTurn_keeps_segmentsBounded (h : takeTurn u s = .next t) (hs : segmentsBounded s) : segmentsBounded t := by
  cases takeTurn_case h with
  | micro _ _ _ he => exact exec_segmentsBounded he hs
  | agent hu hne h => exact agent_segmentsBounded hu hne h hs
  | start => rw [segmentsBounded, acceptStart_units]; exact hs
  | systemReset => exact ⟨nofun, nofun⟩
  | _ => exact hs

/-- Settles O54: taking the turn off leaves the agents alone, and every turn keeps the bounds. -/
theorem segmentsStayBounded : Obligations.SegmentsStayBounded := fun _ _ h =>
  step_keeps (fun s hs => by rw [segmentsBounded, popTurn_units]; exact hs)
    (fun _ _ _ _ ht => takeTurn_keeps_segmentsBounded ht) h

end Sys2Proof.Machine
end

section
/-! The sequencer's invariant (10_state.md R22 to R28, 30_encoding.md R96, R97, 43_orchestrator.md R176): what a micro-op of the ROM
does to each part of it, then every turn; and the invariants at reset. -/

namespace Sys2Proof.Machine

variable {s t : State} {u : Turn} {i : Instr}

/-! ## Places of the ROM -/

/-- R96: where the micro-ops with a rule of their own stand. -/
theorem romOp_places : ∀ n : Fin 38, (romOp n = some .pollAes → n.val = 34) ∧ (romOp n = some .pollDesc → n.val = 35) ∧
    (romOp n = some .chkDma → n.val = 36) := by decide

/-- R26, R96: the completion of the micro-op at `n` leaves `s.state` as it is at `n + 1`. -/
theorem romOp_completedState : ∀ n : Fin 37,
    (romOp n).map (completedState · (stateAtUpc n)) = some (stateAtUpc (n + 1)) := by decide

/-- R96: the ROM's last micro-op is its only `rel.exit`, so any other has a next place. -/
theorem romOp_le_of_ne_relExit {n : Nat} (hn : n ≤ 37) (ho : romOp n = some i) (hi : i ≠ .relExit) : n ≤ 36 := by
  by_contra hlast
  obtain rfl : n = 37 := by omega
  exact hi (Option.some.inj (ho.symm.trans (by decide)))

/-- R94: the ROM holds no reserved code. -/
theorem seqRom_decodes {n : Nat} {c : Byte} (hn : n ≤ 37) (hc : seqRom[n]? = some c) : ∃ i, decode c = .ok i := by
  have hsome := romOp_some ⟨n, by omega⟩
  cases hd : decode c with
  | ok i => exact ⟨i, rfl⟩
  | error e => simp [romOp, hc, hd, Except.toOption] at hsome

/-! ## Control -/

/-- R97: below the ROM's last index the next `upc` does not wrap. -/
theorem upc_succ_toNat {c : BitVec 6} (h : c.toNat ≤ 36) : (c + 1).toNat = c.toNat + 1 := by
  rw [BitVec.toNat_add]; simp; omega

/-- R240: the exception a micro-op of the ROM raises, by its place. -/
theorem errorCode_of_romOp {e : Exc} {info : BitVec 2} {upc : BitVec 6} (hn : upc.toNat ≤ 37) (ho : romOp upc.toNat = some i)
    (hi : (i = .chkLen ∧ e = .invalidLength ∧ info = 0) ∨ (i = .pollAes ∧ e = .hardwareTimeout ∧ info = 1) ∨
      (i = .pollDesc ∧ e = .hardwareTimeout ∧ info = 2) ∨ (i = .chkDma ∧ e = .dmaFault ∧ (info = 1 ∨ info = 2))) :
    errorCode (excStatus e) info upc := by
  have hlt : upc.toNat < 38 := by omega
  obtain ⟨hpollAes, hpollDesc, hchkDma⟩ := romOp_places ⟨upc.toNat, hlt⟩
  rcases hi with ⟨rfl, rfl, rfl⟩ | ⟨rfl, rfl, rfl⟩ | ⟨rfl, rfl, rfl⟩ | ⟨rfl, rfl, hinfo⟩
  · exact .inl ⟨rfl, rfl, BitVec.eq_of_toNat_eq (romOp_chkLen ⟨upc.toNat, hlt⟩ ho)⟩
  · exact .inr (.inl ⟨rfl, rfl, BitVec.eq_of_toNat_eq (hpollAes ho)⟩)
  · exact .inr (.inr (.inl ⟨rfl, rfl, BitVec.eq_of_toNat_eq (hpollDesc ho)⟩))
  · have hupc : upc = 36 := BitVec.eq_of_toNat_eq (hchkDma ho)
    rcases hinfo with rfl | rfl
    · exact .inr (.inr (.inr (.inl ⟨rfl, rfl, hupc⟩)))
    · exact .inr (.inr (.inr (.inr ⟨rfl, rfl, hupc⟩)))

/-- R26 to R28, R97: each of the four ways a micro-op of the ROM ends leaves legal control fields. -/
theorem exec_controlLegal (he : exec i s = .next t) (ho : romOp s.ctl.upc.toNat = some i) (hb : s.ctl.busy = true)
    (hs : controlLegal s.ctl) : controlLegal t.ctl := by
  obtain ⟨hn, hstate, hstatus, hinfo⟩ := hs.1 hb
  obtain ⟨hne, c, e⟩ | ⟨exc, info, e, hi⟩ | ⟨hi, c, e⟩ | ⟨_, e⟩ := exec_ctl he <;> rw [e]
  · have hlast := romOp_le_of_ne_relExit hn ho hne
    have hcomplete := romOp_completedState ⟨s.ctl.upc.toNat, by omega⟩
    simp only [ho, Option.map_some, Option.some.injEq] at hcomplete
    refine ⟨fun _ => ?_, fun hidle => by simp [hb] at hidle⟩
    simp only [upc_succ_toNat hlast, hstate]
    exact ⟨by omega, hcomplete, hstatus, hinfo⟩
  · exact ⟨nofun, fun _ => .inr (.inr ⟨rfl, errorCode_of_romOp hn ho hi, rfl⟩)⟩
  · refine ⟨nofun, fun _ => .inr (.inl ⟨rfl, hstatus, hinfo, ?_⟩)⟩
    have hlt : s.ctl.upc.toNat < 38 := by omega
    rcases hi with rfl | rfl
    · exact .inr (BitVec.eq_of_toNat_eq (romOp_relExit ⟨s.ctl.upc.toNat, hlt⟩ ho))
    · exact .inl (BitVec.eq_of_toNat_eq (romOp_chkLen ⟨s.ctl.upc.toNat, hlt⟩ ho))
  · exact hs

/-! ## The poll count -/

/-- R176: a micro-op that does not end the run leaves the poll count below the limit. -/
theorem exec_pollBelowLimit (hw : s.cfg.wf = true) (he : exec i s = .next t) (hb : s.ctl.busy = true)
    (hs : pollBelowLimit s) : pollBelowLimit t := by
  intro hbusy n hn
  rw [(exec_fixed he).1] at hn
  have hbelow := hs hb n hn
  obtain e | e | ⟨N, hN, e, hlimit⟩ := exec_pollcnt he <;> rw [e]
  · exact hbelow
  · exact Params.wf_pollLimit hw n hn
  · obtain rfl : N = n := by simpa [hN] using hn
    have hne : s.xval .pollcnt + 1 ≠ N := fun heq => by simp [hlimit heq] at hbusy
    have hle := BitVec.le_def.1 (count_succ_le (BitVec.lt_def.2 hbelow))
    have := mt (BitVec.eq_of_toNat_eq (x := s.xval .pollcnt + 1) (y := N)) hne
    omega

/-! ## The session registers -/

theorem keyX_ne (n : Nat) : keyX n ≠ .tmp ∧ keyX n ≠ .dw0 := by
  unfold keyX; rcases mod_four_cases n with h | h | h | h <;> simp [h]

theorem ivX_ne (n : Nat) : ivX n ≠ .tmp ∧ ivX n ≠ .dw0 := by
  unfold ivX; rcases mod_four_cases n with h | h | h | h <;> simp [h]

/-- R93: no micro-op reads `TMP` before it writes it, and only `chk.dma` reads `DW0`. -/
theorem readRegs_cases {cfg : Params} {r : XReg} (h : r ∈ readRegs i cfg) : r ≠ .tmp ∧ (r = .dw0 → i = .chkDma) := by
  cases i with
  | chkDma =>
    have : r = .dw0 := by simp only [readRegs] at h; split at h <;> simp_all
    simp [this]
  | chkLen =>
    have : r = .bc := by simp only [readRegs] at h; split at h <;> simp_all
    simp [this]
  | aesKey n =>
    obtain rfl := List.mem_singleton.1 h
    exact ⟨(keyX_ne n).1, fun hd => absurd hd (keyX_ne n).2⟩
  | aesIv n =>
    obtain rfl := List.mem_singleton.1 h
    exact ⟨(ivX_ne n).1, fun hd => absurd hd (ivX_ne n).2⟩
  | _ => simp_all [readRegs]

/-- R22: the registers a micro-op of the ROM reads have been written. -/
theorem readRegs_written (ho : romOp s.ctl.upc.toNat = some i) (hn : s.ctl.upc.toNat ≤ 37) (hb : s.ctl.busy = true)
    (hs : sessionWritten s) (r : XReg) (hr : r ∈ readRegs i s.cfg) : (s.x.get r).written = true := by
  obtain ⟨hothers, hdw0⟩ := hs hb
  obtain ⟨htmp, hchk⟩ := readRegs_cases hr
  by_cases hd : r = .dw0
  · obtain rfl := hchk hd
    rw [hd]
    exact hdw0 ((romOp_places ⟨s.ctl.upc.toNat, by omega⟩).2.2 ho)
  · exact hothers r hd htmp

/-- R177: `poll.desc` moves on only once it has latched the descriptor word in `DW0`. -/
theorem execPollDesc_latches (h : exec .pollDesc s = .next t) (hup : t.ctl.upc ≠ s.ctl.upc) :
    (t.x.get .dw0).written = true := by
  obtain ⟨_, rfl⟩ | ⟨_, rfl⟩ := execPollDesc_cases h
  · simp [Session.get_set]
  · obtain ⟨_, e⟩ | ⟨_, _, ⟨_, e⟩ | ⟨_, e⟩⟩ := pollMiss_cases 2 (seqMemRead s.cfg.descIn.toNat s) <;>
      exact absurd (by rw [e]; simp) hup

/-- R97: a micro-op that changes `upc` adds 1 to it. -/
theorem exec_upc (h : exec i s = .next t) : t.ctl.upc = s.ctl.upc ∨ (i ≠ .relExit ∧ t.ctl.upc = s.ctl.upc + 1) := by
  obtain ⟨hne, c, e⟩ | ⟨_, _, e, _⟩ | ⟨_, c, e⟩ | ⟨_, e⟩ := exec_ctl h <;> rw [e]
  · exact .inr ⟨hne, rfl⟩
  · exact .inl rfl
  · exact .inl rfl
  · exact .inl rfl

/-- R22: what was written stays written, and `DW0` is written on the way to `chk.dma`. -/
theorem exec_sessionWritten (he : exec i s = .next t) (ho : romOp s.ctl.upc.toNat = some i) (hn : s.ctl.upc.toNat ≤ 37)
    (hb : s.ctl.busy = true) (hs : sessionWritten s) : sessionWritten t := by
  obtain ⟨hothers, hdw0⟩ := hs hb
  refine fun _ => ⟨fun r hd htmp => exec_written he r (hothers r hd htmp), fun h36 => ?_⟩
  obtain hup | ⟨hne, hup⟩ := exec_upc he
  · exact exec_written he .dw0 (hdw0 (hup ▸ h36))
  · have hlast := romOp_le_of_ne_relExit hn ho hne
    have h35 : s.ctl.upc.toNat = 35 := by rw [hup, upc_succ_toNat hlast] at h36; omega
    have hpoll : romOp 35 = some .pollDesc := by decide
    rw [h35, hpoll] at ho
    obtain rfl := Option.some.inj ho
    refine execPollDesc_latches he fun heq => ?_
    rw [heq] at h36
    omega

/-! ## The invariant -/

/-- The invariant does not depend on the registers, the agents, memory, `s.chaos` or the fault name `REENTRY`. -/
theorem seqInv_of_frame (hrom : t.rom = s.rom) (hcfg : t.cfg = s.cfg) (hx : t.x = s.x)
    (hctl : ∃ c, t.ctl = { s.ctl with chaos := c }) (hunwritten : t.faults.unwrittenRead = s.faults.unwrittenRead)
    (hreserved : t.faults.reservedUop = s.faults.reservedUop) (hs : seqInv s) : seqInv t := by
  obtain ⟨c, hctl⟩ := hctl
  simpa only [seqInv, controlLegal, pollBelowLimit, sessionWritten, State.xval, hrom, hcfg, hx, hctl, hunwritten, hreserved]
    using hs

/-- A micro-op of the ROM keeps the invariant. -/
theorem exec_seqInv (hw : s.cfg.wf = true) (he : exec i s = .next t) (ho : romOp s.ctl.upc.toNat = some i)
    (hb : s.ctl.busy = true) (hs : seqInv s) : seqInv t := by
  obtain ⟨hrom, hctl, hpoll, hsession, hunwritten, hreserved⟩ := hs
  have hn := (hctl.1 hb).1
  have hfaults : t.faults = s.faults := by
    obtain e | ⟨_, r, hr, hno⟩ := exec_faults he
    · exact e
    · simp [readRegs_written ho hn hb hsession r hr] at hno
  refine ⟨(exec_fixed he).2.trans hrom, exec_controlLegal he ho hb hctl, exec_pollBelowLimit hw he hb hpoll,
    exec_sessionWritten he ho hn hb hsession, ?_, ?_⟩ <;> rw [hfaults] <;> assumption

/-- R170: an accepted start stands at the ROM's first micro-op with its operands written and no read counted. -/
theorem acceptStart_seqInv (key iv : Block) (pt ct bc : Word) (hw : s.cfg.wf = true) (hs : seqInv s) :
    seqInv (acceptStart key iv pt ct bc s) := by
  obtain ⟨hrom, _, _, _, hunwritten, hreserved⟩ := hs
  obtain ⟨c, hctl⟩ := acceptStart_ctl key iv pt ct bc s
  refine ⟨by simpa using hrom, ?_, fun _ n hn => ?_, fun _ => ⟨acceptStart_written key iv pt ct bc s, fun h36 => ?_⟩,
    by simpa using hunwritten, by simpa using hreserved⟩
  · rw [hctl]
    exact ⟨fun _ => ⟨by simp, rfl, rfl, rfl⟩, nofun⟩
  · rw [acceptStart_pollcnt]
    exact Params.wf_pollLimit hw n (by simpa using hn)
  · rw [hctl] at h36
    simp at h36

/-- R52: the control fields of a reset are those between runs, so nothing is asked of the registers. -/
theorem seqInv_of_afterReset (hrom : s.rom = seqRom) (hctl : s.ctl = .afterReset) (hunwritten : s.faults.unwrittenRead = false)
    (hreserved : s.faults.reservedUop = false) : seqInv s := by
  have hidle : s.ctl.busy ≠ true := by rw [hctl]; decide
  refine ⟨hrom, ?_, fun hb => absurd hb hidle, fun hb => absurd hb hidle, hunwritten, hreserved⟩
  rw [hctl]
  exact ⟨nofun, fun _ => .inl ⟨rfl, rfl, rfl, rfl⟩⟩

/-- Every turn keeps the sequencer's invariant. -/
theorem takeTurn_keeps_seqInv (hw : s.cfg.wf = true) (h : takeTurn u s = .next t) (hs : seqInv s) : seqInv t := by
  have hrom := hs.1
  have hctl := hs.2.1
  cases takeTurn_case h with
  | micro hb hc hi he =>
    rw [hrom] at hc
    exact exec_seqInv hw he (romOp_of hc hi) hb hs
  | reserved hb hc hno =>
    rw [hrom] at hc
    obtain ⟨i, hi⟩ := seqRom_decodes (hctl.1 hb).1 hc
    exact absurd hi (hno i)
  | agent hu hne h =>
    obtain ⟨hcfg, hrom', hx, _, hf, _, c, e⟩ := agentsLeaveTheSequencerAlone _ _ _ hu hne h
    exact seqInv_of_frame hrom' hcfg hx ⟨_, e⟩ (by rw [hf]) (by rw [hf]) hs
  | start => exact acceptStart_seqInv _ _ _ _ _ hw hs
  | systemReset =>
    obtain ⟨_, _, _, _, hunwritten, hreserved⟩ := hs
    exact seqInv_of_afterReset hrom rfl hunwritten hreserved
  | idle => exact hs
  | noStore => exact hs
  | reentry => exact seqInv_of_frame rfl rfl rfl ⟨_, rfl⟩ rfl rfl hs
  | store => exact seqInv_of_frame rfl rfl rfl ⟨_, rfl⟩ rfl rfl hs

/-- Settles O52: taking the turn off leaves what the invariant speaks of, and every turn keeps it. -/
theorem sequencerInvariantIsKept : Obligations.SequencerInvariantIsKept := fun _ _ h =>
  step_keeps (fun s hs => seqInv_of_frame (popTurn_rom s) (popTurn_cfg s) (popTurn_x s) ⟨s.ctl.chaos, popTurn_ctl s⟩
    (by rw [popTurn_faults]) (by rw [popTurn_faults]) hs) (fun _ _ _ hw ht => takeTurn_keeps_seqInv hw ht) h

/-! ## At reset -/

/-- Settles O56: the candidate parameters pass the check, memory is empty, and no run is in progress and every agent idle. -/
theorem invariantsHoldAtReset : Obligations.InvariantsHoldAtReset :=
  ⟨by decide, ⟨.nil, nofun⟩, nofun, seqInv_of_afterReset rfl rfl rfl rfl, ⟨by decide, by decide⟩,
    ⟨fun _ => rfl, fun _ => ⟨rfl, rfl⟩⟩, ⟨nofun, nofun⟩, fun _ hne => absurd rfl hne⟩

end Sys2Proof.Machine
end

section
/-! The sequencer's transactions (00_scope.md R13, 10_state.md R38, 30_encoding.md R93): what each kind of micro-op adds to the
record, and that its row of the opcode map allows it. -/

namespace Sys2Proof.Machine

variable {s t : State} {i : Instr}

/-- What stands before the old record is what was added. -/
theorem newEvents_of_append {es : List BusEvent} (h : t.aux.trace = es ++ s.aux.trace) : newEvents s t = es := by
  simp [newEvents, h]

/-- The micro-op adds to the record only what its row allows. -/
def addsAllowed (i : Instr) (s t : State) : Prop :=
  ∃ es, t.aux.trace = es ++ s.aux.trace ∧ ∀ e ∈ es, allowedEvent i s.cfg e

theorem addsAllowed_nothing (h : t.aux.trace = s.aux.trace) : addsAllowed i s t := ⟨[], h, nofun⟩

/-- R93: a micro-op may write the register of its row. -/
theorem allowedEvent_write {r : PReg} {cfg : Params} (hr : writtenReg i = some r) (v : Word) :
    allowedEvent i cfg (.write (regGet cfg.addr.stored r).toNat v) := .inl ⟨r, hr, rfl⟩

/-- R38: a micro-op may read the register of its row, unless it is one of the AES. -/
theorem allowedEvent_read {r : PReg} {cfg : Params} (hr : writtenReg i = some r) (haes : isAesReg r = false) :
    allowedEvent i cfg (.read (regGet cfg.addr.stored r).toNat) := .inl ⟨r, hr, haes, rfl⟩

/-- R150: a write of the register of its row, whether or not a session register is read before it. -/
theorem addsAllowed_regWrite {r : PReg} {v : Word} {q : State} (hr : writtenReg i = some r) (hcfg : q.cfg = s.cfg)
    (haux : q.aux = s.aux) (h : t.aux = (regWrite r v q).aux) : addsAllowed i s t :=
  ⟨[.write (regGet s.cfg.addr.stored r).toNat v], by rw [h, regWrite_aux, hcfg, haux]; rfl,
    List.forall_mem_singleton.2 (allowedEvent_write hr v)⟩

/-- R130: a read-modify-write of the register of its row, which is no AES register. -/
theorem addsAllowed_regModify {r : PReg} {f : Word → Word} (hr : writtenReg i = some r) (haes : isAesReg r = false)
    (h : t.aux = (regModify r f s).aux) : addsAllowed i s t :=
  ⟨[_, _], by rw [h]; exact regModify_trace s r f,
    List.forall_mem_cons.2 ⟨allowedEvent_write hr _, List.forall_mem_singleton.2 (allowedEvent_read hr haes)⟩⟩

/-- R111 to R116: a store of the descriptor word of its row, whether or not a session register is read before it. -/
theorem addsAllowed_word {a : Nat} {v : Word} {q : State} (ha : storedWord i s.cfg = some a) (haux : q.aux = s.aux)
    (h : t.aux.trace = .write a v :: q.aux.trace) : addsAllowed i s t := by
  refine ⟨[_], haux ▸ h, List.forall_mem_singleton.2 ?_⟩
  cases i <;> simp only [storedWord, Option.some.injEq, reduceCtorEq] at ha <;> subst ha <;> simp [allowedEvent]

/-- R176, R177: the one read of a poll. -/
theorem addsAllowed_read {a : Nat} (ha : allowedEvent i s.cfg (.read a)) (h : t.aux.trace = .read a :: s.aux.trace) :
    addsAllowed i s t :=
  ⟨[_], h, List.forall_mem_singleton.2 ha⟩

@[simp] theorem aesStateRead_trace (s : State) :
    (aesStateRead s).aux.trace = .read s.cfg.addr.aesState.toNat :: s.aux.trace := by
  unfold aesStateRead; simp only; split <;> rfl

/-- R178: the two reads of the FIFO status registers, where they are made. -/
theorem addsAllowed_fifo (hc : s.cfg.checks.fifoCheck = true) (h : t.aux.trace = (fifoStatusRead s).aux.trace) :
    addsAllowed .chkDma s t :=
  ⟨[.read s.cfg.addr.dmaOutfifoStatus.toNat, .read s.cfg.addr.dmaInfifoStatus.toNat], h,
    List.forall_mem_cons.2 ⟨.inr (.inr (.inr ⟨rfl, hc, .inr rfl⟩)),
      List.forall_mem_singleton.2 (.inr (.inr (.inr ⟨rfl, hc, .inl rfl⟩)))⟩⟩

/-- R93: every micro-op adds to the record only what its row allows. -/
theorem exec_addsAllowed (h : exec i s = .next t) : addsAllowed i s t := by
  cases i
  case chkLen =>
    obtain ⟨r, rfl | rfl, ⟨rfl, _⟩ | ⟨rfl, _⟩ | ⟨rfl, _⟩⟩ := execChkLen_cases h <;> exact addsAllowed_nothing (by simp)
  case chkDma =>
    obtain ⟨r, hr, hx⟩ := execChkDma_cases h
    have haux : r.aux = s.aux := by rcases hr with rfl | rfl <;> simp
    have hfifo : (fifoStatusRead r).aux.trace = (fifoStatusRead s).aux.trace := by
      rcases hr with rfl | rfl <;> simp [fifoStatusRead]
    rcases hx with ⟨rfl, _⟩ | ⟨rfl, hc, _⟩ | ⟨rfl, hc, _⟩ | ⟨rfl, _⟩
    · exact addsAllowed_nothing (by simp [haux])
    · exact addsAllowed_fifo hc (by simpa using hfifo)
    · exact addsAllowed_fifo hc (by simpa using hfifo)
    · exact addsAllowed_nothing (by simp [haux])
  case aesKey n =>
    obtain ⟨_, rfl⟩ | ⟨_, rfl⟩ := execAesKey_cases n h
    · exact addsAllowed_regWrite rfl (noteRead_cfg ..) (noteRead_aux ..) ((advance_aux _).trans (enterState_aux _ _))
    · exact addsAllowed_regWrite rfl (noteRead_cfg ..) (noteRead_aux ..) (advance_aux _)
  case pollAes =>
    refine addsAllowed_read (.inr (.inl ⟨rfl, rfl⟩)) ?_
    obtain ⟨_, rfl⟩ | ⟨_, rfl⟩ := execPollAes_cases h <;> simp
  case pollDesc =>
    refine addsAllowed_read (.inr (.inr (.inl ⟨rfl, rfl⟩))) ?_
    obtain ⟨_, rfl⟩ | ⟨_, rfl⟩ := execPollDesc_cases h <;> simp
  case dscOutW0 | dscOutW1 | dscInW0 | dscInW1 => cases h; exact addsAllowed_word rfl (noteRead_aux ..) rfl
  case dscOutW2 | dscInW2 => cases h; exact addsAllowed_word rfl rfl rfl
  case aesBlknum | aesIv =>
    cases h
    exact addsAllowed_regWrite rfl (noteRead_cfg ..) (noteRead_aux ..) (advance_aux _)
  case aesDmaen | aesIntdis | aesMode | aesBlkmode | aesIncsel =>
    cases h
    exact addsAllowed_regWrite rfl rfl rfl (advance_aux _)
  case aesTrigger => cases h; exact addsAllowed_regWrite rfl rfl rfl ((advance_aux _).trans (enterState_aux _ _))
  case relExit => cases h; exact addsAllowed_regWrite rfl rfl rfl (endRun_aux _)
  case clkRstclr | dmaOutStart =>
    cases h
    exact addsAllowed_regModify rfl rfl ((advance_aux _).trans (enterState_aux _ _))
  case clkEn | dmaInRstSet | dmaInRstClr | dmaOutRstSet | dmaOutRstClr | dmaInLink | dmaOutLink | dmaInPeri | dmaOutPeri |
      dmaInStart =>
    cases h
    exact addsAllowed_regModify rfl rfl (advance_aux _)

/-- Settles O48: what a micro-op adds to the record stands before the old one. -/
theorem transactionsAreThoseOfTheRow : Obligations.TransactionsAreThoseOfTheRow := by
  intro i s t h
  obtain ⟨es, htrace, hallowed⟩ := exec_addsAllowed h
  rw [newEvents_of_append htrace]
  exact ⟨htrace, hallowed⟩

end Sys2Proof.Machine
end

section
/-! The life cycle of the two descriptors (10_state.md R43): when a descriptor is in each of its states, and the micro-ops and moves
that take it there. -/

namespace Sys2Proof.Machine

variable {s t : State}

/-! ## The states of a descriptor -/

theorem lifeIn_armed (hst : s.units.din.st = .fetch) : lifeIn s = .armed := by simp [lifeIn, hst]

theorem lifeIn_inFlight (hst : s.units.din.st = .recv) : lifeIn s = .inFlight := by simp [lifeIn, hst]

theorem lifeIn_prepared (hst : s.units.din.st = .idle) (hp : s.aux.inPrepared = true)
    (ho : dwOwner (s.mem.read32 s.cfg.descIn.toNat) = true) : lifeIn s = .prepared := by simp [lifeIn, hst, hp, ho]

theorem lifeIn_complete (hst : s.units.din.st = .idle) (hp : s.aux.inPrepared = true)
    (ho : dwOwner (s.mem.read32 s.cfg.descIn.toNat) = false) (he : dwErrEof (s.mem.read32 s.cfg.descIn.toNat) = false) :
    lifeIn s = .complete := by simp [lifeIn, hst, hp, ho, he]

theorem lifeIn_failed (hst : s.units.din.st = .idle) (hp : s.aux.inPrepared = true)
    (ho : dwOwner (s.mem.read32 s.cfg.descIn.toNat) = false) (he : dwErrEof (s.mem.read32 s.cfg.descIn.toNat) = true) :
    lifeIn s = .failed := by simp [lifeIn, hst, hp, ho, he]

theorem lifeOut_armed (hst : s.units.dout.st = .fetch) : lifeOut s = .armed := by simp [lifeOut, hst]

theorem lifeOut_inFlight (hst : s.units.dout.st = .send) : lifeOut s = .inFlight := by simp [lifeOut, hst]

theorem lifeOut_prepared (hst : s.units.dout.st = .idle) (hp : s.aux.outPrepared = true)
    (ho : dwOwner (s.mem.read32 s.cfg.descOut.toNat) = true) : lifeOut s = .prepared := by simp [lifeOut, hst, hp, ho]

theorem lifeOut_complete (hst : s.units.dout.st = .idle) (hp : s.aux.outPrepared = true)
    (ho : dwOwner (s.mem.read32 s.cfg.descOut.toNat) = false) : lifeOut s = .complete := by simp [lifeOut, hst, hp, ho]

/-! ## What the moves do to the fields the states depend on -/

/-- Word 0 of each descriptor lies in `P_DMA_REGION` (R73). -/
theorem word0_inRegion {p : Params} (hw : p.wf = true) :
    p.rangeInRegion p.descOut.toNat 4 = true ∧ p.rangeInRegion p.descIn.toNat 4 = true := by
  obtain ⟨hout, hin⟩ := Params.wf_descInRegion hw
  exact ⟨p.rangeInRegion_sub _ 12 _ 4 hout le_rfl (by omega), p.rangeInRegion_sub _ 12 _ 4 hin le_rfl (by omega)⟩

theorem dmaHeld_of_not_gated (hg : dmaGated s = false) : dmaHeld s = false := by
  simp only [dmaGated, Bool.or_eq_false_iff] at hg
  exact hg.2

/-- R208: an ungated `dma.in.start` starts an idle DIN whose peripheral select names the AES. -/
theorem exec_dmaInStart_fetches (hg : dmaGated s = false) (hst : s.units.din.st = .idle)
    (hsel : selectsAes s.cfg s.per.dmaInPeriSel = true) (h : exec .dmaInStart s = .next t) : t.units.din.st = .fetch := by
  cases h
  simp [regModify_units, regWrite_inLink_units, dmaHeld_of_not_gated hg, hst, hsel]

/-- R203: an ungated `dma.out.start` starts an idle DOUT whose peripheral select names the AES. -/
theorem exec_dmaOutStart_fetches (hg : dmaGated s = false) (hst : s.units.dout.st = .idle)
    (hsel : selectsAes s.cfg s.per.dmaOutPeriSel = true) (h : exec .dmaOutStart s = .next t) : t.units.dout.st = .fetch := by
  cases h
  simp [regModify_units, regWrite_outLink_units, dmaHeld_of_not_gated hg, hst, hsel]

/-- R209: an armed DIN goes on to receive. -/
theorem dinMove_of_fetch (hg : dmaGated s = false) (hst : s.units.din.st = .fetch) : (dinMove s).units.din.st = .recv := by
  simp [dinMove, hg, hst, dinFetch]

/-- R204: an armed DOUT goes on to send. -/
theorem doutMove_of_fetch (hg : dmaGated s = false) (hst : s.units.dout.st = .fetch) :
    (doutMove s).units.dout.st = .send := by
  simp [doutMove, hg, hst, doutFetch]

/-- R211: a drained end of frame is DIN's success end. -/
theorem dinMove_of_eof (hg : dmaGated s = false) (hst : s.units.din.st = .recv) (hq : s.units.qout = [])
    (he : s.units.qoutEof = true) : dinMove s = dinSuccess s := by
  simp [dinMove, hg, hst, hq, he]

/-- R206: DOUT in WB ends. -/
theorem doutMove_of_wb (hg : dmaGated s = false) (hst : s.units.dout.st = .wb) : doutMove s = doutEnd s := by
  simp [doutMove, hg, hst]

/-- R212: the error end, where it is enabled. -/
theorem dinErrorMove_of_recv (hg : dmaGated s = false) (hd : s.cfg.dmaErrors = true) (hst : s.units.din.st = .recv) :
    dinErrorMove s = dinFail s := by
  simp [dinErrorMove, dinErrorEnabled, hg, hd, hst]

/-- R70: a word an agent writes inside the region reads back. -/
theorem dmaWriteWord_read32 {a : Nat} (hr : s.cfg.rangeInRegion a 4 = true) (v : Word) :
    (dmaWriteWord a v s).mem.read32 a = v := by
  rw [dmaWriteWord_mem, if_pos hr, Memory.read32_write32_same]

/-- R206: with the owner bit masked off the descriptor is software's. -/
theorem dwOwner_masked (w : Word) : dwOwner (w &&& 0x7FFFFFFF) = false := by simp [dwOwner]

/-! ## The input descriptor -/

/-- R114: the write of word 0 prepares the input descriptor while DIN is idle. -/
theorem exec_dscInW0_prepares (hst : s.units.din.st = .idle) (h : exec .dscInW0 s = .next t) : lifeIn t = .prepared := by
  cases h
  exact lifeIn_prepared (by simpa using hst) rfl (by simp [Memory.read32_write32_same, dwOwner_dw0])

/-- R211: DIN's success end of the configured descriptor completes it. -/
theorem dinSuccess_completes (hw : s.cfg.wf = true) (hp : s.aux.inPrepared = true) (hd : s.units.din.desc = s.cfg.descIn) :
    lifeIn (dinSuccess s) = .complete := by
  have hword : (dinSuccess s).mem.read32 (dinSuccess s).cfg.descIn.toNat =
      dw0 (dwSize s.units.din.w0) s.units.din.k false true false := by
    simp [dinSuccess, hd, dmaWriteWord_read32 (word0_inRegion hw).2]
  exact lifeIn_complete rfl (by simpa [dinSuccess] using hp) (by rw [hword, dwOwner_dw0]) (by rw [hword, dwErrEof_dw0])

/-- R212: DIN's error end of the configured descriptor fails it. -/
theorem dinFail_fails (hw : s.cfg.wf = true) (hp : s.aux.inPrepared = true) (hd : s.units.din.desc = s.cfg.descIn) :
    lifeIn (dinFail s) = .failed := by
  have hword : (dinFail s).mem.read32 (dinFail s).cfg.descIn.toNat =
      dw0 (dwSize s.units.din.w0) s.units.din.k true false false := by
    simp [dinFail, hd, dmaWriteWord_read32 (word0_inRegion hw).2]
  exact lifeIn_failed rfl (by simpa [dinFail] using hp) (by rw [hword, dwOwner_dw0]) (by rw [hword, dwErrEof_dw0])

/-- R207: a sub-channel reset leaves a prepared descriptor that is still the hardware's PREPARED. -/
theorem exec_dmaInRstSet_prepared (hp : s.aux.inPrepared = true) (ho : dwOwner (s.mem.read32 s.cfg.descIn.toNat) = true)
    (h : exec .dmaInRstSet s = .next t) : lifeIn t = .prepared := by
  cases h
  refine lifeIn_prepared ?_ (by simpa using hp) (by simpa using ho)
  simp [regModify_units, regWrite_inConf0_units, dinReset]

/-! ## The output descriptor -/

/-- R111: the write of word 0 prepares the output descriptor while DOUT is idle. -/
theorem exec_dscOutW0_prepares (hst : s.units.dout.st = .idle) (h : exec .dscOutW0 s = .next t) : lifeOut t = .prepared := by
  cases h
  exact lifeOut_prepared (by simpa using hst) rfl (by simp [Memory.read32_write32_same, dwOwner_dw0])

/-- R206: DOUT's end with the write-back of the configured descriptor completes it. -/
theorem doutEnd_completes (hw : s.cfg.wf = true) (hb : s.cfg.outWrback = true) (hp : s.aux.outPrepared = true)
    (hd : s.units.dout.desc = s.cfg.descOut) : lifeOut (doutEnd s) = .complete := by
  have hregion : (chaosIf (!dwSucEof s.units.dout.w0) s).cfg.rangeInRegion s.cfg.descOut.toNat 4 = true := by
    simpa using (word0_inRegion hw).1
  have hword : (doutEnd s).mem.read32 (doutEnd s).cfg.descOut.toNat = s.units.dout.w0 &&& 0x7FFFFFFF := by
    simp [doutEnd, hb, hd, dmaWriteWord_read32 hregion]
  exact lifeOut_complete rfl (by simpa [doutEnd, hb] using hp) (by rw [hword, dwOwner_masked])

/-- R206, log 34: without the write-back the descriptor is still the hardware's. -/
theorem doutEnd_prepared (hb : s.cfg.outWrback = false) (hp : s.aux.outPrepared = true)
    (ho : dwOwner (s.mem.read32 s.cfg.descOut.toNat) = true) : lifeOut (doutEnd s) = .prepared :=
  lifeOut_prepared rfl (by simpa [doutEnd, hb] using hp) (by simpa [doutEnd, hb] using ho)

/-- R202: a sub-channel reset leaves a prepared descriptor that is still the hardware's PREPARED. -/
theorem exec_dmaOutRstSet_prepared (hp : s.aux.outPrepared = true)
    (ho : dwOwner (s.mem.read32 s.cfg.descOut.toNat) = true) (h : exec .dmaOutRstSet s = .next t) :
    lifeOut t = .prepared := by
  cases h
  refine lifeOut_prepared ?_ (by simpa using hp) (by simpa using ho)
  simp [regModify_units, regWrite_outConf0_units, doutReset]

/-- Settles O47: one transition of R43 after the other, first of the input and then of the output descriptor. -/
theorem inputDescriptorLifeCycle : Obligations.InputDescriptorLifeCycle := by
  refine ⟨fun s t h => by cases h; exact ⟨rfl, rfl⟩, ⟨fun s t => exec_dscInW0_prepares, ?_, ?_, ?_, ?_, ?_⟩,
    fun s t => exec_dscOutW0_prepares, ?_, ?_, ?_, ?_, ?_⟩
  · intro s t hg hst hsel h
    exact lifeIn_armed (exec_dmaInStart_fetches hg hst hsel h)
  · intro s t hg hst h
    cases h
    exact lifeIn_inFlight (dinMove_of_fetch hg hst)
  · intro s t hw hg hp hst hd hq he h
    cases h
    rw [dinMove_of_eof hg hst hq he]
    exact dinSuccess_completes hw hp hd
  · intro s t hw hg hde hp hst hd h
    cases h
    rw [dinErrorMove_of_recv hg hde hst]
    exact dinFail_fails hw hp hd
  · intro s t hg hp ho h
    exact exec_dmaInRstSet_prepared hp ho h
  · intro s t hg hst hsel h
    exact lifeOut_armed (exec_dmaOutStart_fetches hg hst hsel h)
  · intro s t hg hst h
    cases h
    exact lifeOut_inFlight (doutMove_of_fetch hg hst)
  · intro s t hw hg hb hp hst hd h
    cases h
    rw [doutMove_of_wb hg hst]
    exact doutEnd_completes hw hb hp hd
  · intro s t hg hb hp hst ho h
    cases h
    rw [doutMove_of_wb hg hst]
    exact doutEnd_prepared hb hp ho
  · intro s t hg hp ho h
    exact exec_dmaOutRstSet_prepared hp ho h

end Sys2Proof.Machine
end

section
/-! The memory accesses of the machine (20_memory.md): the sequencer's are aligned (R65), the agents' writes lie in `P_DMA_REGION`
(R74). -/

namespace Sys2Proof.Machine

variable {s t : State} {i : Instr} {u : Turn}

/-! ## Alignment -/

/-- R32: every stored register has its address in the list the configuration check goes through. -/
theorem stored_mem_all (m : AddrMap) (r : PReg) : regGet m.stored r ∈ m.all := by
  cases r <;> simp [AddrMap.all, regGet]

/-- R65: with legal parameters every transaction a row of R93 allows is at a multiple of 4. -/
theorem allowedEvent_aligned {cfg : Params} {e : BusEvent} (hw : cfg.wf = true) (h : allowedEvent i cfg e) :
    eventAddr e % 4 = 0 := by
  obtain ⟨hout, hin, hreg⟩ := Params.wf_aligned hw
  have hstored (r : PReg) : (regGet cfg.addr.stored r).toNat % 4 = 0 := hreg _ (stored_mem_all _ r)
  cases e with
  | read a =>
    obtain ⟨r, _, _, rfl⟩ | ⟨_, rfl⟩ | ⟨_, rfl⟩ | ⟨_, _, rfl | rfl⟩ := h
    · exact hstored r
    · exact hreg _ (by simp [AddrMap.all])
    · exact hin
    · exact hreg _ (by simp [AddrMap.all])
    · exact hreg _ (by simp [AddrMap.all])
  | write a v =>
    obtain ⟨r, _, rfl⟩ | ⟨_, rfl⟩ | ⟨_, rfl⟩ | ⟨_, rfl⟩ | ⟨_, rfl⟩ | ⟨_, rfl⟩ | ⟨_, rfl⟩ := h
    · exact hstored r
    all_goals simp only [eventAddr]; omega

/-- R65: parameters that fail the configuration check are refused. -/
theorem step_of_not_wf (h : s.cfg.wf ≠ true) : step s = .refused .configRefused := if_neg h

/-- Settles O11: a micro-op's transactions are those of its row, which are aligned; parameters that pass the check are aligned. -/
theorem sequencerAccessesAreAligned : Obligations.SequencerAccessesAreAligned := by
  refine ⟨fun i s t hw h e he => ?_, fun s h => step_of_not_wf fun hw => ?_⟩
  · obtain ⟨_, hallowed⟩ := transactionsAreThoseOfTheRow i s t h
    exact allowedEvent_aligned hw (hallowed e he)
  · obtain ⟨hout, hin, hreg⟩ := Params.wf_aligned hw
    obtain h | h | ⟨a, ha, h⟩ := h
    · exact h hout
    · exact h hin
    · exact h (hreg a ha)

/-! ## The agents' writes -/

/-- Every byte of a range inside the region lies in the region. -/
theorem inRegion_of_range {p : Params} {a b n : Nat} (h : p.rangeInRegion b n = true) (hle : b ≤ a) (hlt : a < b + n) :
    p.inRegion a = true := by
  have := rangeInRegion_mem p b n (a - b) h (by omega)
  rwa [Nat.add_sub_cancel' hle] at this

/-- Settles O43: the one byte or word an agent's turn writes lies in the region, and no other byte changes. -/
theorem agentsWriteOnlyInTheRegion : Obligations.AgentsWriteOnlyInTheRegion := by
  intro u s t hu hne h a ha
  obtain e | ⟨b, v, hr, e⟩ | ⟨b, v, hr, e⟩ := agent_mem hu hne h <;> rw [e] at ha
  · exact absurd rfl ha
  · obtain rfl := Memory.eq_of_write_changes ha
    exact inRegion_of_range hr le_rfl (Nat.lt_succ_self _)
  · obtain ⟨hle, hlt⟩ := Memory.mem_of_write32_changes ha
    exact inRegion_of_range hr hle hlt

end Sys2Proof.Machine
end

section
/-! The link, select and start micro-ops arm both agents on the configured descriptors (20_memory.md R73, 41_dma_channel.md R141):
what every `dma` micro-op keeps on an ungated unit, what each of the six does, and the three pairs one after the other. -/

namespace Sys2Proof.Machine

variable {s t : State} {i : Instr} {r : PReg}

/-! ## What the micro-ops keep -/

/-- R172: the first micro-op of a list, executed. -/
theorem runMicroOps_cons (h : exec i s = .next t) (is : List Instr) : runMicroOps (i :: is) s = runMicroOps is t := by
  simp [runMicroOps, h]

/-- R221: a micro-op that writes a DMA register does not change what gates the DMA unit. -/
theorem exec_dmaGated (h : exec i s = .next t) (hr : writtenReg i = some r) (hd : isDmaReg r = true) :
    dmaGated t = dmaGated s := by
  have hclk : t.per.sysClkEn = s.per.sysClkEn := exec_reg h .sysClkEn (by rw [hr]; rintro ⟨⟩; cases hd)
  have hrst : t.per.sysRstEn = s.per.sysRstEn := exec_reg h .sysRstEn (by rw [hr]; rintro ⟨⟩; cases hd)
  simp [dmaGated, dmaHeld, hclk, hrst, (exec_fixed h).1]

/-- R221: a DMA register of an ungated unit reads as stored. -/
theorem regValue_dma (hd : isDmaReg r = true) (hg : dmaGated s = false) : regValue r s = regGet s.per r :=
  regValue_of_not_gated s r (by cases r <;> simp_all [isDmaReg, isAesReg, regGated])

/-- Legal parameters, an ungated DMA unit, and start bits that read 0 (R34, R65, R221). -/
structure Armable (s : State) : Prop where
  wf : s.cfg.wf = true
  ungated : dmaGated s = false
  starts : startBitsZero s

/-- From `s` to `t` no misuse is seen, memory stays, and the DMA unit can still be armed. -/
structure Arming (s t : State) : Prop where
  armable : Armable t
  cfg : t.cfg = s.cfg
  chaos : t.ctl.chaos = s.ctl.chaos
  mem : t.mem = s.mem

theorem Arming.trans {s₁ s₂ s₃ : State} (h : Arming s₁ s₂) (h' : Arming s₂ s₃) : Arming s₁ s₃ :=
  ⟨h'.armable, h'.cfg.trans h.cfg, h'.chaos.trans h.chaos, h'.mem.trans h.mem⟩

/-- A micro-op that writes a DMA register and no descriptor word, without misuse, is a step of arming. -/
theorem arming_of_exec (ha : Armable s) (h : exec i s = .next t) (hr : writtenReg i = some r) (hd : isDmaReg r = true)
    (hword : storedWord i s.cfg = none) (hc : t.ctl.chaos = s.ctl.chaos) : Arming s t := by
  have hcfg := (exec_fixed h).1
  have hmem : t.mem = s.mem := by
    obtain ⟨_, e⟩ | ⟨a, _, e, _⟩ := exec_mem h
    · exact e
    · rw [hword] at e; cases e
  exact ⟨⟨hcfg ▸ ha.wf, (exec_dmaGated h hr hd).trans ha.ungated, exec_startBitsZero h ha.starts⟩, hcfg, hc, hmem⟩

/-! ## What each micro-op does -/

/-- A start bit outside the link field is not touched by a write of the field (R135; log 12). -/
theorem bitOf_linkField {v d M : Word} {n : Fin 32} (hv : bitOf v n = false) (hM : bitOf M n = false) :
    bitOf ((v &&& ~~~M) ||| (d &&& M)) n = false := by simp [hv, hM]

/-- R137: a peripheral select written with the AES's value selects the AES. -/
theorem selectsAes_periField (cfg : Params) (v : Word) :
    selectsAes cfg ((v &&& ~~~cfg.periMask) ||| (cfg.vals.periAes &&& cfg.periMask)) = true := by
  rw [selectsAes, beq_iff_eq]
  ext j hj
  simp only [BitVec.getElem_and, BitVec.getElem_or, BitVec.getElem_not]
  cases cfg.periMask[j] <;> simp

/-- R135: `dma.in.link` names the input descriptor, and starts nothing. -/
theorem exec_dmaInLink_names (ha : Armable s) (h : exec .dmaInLink s = .next t) :
    Arming s t ∧ t.units = s.units ∧ t.per.dmaInLink &&& s.cfg.linkMask = s.cfg.descIn &&& s.cfg.linkMask := by
  have hM := (Params.wf_startOutsideMask ha.wf).1
  have hbit := bitOf_linkField (d := s.cfg.descIn) ha.starts.1 hM
  have hval := regValue_dma (r := .dmaInLink) rfl ha.ungated
  refine ⟨arming_of_exec ha h rfl rfl rfl ?_, ?_, ?_⟩ <;> cases h
  · simp [regModify_inLink_ctl, hval, regGet, hbit, ha.ungated]
  · simp only [advance_units, regModify_units, regWrite_inLink_units, hval, regGet, hbit, Bool.false_and, Bool.false_eq_true,
      if_false]
  · rw [advance_per, regModify_per]
    exact mask_field hM rfl

/-- R136: `dma.out.link` names the output descriptor, and starts nothing. -/
theorem exec_dmaOutLink_names (ha : Armable s) (h : exec .dmaOutLink s = .next t) :
    Arming s t ∧ t.units = s.units ∧ t.per.dmaOutLink &&& s.cfg.linkMask = s.cfg.descOut &&& s.cfg.linkMask := by
  have hM := (Params.wf_startOutsideMask ha.wf).2
  have hbit := bitOf_linkField (d := s.cfg.descOut) ha.starts.2 hM
  have hval := regValue_dma (r := .dmaOutLink) rfl ha.ungated
  refine ⟨arming_of_exec ha h rfl rfl rfl ?_, ?_, ?_⟩ <;> cases h
  · simp [regModify_outLink_ctl, hval, regGet, hbit, ha.ungated]
  · simp only [advance_units, regModify_units, regWrite_outLink_units, hval, regGet, hbit, Bool.false_and,
      Bool.false_eq_true, if_false]
  · rw [advance_per, regModify_per]
    exact mask_field hM rfl

/-- R137: `dma.in.peri` selects the AES. -/
theorem exec_dmaInPeri_selects (ha : Armable s) (h : exec .dmaInPeri s = .next t) :
    Arming s t ∧ t.units = s.units ∧ selectsAes s.cfg t.per.dmaInPeriSel = true := by
  refine ⟨arming_of_exec ha h rfl rfl rfl ?_, ?_, ?_⟩ <;> cases h
  · simp [regModify_plain_ctl _ .dmaInPeriSel _ rfl, writeChaos_dma _ .dmaInPeriSel rfl, ha.ungated]
  · rw [advance_units, regModify_plain_units _ _ _ rfl]
  · rw [advance_per, regModify_per]
    exact selectsAes_periField _ _

/-- R138: `dma.out.peri` selects the AES. -/
theorem exec_dmaOutPeri_selects (ha : Armable s) (h : exec .dmaOutPeri s = .next t) :
    Arming s t ∧ t.units = s.units ∧ selectsAes s.cfg t.per.dmaOutPeriSel = true := by
  refine ⟨arming_of_exec ha h rfl rfl rfl ?_, ?_, ?_⟩ <;> cases h
  · simp [regModify_plain_ctl _ .dmaOutPeriSel _ rfl, writeChaos_dma _ .dmaOutPeriSel rfl, ha.ungated]
  · rw [advance_units, regModify_plain_units _ _ _ rfl]
  · rw [advance_per, regModify_per]
    exact selectsAes_periField _ _

/-- R139, R208: `dma.in.start` arms an idle DIN on the descriptor its link field names. -/
theorem exec_dmaInStart_arms (ha : Armable s) (hst : s.units.din.st = .idle) (hsel : selectsAes s.cfg s.per.dmaInPeriSel = true)
    (hlink : s.per.dmaInLink &&& s.cfg.linkMask = s.cfg.descIn &&& s.cfg.linkMask) (h : exec .dmaInStart s = .next t) :
    Arming s t ∧ t.units = { s.units with din := { s.units.din with desc := s.cfg.descIn, st := .fetch } } := by
  have hheld := dmaHeld_of_not_gated ha.ungated
  have hdesc : linkAddr s.cfg (s.per.dmaInLink ||| bitMask s.cfg.bits.inStart) = s.cfg.descIn :=
    linkAddr_eq (Params.wf_link ha.wf).2 (by rw [or_bitMask_link (Params.wf_startOutsideMask ha.wf).1, hlink])
  have hval := regValue_dma (r := .dmaInLink) rfl ha.ungated
  refine ⟨arming_of_exec ha h rfl rfl rfl ?_, ?_⟩ <;> cases h
  · simp [regModify_inLink_ctl, ha.ungated, hheld, hst, hsel]
  · simp [regModify_units, regWrite_inLink_units, hval, regGet, hheld, hst, hsel, hdesc]

/-- R140, R203: `dma.out.start` arms an idle DOUT on the descriptor its link field names. -/
theorem exec_dmaOutStart_arms (ha : Armable s) (hst : s.units.dout.st = .idle)
    (hsel : selectsAes s.cfg s.per.dmaOutPeriSel = true)
    (hlink : s.per.dmaOutLink &&& s.cfg.linkMask = s.cfg.descOut &&& s.cfg.linkMask) (h : exec .dmaOutStart s = .next t) :
    Arming s t ∧ t.units = { s.units with dout := { s.units.dout with desc := s.cfg.descOut, st := .fetch } } := by
  have hheld := dmaHeld_of_not_gated ha.ungated
  have hdesc : linkAddr s.cfg (s.per.dmaOutLink ||| bitMask s.cfg.bits.outStart) = s.cfg.descOut :=
    linkAddr_eq (Params.wf_link ha.wf).1 (by rw [or_bitMask_link (Params.wf_startOutsideMask ha.wf).2, hlink])
  have hval := regValue_dma (r := .dmaOutLink) rfl ha.ungated
  refine ⟨arming_of_exec ha h rfl rfl rfl ?_, ?_⟩ <;> cases h
  · simp [regModify_outLink_ctl, ha.ungated, hheld, hst, hsel]
  · simp [regModify_units, regWrite_outLink_units, hval, regGet, hheld, hst, hsel, hdesc]

/-! ## The three pairs -/

/-- Both link fields name the configured descriptors. -/
structure LinksNamed (s : State) : Prop where
  inLink : s.per.dmaInLink &&& s.cfg.linkMask = s.cfg.descIn &&& s.cfg.linkMask
  outLink : s.per.dmaOutLink &&& s.cfg.linkMask = s.cfg.descOut &&& s.cfg.linkMask

/-- Both peripheral selects name the AES. -/
structure SelectsNamed (s : State) : Prop where
  inSel : selectsAes s.cfg s.per.dmaInPeriSel = true
  outSel : selectsAes s.cfg s.per.dmaOutPeriSel = true

/-- R135, R136: the two link micro-ops name both descriptors. -/
theorem link_both (ha : Armable s) : ∃ t, (∀ is, runMicroOps (.dmaInLink :: .dmaOutLink :: is) s = runMicroOps is t) ∧
    Arming s t ∧ t.units = s.units ∧ LinksNamed t := by
  obtain ⟨s₁, h₁⟩ := exec_next (s := s) .dmaInLink
  obtain ⟨t, h₂⟩ := exec_next (s := s₁) .dmaOutLink
  obtain ⟨g₁, u₁, hin⟩ := exec_dmaInLink_names ha h₁
  obtain ⟨g₂, u₂, hout⟩ := exec_dmaOutLink_names g₁.armable h₂
  have hkept : t.per.dmaInLink = s₁.per.dmaInLink := exec_reg h₂ .dmaInLink (by decide)
  refine ⟨t, fun is => by rw [runMicroOps_cons h₁, runMicroOps_cons h₂], g₁.trans g₂, u₂.trans u₁, ?_, ?_⟩
  · rw [hkept, g₂.cfg, g₁.cfg, hin]
  · rw [g₂.cfg, hout]

/-- R137, R138: the two select micro-ops name the AES in both selects, and leave the link fields. -/
theorem select_both (ha : Armable s) (hl : LinksNamed s) :
    ∃ t, (∀ is, runMicroOps (.dmaInPeri :: .dmaOutPeri :: is) s = runMicroOps is t) ∧
      Arming s t ∧ t.units = s.units ∧ LinksNamed t ∧ SelectsNamed t := by
  obtain ⟨s₁, h₁⟩ := exec_next (s := s) .dmaInPeri
  obtain ⟨t, h₂⟩ := exec_next (s := s₁) .dmaOutPeri
  obtain ⟨g₁, u₁, hin⟩ := exec_dmaInPeri_selects ha h₁
  obtain ⟨g₂, u₂, hout⟩ := exec_dmaOutPeri_selects g₁.armable h₂
  have hkept : t.per.dmaInPeriSel = s₁.per.dmaInPeriSel := exec_reg h₂ .dmaInPeriSel (by decide)
  have hinLink : t.per.dmaInLink = s.per.dmaInLink :=
    (exec_reg h₂ .dmaInLink (by decide)).trans (exec_reg h₁ .dmaInLink (by decide))
  have houtLink : t.per.dmaOutLink = s.per.dmaOutLink :=
    (exec_reg h₂ .dmaOutLink (by decide)).trans (exec_reg h₁ .dmaOutLink (by decide))
  refine ⟨t, fun is => by rw [runMicroOps_cons h₁, runMicroOps_cons h₂], g₁.trans g₂, u₂.trans u₁, ⟨?_, ?_⟩, ?_, ?_⟩
  · rw [hinLink, (g₁.trans g₂).cfg, hl.inLink]
  · rw [houtLink, (g₁.trans g₂).cfg, hl.outLink]
  · rw [hkept, g₂.cfg, g₁.cfg, hin]
  · rw [g₂.cfg, hout]

/-- R139 to R141: the two start micro-ops arm both idle agents on the descriptors their link fields name. -/
theorem start_both (ha : Armable s) (hl : LinksNamed s) (hp : SelectsNamed s) (hdin : s.units.din.st = .idle)
    (hdout : s.units.dout.st = .idle) :
    ∃ t, (∀ is, runMicroOps (.dmaInStart :: .dmaOutStart :: is) s = runMicroOps is t) ∧ Arming s t ∧
      t.ctl.state = .dmaArmed ∧ t.units = { s.units with
        din := { s.units.din with desc := s.cfg.descIn, st := .fetch }
        dout := { s.units.dout with desc := s.cfg.descOut, st := .fetch } } := by
  obtain ⟨s₁, h₁⟩ := exec_next (s := s) .dmaInStart
  obtain ⟨t, h₂⟩ := exec_next (s := s₁) .dmaOutStart
  obtain ⟨g₁, u₁⟩ := exec_dmaInStart_arms ha hdin hp.inSel hl.inLink h₁
  have hsel : s₁.per.dmaOutPeriSel = s.per.dmaOutPeriSel := exec_reg h₁ .dmaOutPeriSel (by decide)
  have hlink : s₁.per.dmaOutLink = s.per.dmaOutLink := exec_reg h₁ .dmaOutLink (by decide)
  obtain ⟨g₂, u₂⟩ := exec_dmaOutStart_arms g₁.armable (by rw [u₁]; exact hdout) (by rw [g₁.cfg, hsel, hp.outSel])
    (by rw [g₁.cfg, hlink, hl.outLink]) h₂
  refine ⟨t, fun is => by rw [runMicroOps_cons h₁, runMicroOps_cons h₂], g₁.trans g₂, ?_, ?_⟩
  · cases h₂; rfl
  · rw [u₂, u₁, g₁.cfg]

/-- Settles O21: the links are named, then the AES is selected, then both agents are started. -/
theorem armingNamesTheDescriptors : Obligations.ArmingNamesTheDescriptors := by
  intro s hw hg hs hdin hdout
  obtain ⟨s₁, run₁, g₁, u₁, hl₁⟩ := link_both ⟨hw, hg, hs⟩
  obtain ⟨s₂, run₂, g₂, u₂, hl₂, hp₂⟩ := select_both g₁.armable hl₁
  obtain ⟨t, run₃, g₃, hstate, hunits⟩ :=
    start_both g₂.armable hl₂ hp₂ (by rw [u₂, u₁, hdin]) (by rw [u₂, u₁, hdout])
  have g := (g₁.trans g₂).trans g₃
  have hcfg := (g₁.trans g₂).cfg
  refine ⟨t, by rw [run₁, run₂, run₃]; rfl, ?_⟩
  rw [hunits, ← hcfg]
  exact ⟨rfl, rfl, rfl, rfl, g.chaos, hstate, fun b => by rw [g.mem]⟩

end Sys2Proof.Machine
end

section
/-! The decoder and the encoder (30_encoding.md R90 to R100): a byte matches at most one row of the opcode map, so the row that
matches says what the byte decodes to; then the ROM, and what the sequencer's turn does with the code it fetches. -/

namespace Sys2Proof.Machine

variable {s : State} {u : Byte} {i : Instr}

/-! ## The rows of the opcode map -/

open Laws.RowOf in
/-- R93: every micro-op has its row in the opcode map. -/
theorem rowOf : ∀ i : Instr, Statement i
  | .chkLen => chkLen | .chkDma => chkDma | .clkEn => clkEn | .clkRstclr => clkRstclr
  | .dscOutW0 => dscOutW0 | .dscOutW1 => dscOutW1 | .dscOutW2 => dscOutW2
  | .dscInW0 => dscInW0 | .dscInW1 => dscInW1 | .dscInW2 => dscInW2
  | .dmaInRstSet => dmaInRstSet | .dmaInRstClr => dmaInRstClr
  | .dmaOutRstSet => dmaOutRstSet | .dmaOutRstClr => dmaOutRstClr
  | .dmaInLink => dmaInLink | .dmaOutLink => dmaOutLink | .dmaInPeri => dmaInPeri | .dmaOutPeri => dmaOutPeri
  | .dmaInStart => dmaInStart | .dmaOutStart => dmaOutStart
  | .aesDmaen => aesDmaen | .aesIntdis => aesIntdis | .aesMode => aesMode | .aesBlkmode => aesBlkmode
  | .aesKey n => aesKey n | .aesBlknum => aesBlknum | .aesIncsel => aesIncsel | .aesTrigger => aesTrigger
  | .aesIv n => aesIv n | .pollAes => pollAes | .pollDesc => pollDesc | .relExit => relExit

/-- R93: the codes of two rows differ in a bit that both masks keep. -/
theorem opRows_codes_differ : opRows.Pairwise fun r q => r.code &&& q.mask ≠ q.code &&& r.mask := by decide

/-- R93: two rows that match one byte agree in every bit both masks keep, so they are the same row. -/
theorem opRow_unique {r q : OpRow} (hr : r ∈ opRows) (hq : q ∈ opRows) (hru : u &&& r.mask = r.code)
    (hqu : u &&& q.mask = q.code) : r = q := by
  have hagree : r.code &&& q.mask = q.code &&& r.mask := by
    rw [← hru, ← hqu, BitVec.and_assoc, BitVec.and_assoc, BitVec.and_comm r.mask]
  have hsymm : Std.Symm fun r q : OpRow => r.code &&& q.mask ≠ q.code &&& r.mask := ⟨fun _ _ => Ne.symm⟩
  by_contra hne
  exact opRows_codes_differ.forall hr hq hne hagree

/-- R93: the mask of a row drops at most the two index bits. -/
theorem opRows_mask : ∀ r ∈ opRows, ~~~r.mask = 3 &&& ~~~r.mask := by decide

/-- R92, R93: the code of the micro-op a row makes is the row's, with the index in the bits the mask drops. -/
theorem encode_make : ∀ r ∈ opRows, ∀ n : Fin 4, encode (r.make n) = r.code ||| (BitVec.ofNat 8 n &&& ~~~r.mask) := by
  decide

/-- R90: the register index is the byte's two low bits. -/
theorem ofNat_indexOf (u : Byte) : BitVec.ofNat 8 (indexOf u) = u &&& 3 := by
  have hmod : u.toNat &&& (3 : Byte).toNat = u.toNat % 2 ^ 2 := Nat.and_two_pow_sub_one_eq_mod u.toNat 2
  apply BitVec.eq_of_toNat_eq
  rw [BitVec.toNat_and, hmod, indexOf, BitVec.extractLsb'_toNat, BitVec.toNat_ofNat, Nat.shiftRight_zero]
  omega

/-- R93: a byte is the code of the micro-op that a row matching it makes. -/
theorem encode_make_indexOf {r : OpRow} (hr : r ∈ opRows) (hu : u &&& r.mask = r.code) :
    encode (r.make (indexOf u)) = u :=
  calc encode (r.make (indexOf u))
    _ = r.code ||| (BitVec.ofNat 8 (indexOf u) &&& ~~~r.mask) := encode_make r hr ⟨indexOf u, indexOf_lt u⟩
    _ = (u &&& r.mask) ||| (u &&& ~~~r.mask) := by
      rw [ofNat_indexOf, BitVec.and_assoc, ← opRows_mask r hr, hu]
    _ = u := by ext j hj; cases hbit : u[j] <;> simp [hbit]

/-! ## The decoder -/

/-- Settles O3: the search ends at a row that matches, or passes every row. -/
theorem decodingFindsTheMatchingRow : Obligations.DecodingFindsTheMatchingRow := by
  intro u
  cases hfind : opRows.find? (·.matches u) with
  | some r =>
    refine .inl ⟨r, List.mem_of_find?_eq_some hfind, ?_, by simp [decode, hfind, indexOf]⟩
    simpa [OpRow.matches] using List.find?_some hfind
  | none =>
    refine .inr ⟨fun r hr => ?_, by simp [decode, hfind]⟩
    simpa [OpRow.matches] using List.find?_eq_none.mp hfind r hr

/-- R100: a byte decodes to what the row that matches it makes. -/
theorem decode_of_row {r : OpRow} (hr : r ∈ opRows) (hu : u &&& r.mask = r.code) :
    decode u = .ok (r.make (indexOf u)) := by
  obtain ⟨q, hq, hqu, hd⟩ | ⟨hnone, _⟩ := decodingFindsTheMatchingRow u
  · rw [opRow_unique hr hq hu hqu]
    exact hd
  · exact absurd hu (hnone r hr)

/-- R100: a decoded micro-op is made by a row that matches the byte. -/
theorem row_of_decode (hd : decode u = .ok i) : ∃ r ∈ opRows, u &&& r.mask = r.code ∧ r.make (indexOf u) = i := by
  obtain ⟨r, hr, hu, hok⟩ | ⟨_, herror⟩ := decodingFindsTheMatchingRow u
  · exact ⟨r, hr, hu, Except.ok.inj (hok.symm.trans hd)⟩
  · cases herror.symm.trans hd

/-- R94, R100: the decoder rejects the bytes that match no row. -/
theorem decode_eq_error_iff : decode u = .error (.reservedCode u) ↔ ∀ r ∈ opRows, u &&& r.mask ≠ r.code := by
  constructor
  · intro hd r hr hu
    cases hd.symm.trans (decode_of_row hr hu)
  · intro hnone
    obtain ⟨r, hr, hu, _⟩ | ⟨_, herror⟩ := decodingFindsTheMatchingRow u
    · exact absurd hu (hnone r hr)
    · exact herror

/-- Settles O1: the code matches the micro-op's own row, which makes the micro-op again. -/
theorem decodeOfEncodeIsTheMicroOp : Obligations.DecodeOfEncodeIsTheMicroOp := by
  intro i hwf
  obtain ⟨r, hr, hcode, hmake⟩ := rowOf i hwf
  rw [decode_of_row hr hcode, hmake]

/-- Settles O2: the row that made the micro-op gives the byte back from its code and the index. -/
theorem encodeOfDecodeIsTheByte : Obligations.EncodeOfDecodeIsTheByte := by
  intro u i hd
  obtain ⟨r, hr, hu, rfl⟩ := row_of_decode hd
  exact ⟨decode_wf hd, encode_make_indexOf hr hu⟩

/-- Settles O5: each sample is the code of its micro-op. -/
theorem sampleCodesDecode : Obligations.SampleCodesDecode :=
  have decodes := decodeOfEncodeIsTheMicroOp
  ⟨decodes .chkLen rfl, decodes .clkRstclr rfl, decodes .dscInW0 rfl, decodes .dmaOutStart rfl, decodes (.aesKey 2) rfl,
    decodes (.aesIv 3) rfl, decodes .aesTrigger rfl, decodes .pollDesc rfl, decodes .relExit rfl⟩

/-! ## The ROM -/

/-- R96: the ROM is the micro-program, encoded. -/
theorem seqRom_eq_encode : seqRom = (setUpOps ++ aesConfigOps ++ finishOps).map encode := by decide

/-- R92: every register index of the micro-program is one the encoding admits. -/
theorem program_wf : ∀ i ∈ setUpOps ++ aesConfigOps ++ finishOps, i.wf = true := by decide

/-- Settles O6: the ROM is the micro-program encoded, and each of its codes decodes to its micro-op. -/
theorem romIsTheMicroProgram : Obligations.RomIsTheMicroProgram := by
  refine ⟨rfl, ?_⟩
  rw [seqRom_eq_encode, List.map_map]
  refine List.map_congr_left fun i hi => ?_
  simp [decodeOfEncodeIsTheMicroOp i (program_wf i hi), Except.toOption]

/-! ## The reserved codes -/

/-- R93: a mask that keeps every bit admits one byte. -/
theorem and_ff_eq_iff {c : Byte} : u &&& 255#8 = c ↔ u.toNat = c.toNat := by
  have hkeep : u &&& 255#8 = u := BitVec.and_allOnes
  rw [hkeep, BitVec.toNat_inj]

/-- R93: a mask that drops the two index bits admits the four bytes that differ in them. -/
theorem and_fc_eq_iff {c : Byte} : u &&& 252#8 = c ↔ u.toNat / 4 * 4 = c.toNat := by
  have hkeep : (u &&& 252#8).toNat = u.toNat / 4 * 4 := by revert u; decide
  rw [← hkeep, BitVec.toNat_inj]

/-- Settles O4: the listed ranges are what the codes of the rows leave over, and the ROM is an encoded program. -/
theorem reservedCodesAreTheListedOnes : Obligations.ReservedCodesAreTheListedOnes := by
  refine ⟨fun u => ?_, fun u hu => ?_⟩
  · rw [decode_eq_error_iff]
    simp only [opRows, rowsChkClkDsc, rowsDma, rowsAesPollRel, List.forall_mem_append, List.forall_mem_cons,
      List.not_mem_nil, false_imp_iff, implies_true, and_true, ne_eq, BitVec.ofNat_eq_ofNat, and_ff_eq_iff,
      and_fc_eq_iff, BitVec.toNat_ofNat]
    omega
  · rw [seqRom_eq_encode] at hu
    obtain ⟨i, hi, rfl⟩ := List.mem_map.mp hu
    exact ⟨i, decodeOfEncodeIsTheMicroOp i (program_wf i hi)⟩

/-! ## The sequencer's turn -/

/-- R94, R245: the sequencer's turn on a reserved code only adds `RESERVED_UOP` to `F`. -/
theorem takeTurn_seq_reserved {e : DecodeError} (hb : s.ctl.busy = true) (hr : s.rom[s.ctl.upc.toNat]? = some u)
    (hd : decode u = .error e) : takeTurn .seq s = .next (reservedUop s) := by
  simp [takeTurn, seqTurn, hb, fetchCode, hr, hd]

/-- Settles O9, by induction on the number of turns: each further turn finds the same code, and the fault on record. -/
theorem reservedCodeStopsTheSequencer : Obligations.ReservedCodeStopsTheSequencer := by
  intro s u n hb hr hd
  induction n generalizing s with
  | zero => rw [List.replicate_succ, runTurns, takeTurn_seq_reserved hb hr hd]; rfl
  | succ n ih =>
    rw [List.replicate_succ, runTurns, takeTurn_seq_reserved hb hr hd]
    exact ih (reservedUop s) hb hr

/-- R69, log 6: with legal parameters a scripted step is the turn the script names, taken off it. -/
theorem step_scripted {t : Turn} {rest : List Turn} (hw : s.cfg.wf = true) (ht : s.aux.script = t :: rest) :
    step s = takeTurn t { s with aux := { s.aux with script := rest } } := by
  simp [step, hw, State.turn, popTurn, ht, State.setAux]

/-- Settles O7: the step is the sequencer's turn, and the turn is the micro-op. -/
theorem stepRunsTheDecodedMicroOp : Obligations.StepRunsTheDecodedMicroOp := by
  intro s u i rest hw ht hb hr hd
  rw [step_scripted hw ht]
  exact takeTurn_seq hb hr hd

/-- The code placed at an index of a ROM is found there. -/
theorem romWith_getElem? (rom : List Byte) (n : Nat) (u : Byte) : (romWith rom n u)[n]? = some u :=
  List.getElem?_set_self (by rw [List.length_append, List.length_replicate]; omega)

/-- R93: a table word that reads as a micro-op is a byte that decodes to it. -/
theorem decode_of_decodeTableWord {w : Nat} (hd : decodeTableWord 8 w = some i) : decode (BitVec.ofNat 8 w) = .ok i := by
  unfold decodeTableWord at hd
  split at hd
  · cases hdecode : decode (BitVec.ofNat 8 w) with
    | ok j => rw [hdecode] at hd; exact congrArg _ (Option.some.inj hd)
    | error e => rw [hdecode] at hd; cases hd
  · cases hd

/-- Settles O8: the placed word is the code at `upc`, on the sequencer's own turn. -/
theorem stepRunsTheFetchWord : Obligations.StepRunsTheFetchWord := by
  intro s w i hw hd
  exact stepRunsTheDecodedMicroOp (s.withFetchWord 8 w) _ i s.aux.script hw rfl rfl (romWith_getElem? _ _ _)
    (decode_of_decodeTableWord hd)

end Sys2Proof.Machine
end

section
/-! The family `dsc` (40_descriptor.md R110 to R116): each micro-op stores one descriptor word, after a read of a session register
where it has an operand; the store is one lemma, and the six micro-ops are its instances. -/

namespace Sys2Proof.Machine

variable {s t q : State} {a : Nat} {v : Word}

/-! ## The store of a descriptor word -/

/-- R61, R97: a word store that completes its micro-op changes the four bytes, `upc` and the record. -/
theorem writesDescriptorWord_advance_seqMemWrite (a : Nat) (v : Word) (s : State) :
    writesDescriptorWord a v s (advance (seqMemWrite a v s)) :=
  ⟨Memory.read32_write32_same s.mem a v, Memory.read_write32_outside s.mem a v, rfl, rfl, rfl, rfl, rfl, rfl, rfl⟩

/-- R22: the read of an operand before the store touches `F` alone, which is outside the frame. -/
theorem writesDescriptorWord_of_noteRead {r : XReg} (h : writesDescriptorWord a v (noteRead r s) t) :
    writesDescriptorWord a v s t := by
  simpa [writesDescriptorWord, memSameOutside] using h

/-- R22, R61, R97: the store of a word after the read of its operand. -/
theorem writesDescriptorWord_advance_seqMemWrite_noteRead (a : Nat) (v : Word) (r : XReg) (s : State) :
    writesDescriptorWord a v s (advance (seqMemWrite a v (noteRead r s))) :=
  writesDescriptorWord_of_noteRead (writesDescriptorWord_advance_seqMemWrite a v (noteRead r s))

/-- Log 24, 26: the marks of a prepared descriptor, set after the store, are outside the frame. -/
theorem writesDescriptorWord_advance_setAux {x : Aux} (h : writesDescriptorWord a v s (advance q))
    (hx : x.trace = q.aux.trace) : writesDescriptorWord a v s (advance (q.setAux x)) := by
  simpa [writesDescriptorWord, memSameOutside, State.setAux, hx] using h

/-! ## The micro-ops -/

/-- Settles O16: each micro-op stores a packed word, whose fields read back; its length is that of `descLength_toNat`. -/
theorem descriptorWordZero : Obligations.DescriptorWordZero := by
  intro s
  have hstore (a : Nat) (v : Word) := writesDescriptorWord_advance_seqMemWrite_noteRead a v .bc s
  refine ⟨⟨_, _, rfl, writesDescriptorWord_advance_setAux (hstore _ _) rfl, by simp, ?_, ?_, dwErrEof_dw0 ..,
      dwSucEof_dw0 .., dwOwner_dw0 .., dw0_reserved24 .., dw0_reserved29 ..⟩,
    ⟨_, _, rfl, writesDescriptorWord_advance_setAux (hstore _ _) rfl, by simp, ?_, dwLength_dw0 .., dwErrEof_dw0 ..,
      dwSucEof_dw0 .., dwOwner_dw0 .., dw0_reserved24 .., dw0_reserved29 ..⟩⟩
  · rw [dwSize_dw0, descLength_toNat]
  · rw [dwLength_dw0, descLength_toNat]
  · rw [dwSize_dw0, descLength_toNat]

/-- Settles O17: words 1 store an operand, words 2 the constant 0. -/
theorem descriptorBufferAndNext : Obligations.DescriptorBufferAndNext := fun s =>
  ⟨⟨_, rfl, writesDescriptorWord_advance_seqMemWrite_noteRead _ _ .pt s, by simp⟩,
    ⟨_, rfl, writesDescriptorWord_advance_seqMemWrite _ _ s, by simp⟩,
    ⟨_, rfl, writesDescriptorWord_advance_seqMemWrite_noteRead _ _ .ct s, by simp⟩,
    ⟨_, rfl, writesDescriptorWord_advance_seqMemWrite _ _ s, by simp⟩⟩

end Sys2Proof.Machine
end

section
/-! The family `dma` (41_dma_channel.md R130 to R140): each micro-op is one read-modify-write of a DMA register. What every
read-modify-write does is said once, then what the write of a start bit adds to it. -/

namespace Sys2Proof.Machine

variable {s t : State} {r : PReg} {f : Word → Word}

/-! ## Read-modify-write -/

/-- R130, R34: the frame and the result of a read-modify-write. -/
theorem readModifyWrites_regModify (r : PReg) (f : Word → Word) (s : State) : readModifyWrites r f s (regModify r f s) := by
  refine ⟨by simp, fun q hq => ?_, ?_, fun q hq => ?_, fun _ => by simp, by simp, by simp, by simp, by simp⟩
  · simpa using regGet_regSet_of_ne _ r q _ (by simpa using hq)
  · simp [State.xval]
  · simpa using Session.get_set_of_ne _ .tmp q _ (by simpa using hq)

/-- R97: completing the micro-op is outside the frame. -/
theorem readModifyWrites_advance_regModify (r : PReg) (f : Word → Word) (s : State) :
    readModifyWrites r f s (advance (regModify r f s)) := readModifyWrites_regModify r f s

/-- R140: the sequencer's state, entered on completion, is outside the frame. -/
theorem readModifyWrites_advance_enterState (q : SeqState) (r : PReg) (f : Word → Word) (s : State) :
    readModifyWrites r f s (advance (enterState q (regModify r f s))) := readModifyWrites_regModify r f s

/-- R34, R221: on an ungated unit the value stored is made from the stored one. -/
theorem readModifyWrites_stored (h : readModifyWrites r f s t) (hd : isDmaReg r = true) (hg : dmaGated s = false) :
    regGet t.per r = storedValue s.cfg r (f (regGet s.per r)) := by
  obtain ⟨hstored, -⟩ := h
  rw [hstored, regValue_dma hd hg]

/-- R201, R230: a read-modify-write that is no misuse leaves the control fields. -/
theorem regModify_ctl_of_chaos (h : (regModify r f s).ctl.chaos = s.ctl.chaos) : (regModify r f s).ctl = s.ctl := by
  obtain ⟨c, hc⟩ := regModify_ctl s r f
  have hchaos : (s.ctl.chaos || (writeChaos r s || c)) = s.ctl.chaos := (congrArg Control.chaos hc).symm.trans h
  rw [hc, hchaos]

/-! ## Sub-channel resets -/

/-- Settles O18: the bit of the value written decides whether the agent is reset, gated or not. -/
theorem subChannelResets : Obligations.SubChannelResets := by
  intro s
  have hrmw := fun r f => readModifyWrites_advance_regModify r f s
  refine ⟨⟨_, rfl, hrmw .., ?_, readModifyWrites_stored (hrmw .dmaInConf0 _) rfl, ?_⟩,
    ⟨_, rfl, hrmw .., readModifyWrites_stored (hrmw .dmaInConf0 _) rfl, ?_, ?_⟩,
    ⟨_, rfl, hrmw .., ?_, readModifyWrites_stored (hrmw .dmaOutConf0 _) rfl, ?_⟩,
    ⟨_, rfl, hrmw .., readModifyWrites_stored (hrmw .dmaOutConf0 _) rfl, ?_, ?_⟩⟩
  · rw [advance_ctl, regModify_inConf0_ctl]
  · simp [regModify_units, regWrite_inConf0_units, dinReset]
  · rw [advance_ctl, regModify_inConf0_ctl]
  · simp [regModify_units, regWrite_inConf0_units]
  · rw [advance_ctl, regModify_outConf0_ctl]
  · simp [regModify_units, regWrite_outConf0_units, doutReset]
  · rw [advance_ctl, regModify_outConf0_ctl]
  · simp [regModify_units, regWrite_outConf0_units]

/-! ## Links and peripheral selects -/

/-- R34, R135: a link write whose start bit is 0 stores the value written. -/
theorem linkField_clear {v d M : Word} {n : Fin 32} (hv : bitOf v n = false) (hM : bitOf M n = false) :
    ((v &&& ~~~M) ||| (d &&& M)) &&& ~~~bitMask n = (v &&& ~~~M) ||| (d &&& M) :=
  and_not_bitMask _ _ (bitOf_linkField hv hM)

/-- R137, R138, R230 (h): the control fields after a write of a DMA register without a side effect. -/
theorem advance_regModify_plain_ctl (hp : isPlainReg r = true) (hd : isDmaReg r = true) :
    (advance (regModify r f s)).ctl = { s.ctl with upc := s.ctl.upc + 1, chaos := s.ctl.chaos || dmaGated s } := by
  rw [advance_ctl, regModify_plain_ctl _ _ _ hp, writeChaos_dma _ _ hd]

/-- Settles O19: a link write starts nothing, as its start bit is 0 and outside the field; a select has no side effect. -/
theorem linkAndPeripheralSelect : Obligations.LinkAndPeripheralSelect := by
  intro s
  have hrmw := fun r f => readModifyWrites_advance_regModify r f s
  refine ⟨⟨_, rfl, hrmw .., by rw [advance_ctl, regModify_inLink_ctl], fun hw hg hs => ?_⟩,
    ⟨_, rfl, hrmw .., by rw [advance_ctl, regModify_outLink_ctl], fun hw hg hs => ?_⟩,
    ⟨_, rfl, hrmw .., readModifyWrites_stored (hrmw .dmaInPeriSel _) rfl, regModify_plain_units _ _ _ rfl,
      advance_regModify_plain_ctl rfl rfl⟩,
    ⟨_, rfl, hrmw .., readModifyWrites_stored (hrmw .dmaOutPeriSel _) rfl, regModify_plain_units _ _ _ rfl,
      advance_regModify_plain_ctl rfl rfl⟩⟩
  · obtain ⟨harm, hunits, -⟩ := exec_dmaInLink_names ⟨hw, hg, hs⟩ rfl
    refine ⟨(readModifyWrites_stored (hrmw .dmaInLink _) rfl hg).trans ?_, hunits, ?_⟩
    · exact linkField_clear hs.1 (Params.wf_startOutsideMask hw).1
    · rw [advance_ctl, regModify_ctl_of_chaos harm.chaos]
  · obtain ⟨harm, hunits, -⟩ := exec_dmaOutLink_names ⟨hw, hg, hs⟩ rfl
    refine ⟨(readModifyWrites_stored (hrmw .dmaOutLink _) rfl hg).trans ?_, hunits, ?_⟩
    · exact linkField_clear hs.2 (Params.wf_startOutsideMask hw).2
    · rw [advance_ctl, regModify_ctl_of_chaos harm.chaos]

/-! ## Sub-channel starts -/

/-- R34: a start bit written as 1 is stored as 0, and every other bit as it was. -/
theorem or_bitMask_clear (v : Word) (n : Fin 32) : (v ||| bitMask n) &&& ~~~bitMask n = v &&& ~~~bitMask n := by
  ext i hi; simp [Bool.and_or_distrib_right]

/-- R208: the start bit of `DMA_IN_LINK` arms an idle DIN that is not held and selects the AES. -/
theorem regModify_inStart_units (s : State) :
    (regModify .dmaInLink (fun v => v ||| bitMask s.cfg.bits.inStart) s).units =
      if !dmaHeld s && s.units.din.st == .idle && selectsAes s.cfg s.per.dmaInPeriSel then
        { s.units with din := { s.units.din with
          desc := linkAddr s.cfg (regValue .dmaInLink s ||| bitMask s.cfg.bits.inStart), st := .fetch } }
      else s.units := by
  simp [regModify_units, regWrite_inLink_units]

/-- R208, R230 (c), (h): when the start bit of `DMA_IN_LINK` is misuse. -/
theorem regModify_inStart_ctl (s : State) :
    (regModify .dmaInLink (fun v => v ||| bitMask s.cfg.bits.inStart) s).ctl = { s.ctl with
      chaos := s.ctl.chaos || dmaGated s ||
        (!dmaHeld s && !(s.units.din.st == .idle && selectsAes s.cfg s.per.dmaInPeriSel)) } := by
  simp [regModify_inLink_ctl]

/-- R203: the start bit of `DMA_OUT_LINK` arms an idle DOUT that is not held and selects the AES. -/
theorem regModify_outStart_units (s : State) :
    (regModify .dmaOutLink (fun v => v ||| bitMask s.cfg.bits.outStart) s).units =
      if !dmaHeld s && s.units.dout.st == .idle && selectsAes s.cfg s.per.dmaOutPeriSel then
        { s.units with dout := { s.units.dout with
          desc := linkAddr s.cfg (regValue .dmaOutLink s ||| bitMask s.cfg.bits.outStart), st := .fetch } }
      else s.units := by
  simp [regModify_units, regWrite_outLink_units]

/-- R203, R230 (c), (h): when the start bit of `DMA_OUT_LINK` is misuse. -/
theorem regModify_outStart_ctl (s : State) :
    (regModify .dmaOutLink (fun v => v ||| bitMask s.cfg.bits.outStart) s).ctl = { s.ctl with
      chaos := s.ctl.chaos || dmaGated s ||
        (!dmaHeld s && !(s.units.dout.st == .idle && selectsAes s.cfg s.per.dmaOutPeriSel)) } := by
  simp [regModify_outLink_ctl]

/-- Settles O20: an ungated start arms an idle agent that selects the AES, any other ungated start is misuse, and a held unit is
gated and keeps its agents. -/
theorem subChannelStarts : Obligations.SubChannelStarts := by
  intro s
  constructor
  · have hin := readModifyWrites_advance_regModify .dmaInLink (fun v => v ||| bitMask s.cfg.bits.inStart) s
    refine ⟨_, rfl, hin, fun hg => (readModifyWrites_stored hin rfl hg).trans (or_bitMask_clear ..), ?_, ?_⟩
    · rw [advance_per, regModify_per]
      exact bitOf_clear ..
    simp only [advance_ctl, advance_units, regModify_inStart_ctl, regModify_inStart_units]
    refine ⟨trivial, trivial, fun hg hst hsel => ?_, fun hg hor => ?_, fun hheld => ?_⟩
    · simp [hg, dmaHeld_of_not_gated hg, hst, hsel, regValue_dma (r := .dmaInLink) rfl hg, regGet, linkAddr]
    · rcases hor with h | h <;> simp [dmaHeld_of_not_gated hg, h]
    · simp [hheld, dmaGated_of_held hheld]
  · have hout := readModifyWrites_advance_enterState .dmaArmed .dmaOutLink (fun v => v ||| bitMask s.cfg.bits.outStart) s
    refine ⟨_, rfl, hout, fun hg => (readModifyWrites_stored hout rfl hg).trans (or_bitMask_clear ..), ?_, ?_⟩
    · rw [advance_per, enterState_per, regModify_per]
      exact bitOf_clear ..
    simp only [advance_ctl, advance_units, enterState_ctl, enterState_units, regModify_outStart_ctl, regModify_outStart_units]
    refine ⟨trivial, trivial, fun hg hst hsel => ?_, fun hg hor => ?_, fun hheld => ?_⟩
    · simp [hg, dmaHeld_of_not_gated hg, hst, hsel, regValue_dma (r := .dmaOutLink) rfl hg, regGet, linkAddr]
    · rcases hor with h | h <;> simp [dmaHeld_of_not_gated hg, h]
    · simp [hheld, dmaGated_of_held hheld]

end Sys2Proof.Machine
end

section
/-! The family `aes` (42_aes_programmer.md R150 to R160): each micro-op but the trigger is one write of one whole register, whose
operand depends on the parameters and the session registers alone; the configuration is those writes in order. The trigger's
write adds the start of the AES (44_autonomous_units.md R213). -/

namespace Sys2Proof.Machine

variable {s t : State} {i : Instr} {r : PReg} {v : Word}

/-! ## The operand -/

/-- R151 to R158: the register written is one of the AES, a write of which only stores (R201). -/
theorem aesOperand_reg (h : aesOperand i s = some (r, v)) : isPlainReg r = true ∧ isAesReg r = true := by
  unfold aesOperand at h
  split at h <;> cases h <;> exact ⟨rfl, rfl⟩

/-- R151 to R158: the operand depends on the parameters and the session registers alone. -/
theorem aesOperand_congr (hcfg : t.cfg = s.cfg) (hx : t.x = s.x) (i : Instr) : aesOperand i t = aesOperand i s := by
  unfold aesOperand State.xval
  rw [hcfg, hx]

/-- R34: a register without a side effect has no start bit, so it stores the value written. -/
theorem storedValue_plain (cfg : Params) (hr : isPlainReg r = true) (v : Word) : storedValue cfg r v = v := by
  unfold storedValue
  split
  · cases hr
  · cases hr
  · rfl

/-- R22: the state once the micro-op has read its session register, if it reads one. -/
def noteSource (i : Instr) (s : State) : State :=
  match aesSource i with
  | some q => noteRead q s
  | none => s

/-- R22: the read changes at most `F`. -/
theorem noteSource_eq_setFaults (i : Instr) (s : State) : noteSource i s = s.setFaults (noteSource i s).faults := by
  unfold noteSource noteRead
  repeat' split
  all_goals rfl

@[simp] theorem noteSource_cfg (i : Instr) (s : State) : (noteSource i s).cfg = s.cfg := by rw [noteSource_eq_setFaults]; rfl
@[simp] theorem noteSource_x (i : Instr) (s : State) : (noteSource i s).x = s.x := by rw [noteSource_eq_setFaults]; rfl
@[simp] theorem noteSource_ctl (i : Instr) (s : State) : (noteSource i s).ctl = s.ctl := by rw [noteSource_eq_setFaults]; rfl
@[simp] theorem noteSource_per (i : Instr) (s : State) : (noteSource i s).per = s.per := by rw [noteSource_eq_setFaults]; rfl
@[simp] theorem noteSource_units (i : Instr) (s : State) : (noteSource i s).units = s.units := by
  rw [noteSource_eq_setFaults]; rfl
@[simp] theorem noteSource_mem (i : Instr) (s : State) : (noteSource i s).mem = s.mem := by rw [noteSource_eq_setFaults]; rfl
@[simp] theorem noteSource_aux (i : Instr) (s : State) : (noteSource i s).aux = s.aux := by rw [noteSource_eq_setFaults]; rfl

/-! ## The write of a register -/

/-- R26: a register write does not change `s.state`. -/
@[simp] theorem regWrite_state (r : PReg) (v : Word) (s : State) : (regWrite r v s).ctl.state = s.ctl.state := by
  obtain ⟨c, hc⟩ := regWrite_ctl s r v
  rw [hc]

/-- Entering the state the sequencer is in changes nothing. -/
theorem enterState_of_state {q : SeqState} (h : s.ctl.state = q) : enterState q s = s := by subst h; rfl

/-- R150, R154: the micro-op reads its operand, writes it, and after the last key word enters KEY_PROGRAMMED. -/
theorem exec_aesOperand (h : aesOperand i s = some (r, v)) :
    exec i s = .next (advance (enterState (if i = .aesKey 3 then .keyProgrammed else s.ctl.state)
      (regWrite r v (noteSource i s)))) := by
  have hstay (q : State) (hq : q.ctl = s.ctl) : enterState s.ctl.state (regWrite r v q) = regWrite r v q :=
    enterState_of_state (by rw [regWrite_state, hq])
  by_cases hi : i = .aesKey 3
  · subst hi; cases h; rfl
  · rw [if_neg hi, hstay _ (noteSource_ctl i s)]
    unfold aesOperand at h
    split at h <;> cases h
    case h_8 => exact absurd rfl hi
    all_goals rfl

/-- Settles O22: the write stores the value, adds its transaction, and without a side effect leaves the units. -/
theorem aesWholeRegisterWrites : Obligations.AesWholeRegisterWrites := by
  intro i r v s h
  obtain ⟨hplain, haes⟩ := aesOperand_reg h
  have hexit : r ≠ .aesDmaExit := by rintro rfl; cases hplain
  have hchaos : writeChaos r (noteSource i s) = (s.units.aes.st != .idle || aesGated s) := by
    rw [writeChaos_aes _ r haes hexit]; simp [aesGated, aesHeld]
  refine ⟨_, exec_aesOperand h, ?_, fun q hq => ?_, by simp, ?_, fun _ => by simp, by simp, ?_, ?_⟩
  · simp [storedValue_plain _ hplain]
  · simpa using regGet_regSet_of_ne _ r q _ (by simpa using hq)
  · simp [regWrite_plain_units _ r _ hplain]
  · simp only [advance_faults, enterState_faults, regWrite_faults, noteSource]
    cases aesSource i <;> rfl
  · simp [regWrite_plain_ctl _ r _ hplain, hchaos, Bool.or_assoc]

/-! ## The configuration -/

/-- R160: the register table after the write of the micro-op's operand. -/
def programReg (s : State) (p : RegTable) (i : Instr) : RegTable :=
  match aesOperand i s with
  | some (r, v) => regSet p r v
  | none => p

/-- From `s` to `t` the micro-ops of the list have written their operands of `s`, and nothing their operands depend on has
changed, nor have the units and memory. -/
structure Programs (is : List Instr) (s t : State) : Prop where
  cfg : t.cfg = s.cfg
  x : t.x = s.x
  per : t.per = is.foldl (programReg s) s.per
  units : t.units = s.units
  mem : t.mem = s.mem

theorem programs_of_exec (hop : (aesOperand i s).isSome = true) (h : exec i s = .next t) : Programs [i] s t := by
  obtain ⟨⟨r, v⟩, hrv⟩ := Option.isSome_iff_exists.1 hop
  obtain ⟨hplain, -⟩ := aesOperand_reg hrv
  cases (exec_aesOperand hrv).symm.trans h
  constructor <;> simp [programReg, hrv, storedValue_plain _ hplain, regWrite_plain_units _ r _ hplain]

theorem Programs.cons {is : List Instr} {q : State} (h : Programs [i] s q) (h' : Programs is q t) : Programs (i :: is) s t := by
  have hprogram : programReg q = programReg s := by
    funext p j
    rw [programReg, aesOperand_congr h.cfg h.x j, programReg]
  exact ⟨h'.cfg.trans h.cfg, h'.x.trans h.x, by rw [h'.per, h.per, hprogram]; rfl, h'.units.trans h.units, h'.mem.trans h.mem⟩

/-- R160, by induction on the list: the micro-ops one after the other write their operands one after the other. -/
theorem runMicroOps_programs (is : List Instr) : ∀ s : State, (∀ i ∈ is, (aesOperand i s).isSome = true) →
    ∃ t, runMicroOps is s = some t ∧ Programs is s t := by
  induction is with
  | nil => exact fun s _ => ⟨s, rfl, rfl, rfl, rfl, rfl, rfl⟩
  | cons i is ih =>
    intro s hop
    obtain ⟨q, hq⟩ := exec_next (s := s) i
    have hfirst := programs_of_exec (hop i List.mem_cons_self) hq
    have hrest : ∀ j ∈ is, (aesOperand j q).isSome = true := fun j hj => by
      rw [aesOperand_congr hfirst.cfg hfirst.x]
      exact hop j (List.mem_cons_of_mem i hj)
    obtain ⟨t, hrun, ht⟩ := ih q hrest
    exact ⟨t, by rw [runMicroOps_cons hq, hrun], hfirst.cons ht⟩

/-- Settles O24: the fourteen micro-ops all have an operand, and their writes, one after the other, give the table. -/
theorem aesConfigurationIsComplete : Obligations.AesConfigurationIsComplete := by
  intro s
  obtain ⟨t, hrun, ht⟩ := runMicroOps_programs aesConfigOps s (by simp [aesConfigOps, aesOperand])
  refine ⟨t, hrun, ?_, ht.units, fun _ => by rw [ht.mem]⟩
  rw [ht.per]
  simp only [aesConfigOps, List.foldl_cons, List.foldl_nil, programReg, aesOperand, regSet]

/-! ## The trigger -/

/-- R213, R230 (k): the four registers the trigger tests. -/
theorem badAesConfig_iff (s : State) : badAesConfig s = true ↔
    s.per.aesDmaEnable ≠ s.cfg.vals.dmaEnableOn ∨ s.per.aesMode ≠ s.cfg.vals.modeEnc128 ∨
      s.per.aesBlockMode ≠ s.cfg.vals.blockModeCtr ∨ s.per.aesIncSel ≠ s.cfg.vals.incSelInc32 := by
  simp [badAesConfig, or_assoc]

/-- R213, R230 (e): the counts the trigger does not take. -/
theorem badBlockNum_iff (n : Word) : badBlockNum n = true ↔ n = 0 ∨ 255 < n.toNat := by
  simp [badBlockNum]

/-- Settles O23: the write of the trigger has the side effect of R213, on an idle AES and on one that is not. -/
theorem triggerLatchesTheConfiguration : Obligations.TriggerLatchesTheConfiguration := by
  intro s
  refine ⟨_, rfl, by simp [regSet, storedValue], fun q hq => ?_, by simp, by simp, fun _ => by simp, ?_⟩
  · simpa using regGet_regSet_of_ne _ .aesTrigger q _ (by simpa using hq)
  simp only [advance_ctl, advance_units, advance_aux, enterState_ctl, enterState_units, enterState_aux, regWrite_aux,
    regWrite_trigger_ctl, regWrite_trigger_units]
  refine ⟨trivial, trivial, trivial, trivial, trivial, trivial, rfl, fun hheld hidle => ⟨?_, ?_⟩, fun hbusy => ?_,
    fun hheld hidle => ?_⟩
  · simp [hidle, hheld, latched]
  · simp [hidle, badAesConfig_iff, badBlockNum_iff, or_assoc]
  · simp [hbusy]
  · simp [hidle, hheld, aesGated_of_held hheld]

end Sys2Proof.Machine
end

section
/-! The families `chk` and `clk` (43_orchestrator.md R173 to R175, R178): where the register they read is written the two checks
are their outcomes alone; the two clock micro-ops are read-modify-writes, after which no unit is gated (44_autonomous_units.md
R221). -/

namespace Sys2Proof.Machine

variable {s t : State} {i : Instr} {r : PReg}

/-! ## The checks -/

/-- R173, R22: with `x[BC]` written, `chk.len` is its outcome and nothing else. -/
theorem execChkLen_of_written (hbc : (s.x.get .bc).written = true) :
    execChkLen s = .next (
      if s.cfg.checks.checkZero = true ∧ s.xval .bc = 0 then endRun s
      else if s.cfg.checks.checkLength = true ∧ 255 < (s.xval .bc).toNat then takeException .invalidLength 0 s
      else advance s) := by
  simp [execChkLen, noteRead_of_written s .bc hbc]

/-- Settles O12: the zero test decides first, then the length test. -/
theorem chkLenOutcomes : Obligations.ChkLenOutcomes := by
  intro s hbc
  simp only [exec, execChkLen_of_written hbc]
  refine ⟨fun hon hzero => ?_, fun hnz hon hlong => ?_, fun hnz hshort => ?_⟩
  · rw [if_pos ⟨hon, hzero⟩]; rfl
  · rw [if_neg hnz, if_pos ⟨hon, hlong⟩]; rfl
  · rw [if_neg hnz, if_neg hshort]; rfl

/-- R178, R22: with `x[DW0]` written, `chk.dma` is its outcome and nothing else. -/
theorem execChkDma_of_written (hdw0 : (s.x.get .dw0).written = true) :
    execChkDma s = .next (
      if s.cfg.checks.checkErrEof = true ∧ dwErrEof (s.xval .dw0) = true then takeException .dmaFault 1 s
      else if s.cfg.checks.fifoCheck = true then
        if fifoFaultSeen s = true then takeException .dmaFault 2 (fifoStatusRead s)
        else advance (enterState .done (fifoStatusRead s))
      else advance (enterState .done s)) := by
  simp [execChkDma, noteRead_of_written s .dw0 hdw0]

/-- R220: the verdict on the two FIFO words: no fault of a drained engine, free otherwise. -/
theorem fifoFaultSeen_spec (s : State) : (drained s = true → fifoFaultSeen s = false) ∧
    (drained s = false → ∃ a b, fifoFaultSeen s = Config.fifoFault a b) :=
  ⟨fun h => by simp [fifoFaultSeen, h], fun h => ⟨_, _, by rw [fifoFaultSeen, h]; rfl⟩⟩

/-- Settles O13: the err_eof test decides first; the FIFO test, where it is on, by the verdict on the two words it reads. -/
theorem chkDmaOutcomes : Obligations.ChkDmaOutcomes := by
  intro s hdw0
  simp only [exec, execChkDma_of_written hdw0]
  refine ⟨fun hon herr => ?_, fun hok hoff => ?_, fun hok hon => ?_⟩
  · rw [if_pos ⟨hon, herr⟩]; rfl
  · rw [if_neg hok, hoff]; rfl
  · rw [if_neg hok, if_pos hon]
    obtain ⟨hdrained, hfree⟩ := fifoFaultSeen_spec s
    refine ⟨_, fifoFaultSeen s, rfl, hdrained, hfree, ?_⟩
    cases fifoFaultSeen s <;> exact ⟨rfl, rfl, rfl, rfl, fun _ => rfl, rfl, rfl⟩

/-! ## The clock and reset bits -/

/-- Settles O14: the clock register's write has no side effect, and one that leaves the reset bits 0 holds no unit. -/
theorem clockAndResetBits : Obligations.ClockAndResetBits := by
  intro s
  refine ⟨⟨_, rfl, readModifyWrites_advance_regModify .., ?_, ?_, ?_⟩,
    ⟨_, rfl, readModifyWrites_advance_enterState .., ?_, ?_, ?_⟩⟩
  · rw [advance_per, regModify_per]; rfl
  · rw [advance_units, regModify_plain_units _ _ _ rfl]
  · rw [advance_ctl, regModify_plain_ctl _ _ _ rfl, writeChaos_sys s _ (.inl rfl), Bool.or_false]
  · rw [advance_per, enterState_per, regModify_per]; rfl
  · simp [regModify_units, regWrite_rstEn_units]
  · simp [regModify_rstEn_ctl]

/-! ## Gating -/

/-- R221: the AES unit is not gated where its clock runs and no reset holds it. -/
theorem aesGated_eq_false_iff :
    aesGated s = false ↔ bitOf s.per.sysClkEn s.cfg.bits.aesClk = true ∧ aesHeld s = false := by
  simp [aesGated]

/-- R221: the DMA unit is not gated where its clock runs and its reset does not hold it. -/
theorem dmaGated_eq_false_iff :
    dmaGated s = false ↔ bitOf s.per.sysClkEn s.cfg.bits.dmaClk = true ∧ dmaHeld s = false := by
  simp [dmaGated]

/-- R93: `clk.en` alone writes the clock register. -/
theorem writtenReg_sysClkEn (h : writtenReg i = some .sysClkEn) : i = .clkEn := by
  cases i <;> simp only [writtenReg, Option.some.injEq, reduceCtorEq] at h
  case clkEn => rfl
  case aesKey n => rcases keyReg_cases n with e | e | e | e <;> rw [e] at h <;> cases h
  case aesIv n => rcases ivReg_cases n with e | e | e | e <;> rw [e] at h <;> cases h

/-- R174: no micro-op stops a clock: `clk.en` only sets bits, and no other writes the register. -/
theorem exec_keeps_clock {n : Fin 32} (h : exec i s = .next t) (hn : bitOf s.per.sysClkEn n = true) :
    bitOf t.per.sysClkEn n = true := by
  by_cases hi : i = .clkEn
  · subst hi
    obtain ⟨⟨q, hq, -, hbits, -⟩, -⟩ := clockAndResetBits s
    cases hq.symm.trans h
    simp [hbits, hn]
  · have hsame : t.per.sysClkEn = s.per.sysClkEn := exec_reg h .sysClkEn fun hw => hi (writtenReg_sysClkEn hw)
    rw [hsame, hn]

/-- Settles O15: the clock bits set and the reset bits cleared ungate both units; no micro-op stops a clock or holds a unit. -/
theorem unitsAreUngatedForTheRun : Obligations.UnitsAreUngatedForTheRun := by
  constructor
  · intro s
    obtain ⟨⟨q, hq, -, hclk, -⟩, -⟩ := clockAndResetBits s
    obtain ⟨-, t, ht, -, hrst, -⟩ := clockAndResetBits q
    have hrun : runMicroOps [.clkEn, .clkRstclr] s = some t := (runMicroOps_cons hq _).trans (runMicroOps_cons ht [])
    have hqcfg : q.cfg = s.cfg := (exec_fixed hq).1
    have htcfg : t.cfg = q.cfg := (exec_fixed ht).1
    refine ⟨t, hrun, aesGated_eq_false_iff.2 ⟨exec_keeps_clock ht ?_, ?_⟩, dmaGated_eq_false_iff.2 ⟨exec_keeps_clock ht ?_, ?_⟩⟩
    · simp [hclk, htcfg, hqcfg]
    · simp [aesHeld, hrst, htcfg]
    · simp [hclk, htcfg, hqcfg]
    · simp [dmaHeld, hrst, htcfg]
  · intro i s t h
    obtain ⟨haes, hdma⟩ := exec_held h
    have hcfg : t.cfg = s.cfg := (exec_fixed h).1
    simp only [aesGated_eq_false_iff, dmaGated_eq_false_iff, hcfg]
    refine ⟨fun ⟨hclk, hfree⟩ => ⟨exec_keeps_clock h hclk, ?_⟩, fun ⟨hclk, hfree⟩ => ⟨exec_keeps_clock h hclk, ?_⟩⟩
    · simpa [hfree] using haes
    · simpa [hfree] using hdma

end Sys2Proof.Machine
end

section
/-! The families `poll` and `rel` (43_orchestrator.md R176, R177, R179): what a failed poll read does is said once for both
polls. -/

namespace Sys2Proof.Machine

variable {s : State} {info : BitVec 2}

/-! ## A failed poll read -/

/-- R176, R22: a failed read changes no session register but a written poll count. -/
theorem pollMiss_frame (hw : (s.x.get .pollcnt).written = true) (info : BitVec 2) :
    (pollMiss info s).faults = s.faults ∧ xSameBut s (pollMiss info s) [.pollcnt] := by
  obtain ⟨_, e⟩ | ⟨_, _, ⟨_, e⟩ | ⟨_, e⟩⟩ := pollMiss_cases info s <;> rw [e]
  · exact ⟨rfl, fun _ _ => rfl⟩
  all_goals
    rw [noteRead_of_written s .pollcnt hw]
    exact ⟨rfl, fun q hq => Session.get_set_of_ne _ .pollcnt q _ (by simpa using hq)⟩

/-- R176: without a limit a failed read changes nothing. -/
theorem pollMiss_unbounded (hl : s.cfg.checks.pollLimit = .unbounded) (info : BitVec 2) : pollMiss info s = s := by
  simp [pollMiss, hl]

/-- R176, R241: with a limit a failed read is counted, and raises exactly when the count reaches the limit. -/
theorem pollMiss_bounded {n : Word} (hl : s.cfg.checks.pollLimit = .bounded n) (info : BitVec 2) :
    (pollMiss info s).xval .pollcnt = s.xval .pollcnt + 1 ∧
      (pollMiss info s).ctl = (if s.xval .pollcnt + 1 = n then { s.ctl with
          status := .hwTimeout, errinfo := info, eupc := s.ctl.upc, state := .error, busy := false }
        else s.ctl) := by
  obtain ⟨hun, _⟩ | ⟨m, hm, h⟩ := pollMiss_cases info s
  · rw [hl] at hun; cases hun
  · rw [hl] at hm; cases hm
    obtain ⟨hlimit, e⟩ | ⟨hbelow, e⟩ := h <;> rw [e]
    · exact ⟨by simp, by rw [if_pos hlimit, takeException_ctl, writeX_ctl, noteRead_ctl]; rfl⟩
    · exact ⟨by simp, by rw [if_neg hbelow, writeX_ctl, noteRead_ctl]⟩

/-! ## The polls -/

/-- Settles O26: the read gives the done value, or it is a failed poll read. -/
theorem pollAesOutcomes : Obligations.PollAesOutcomes := by
  intro s hw
  by_cases hdone : aesStateValue s = s.cfg.vals.stateDone
  · refine ⟨_, congrArg Host.Outcome.next (if_pos hdone), by simp, by simp, fun _ => by simp, by simp, fun q hq => ?_,
      by simp, fun _ => by simp [State.xval], fun hne => absurd hdone hne, fun _ hne => absurd hdone hne⟩
    simpa using Session.get_set_of_ne _ .pollcnt q _ (by simpa using hq)
  · obtain ⟨hfaults, hx⟩ := pollMiss_frame (s := aesStateRead s) (by simpa using hw) 1
    refine ⟨_, congrArg Host.Outcome.next (if_neg hdone), by simp, by simp, fun _ => by simp, by simpa using hfaults, ?_,
      by simp, fun h => absurd h hdone, fun _ hl => ?_, fun n _ hl => ?_⟩
    · simpa [xSameBut] using hx
    · rw [pollMiss_unbounded (by simpa using hl)]; simp
    · simpa using pollMiss_bounded (s := aesStateRead s) (by simpa using hl) 1

/-- R177: the words `poll.desc` takes, by the done mode and the fault predicate. -/
theorem descExit_iff (cfg : Params) (w : Word) : (descDone cfg w || descFaultSeen cfg w) = true ↔
    ((cfg.checks.doneMode = .or ∧ (dwOwner w = false ∨ dwSucEof w = true)) ∨
        (cfg.checks.doneMode = .and ∧ dwOwner w = false ∧ dwSucEof w = true)) ∨
      (cfg.checks.checkErrEof = true ∧ dwOwner w = false ∧ dwErrEof w = true) := by
  cases hmode : cfg.checks.doneMode <;>
    simp [descDone, descFaultSeen, hmode, isDone, frameComplete, and_assoc]

/-- Settles O28: the word read ends the poll, or it is a failed poll read. -/
theorem pollDescOutcomes : Obligations.PollDescOutcomes := by
  intro s hw
  simp only [← descExit_iff]
  by_cases hexit : (descDone s.cfg (s.mem.read32 s.cfg.descIn.toNat) ||
      descFaultSeen s.cfg (s.mem.read32 s.cfg.descIn.toNat)) = true
  · refine ⟨_, congrArg Host.Outcome.next (if_pos hexit), rfl, rfl, fun _ => rfl, rfl, fun q hq => ?_, rfl,
      fun _ => ⟨rfl, rfl, rfl⟩, fun hne => absurd hexit hne, fun _ hne => absurd hexit hne⟩
    obtain ⟨hcnt, hdw0⟩ : q ≠ .pollcnt ∧ q ≠ .dw0 := by simpa using hq
    simp [Session.get_set_of_ne _ _ q _ hcnt, Session.get_set_of_ne _ _ q _ hdw0]
  · obtain ⟨hfaults, hx⟩ := pollMiss_frame (s := seqMemRead s.cfg.descIn.toNat s) hw 2
    refine ⟨_, congrArg Host.Outcome.next (if_neg hexit), by simp, by simp, fun _ => by simp, hfaults,
      fun q hq => hx q fun hcnt => hq (List.mem_cons.2 (.inl (List.mem_singleton.1 hcnt))), by simp, fun h => absurd h hexit,
      fun _ hl => ?_, fun n _ hl => ?_⟩
    · rw [pollMiss_unbounded (s := seqMemRead s.cfg.descIn.toNat s) hl]; exact ⟨rfl, rfl⟩
    · obtain ⟨hcount, hctl⟩ := pollMiss_bounded (s := seqMemRead s.cfg.descIn.toNat s) hl 2
      exact ⟨hcount, hx .dw0 (by simp), hctl⟩

/-! ## The release -/

/-- Settles O29: the write has the side effect of R217, and then the run ends. -/
theorem releaseEndsTheRun : Obligations.ReleaseEndsTheRun := by
  intro s
  refine ⟨_, rfl, by simp [regSet, storedValue], fun q hq => ?_, by simp, by simp, fun _ => by simp, ?_⟩
  · simpa using regGet_regSet_of_ne _ .aesDmaExit q _ (by simpa using hq)
  simp only [endRun_ctl, endRun_units, endRun_aux, regWrite_aux, regWrite_exit_ctl, regWrite_exit_units]
  refine ⟨trivial, trivial, trivial, trivial, trivial, trivial, rfl, fun hst => ?_, fun hst => ?_⟩
  · simp [hst]
  · simp [hst]

end Sys2Proof.Machine
end

section
/-! The host's turns (43_orchestrator.md R170, R171, R182, R199), and quiescence (R180). -/

namespace Sys2Proof.Machine

variable {s : State} {u : Turn}

/-! ## Starts -/

/-- R170: a start while not busy is accepted. -/
theorem takeTurn_start (hb : s.ctl.busy = false) (key iv : Block) (pt ct bc : Word) :
    takeTurn (.start key iv pt ct bc) s = .next (acceptStart key iv pt ct bc s) := by
  simp [takeTurn, startRequest, hb]

/-- Settles O32: the accepted start is twelve writes of session registers and one of the control fields. -/
theorem startAccepted : Obligations.StartAccepted := by
  intro s key iv pt ct bc hb
  refine ⟨_, takeTurn_start hb key iv pt ct bc, ?_⟩
  have hx (r : XReg) (hr : r ∉ [XReg.key0, .key1, .key2, .key3, .iv0, .iv1, .iv2, .iv3, .pt, .ct, .bc, .pollcnt]) :
      (acceptStart key iv pt ct bc s).x.get r = s.x.get r := by
    simp only [List.mem_cons, List.not_mem_nil, or_false, not_or] at hr
    simp [acceptStart, Session.get_set, hr]
  have hctl : (acceptStart key iv pt ct bc s).ctl =
      { upc := 0, state := .idle, busy := true, status := .ok, errinfo := 0, eupc := s.ctl.eupc,
        chaos := s.ctl.chaos || decide (pt.toNat % alignBytes s.cfg.bufAlign ≠ 0) ||
          decide (ct.toNat % alignBytes s.cfg.bufAlign ≠ 0) } := by
    simp [acceptStart, Bool.or_assoc, bne, beq_eq_decide]
  refine ⟨?_, ?_, ?_, ?_, ?_, ?_, ?_, ?_, ?_, ?_, ?_, acceptStart_pollcnt .., hx, hctl, acceptStart_per ..,
    acceptStart_units .., acceptStart_mem .., acceptStart_faults .., acceptStart_aux ..⟩
  all_goals simp [acceptStart, State.xval, Session.get_set]

/-- Settles O33: the request of a busy machine only adds the name. -/
theorem startWhileBusy : Obligations.StartWhileBusy :=
  fun _ _ _ _ _ _ hb => congrArg Host.Outcome.next (if_pos hb)

/-- R9: profile REIMPL makes the zero test. -/
theorem checkZero_of_isReimpl {c : Checks} (h : c.isReimpl = true) : c.checkZero = true := by
  unfold Checks.isReimpl at h
  split at h
  · rfl
  · cases h

/-- Settles O35: the first micro-op of the ROM is `chk.len`, which finds the count written and 0. -/
theorem zeroBlockRunEndsAtOnce : Obligations.ZeroBlockRunEndsAtOnce := by
  intro s key iv pt ct hb hre hrom
  obtain ⟨c, hctl⟩ := acceptStart_ctl key iv pt ct 0 s
  generalize hq : acceptStart key iv pt ct 0 s = q at hctl
  have hbc : q.xval .bc = 0 := by simp [← hq, acceptStart, State.xval, Session.get_set]
  have hwritten : (q.x.get .bc).written = true := hq ▸ acceptStart_written key iv pt ct 0 s .bc (by decide) (by decide)
  have hzero : q.cfg.checks.checkZero = true := by rw [← hq, acceptStart_cfg]; exact checkZero_of_isReimpl hre
  have hrom' : q.rom = seqRom := by rw [← hq, acceptStart_rom, hrom]
  have hseq : takeTurn .seq q = .next (endRun q) := by
    rw [takeTurn_seq (u := 0x00) (i := .chkLen) (by rw [hctl]) (by rw [hrom', hctl]; rfl) (by decide), exec,
      execChkLen_of_written hwritten, if_pos ⟨hzero, hbc⟩]
  refine ⟨endRun q, by simp only [runTurns, takeTurn_start hb, hq, hseq], rfl, by simp [hctl], rfl, by simp [hctl], ?_⟩
  simp [← hq]

/-! ## Stores -/

/-- R199: the host may store where no register is, and to a lent byte in a quiescent system only. -/
theorem mayStore_iff (s : State) (a : Nat) : mayStore s a = true ↔
    isRegisterByte s a = false ∧ (isLentByte s a = true → quiescent s = true) := by
  cases hl : isLentByte s a <;> simp [mayStore, hl]

/-- Settles O36: an allowed store writes its one byte, any other nothing. -/
theorem hostStoresWithinItsDuties : Obligations.HostStoresWithinItsDuties := by
  intro s a b
  by_cases hm : mayStore s a.toNat = true
  · refine ⟨_, congrArg Host.Outcome.next (if_pos hm), fun c hc => Memory.read_write_of_ne _ _ _ _ (by omega), rfl, rfl, rfl,
      rfl, rfl, fun _ _ => Memory.read_write_same _ _ _, fun _ => ⟨Memory.read_write_same _ _ _, (mayStore_iff ..).1 hm⟩⟩
  · exact ⟨_, congrArg Host.Outcome.next (if_neg hm), fun _ _ => rfl, rfl, rfl, rfl, rfl, rfl,
      fun hreg hlent => absurd ((mayStore_iff ..).2 ⟨hreg, hlent⟩) hm, fun hne => absurd rfl hne⟩

/-! ## Quiescence -/

/-- R180: a quiescent system is not busy, and none of its agents has an enabled step. -/
theorem quiescent_iff : quiescent s = true ↔ s.ctl.busy = false ∧ agentEnabled .dout s = false ∧
    agentEnabled .din s = false ∧ agentEnabled .aes s = false := by
  simp [quiescent, and_assoc]

/-- R180, R232: in a quiescent system no agent has an enabled move, the sequencer included. -/
theorem agentEnabled_of_quiescent (hq : quiescent s = true) (a : Agent) : agentEnabled a s = false := by
  obtain ⟨hbusy, hdout, hdin, haes⟩ := quiescent_iff.1 hq
  cases a with
  | seq => simp [agentEnabled, seqEnabled, hbusy]
  | dout => exact hdout
  | din => exact hdin
  | aes => exact haes

/-- R27, R200: the machine's turns of an idle sequencer never stop it. -/
theorem takeTurn_next_of_idle (hb : s.ctl.busy = false) (hu : isMachineTurn u = true) : ∃ t, takeTurn u s = .next t := by
  cases u with
  | seq => exact ⟨s, by simp [takeTurn, seqTurn, hb]⟩
  | _ => exact ⟨_, rfl⟩

/-- Settles O46: the turn is a move of no agent, and such a turn changes nothing. -/
theorem quiescentSystemStaysPut : Obligations.QuiescentSystemStaysPut := by
  intro u s hq hu
  obtain ⟨hbusy, -⟩ := quiescent_iff.1 hq
  have hno (a : Agent) : takesMove a u s = false := by
    by_contra hmove
    have henabled := (agentEnabled_iff a s).2 ⟨u, by simpa using hmove⟩
    rw [agentEnabled_of_quiescent hq a] at henabled
    cases henabled
  obtain ⟨t, ht⟩ := takeTurn_next_of_idle hbusy hu
  rw [ht, takeTurn_without_move hu hno ht]

end Sys2Proof.Machine
end

section
/-! The result of a successful run (43_orchestrator.md R181), read off the invariant of the run at its end. -/

namespace Sys2Proof.Machine

variable {s t : State} {key iv : Block} {pt ct bc : Word} {ts : List Turn}

/-- R199: what the premises of a successful run give of its start. -/
theorem successfulRun_legal (h : successfulRun s key iv pt ct bc ts t) :
    Launch.Legal ⟨s.cfg, key, iv, pt, ct, bc, s.mem.read⟩ := by
  obtain ⟨hwf, hreimpl, -, -, -, -, hduties, hpos, hsmall, -⟩ := h
  obtain ⟨-, -, hptCt, hptOut, hptIn, hctOut, hctIn, -⟩ := hduties
  exact ⟨hwf, hreimpl, hpos, hsmall, hptCt, hptOut, hptIn, hctOut, hctIn⟩

/-- R181: a successful run keeps the invariant from the accepted start on, and being RELEASED it stands at the end. -/
theorem successfulRun_ends (h : successfulRun s key iv pt ct bc ts t) :
    RunAt ⟨s.cfg, key, iv, pt, ct, bc, s.mem.read⟩ 38 t := by
  have hlegal := successfulRun_legal h
  obtain ⟨-, -, hrom, hbusy, -, hstarts, hduties, -, -, hturns, hrun, hstate, -, hchaos, -⟩ := h
  obtain ⟨-, -, -, -, -, -, -, hdout, hdin, haes⟩ := hduties
  rw [runTurns, takeTurn_start hbusy] at hrun
  have hinv := (RunInv.start hrom hstarts hdout hdin haes).run hlegal ts _ hturns hrun
  obtain ⟨-, herror⟩ | ⟨-, hnot, -⟩ | ⟨-, hend⟩ := hinv hchaos
  · rw [hstate] at herror; cases herror
  · exact absurd hstate hnot
  · exact hend

/-- R181: byte `16·i + j` of the run's ciphertext is the one of its CTR encryption. -/
theorem Launch.cipher_eq_ctrByte (G : Launch) (i : Nat) (j : Fin 16) :
    G.cipher (16 * i + j.val) = ctrByte (fun n => G.mem (G.pt.toNat + n)) G.key G.iv i j := by
  have hblock : (16 * i + j.val) / 16 = i := by omega
  have hbyte : (16 * i + j.val) % 16 = j.val := by omega
  simp [Launch.cipher, Launch.plain, Launch.stream, ctrByte, hblock, hbyte]

/-- Settles O58: at the end all `16·bc` bytes have been received, and memory outside is framed. -/
theorem successfulRunWritesTheCiphertext : Obligations.SuccessfulRunWritesTheCiphertext := by
  intro s t key iv pt ct bc ts h
  have hend := successfulRun_ends h
  refine ⟨fun i j hi => ?_, fun a hct hout hin => hend.frame a ⟨hct, hout, hin⟩⟩
  obtain ⟨d, r, hflow⟩ := hend.flow (by decide)
  obtain ⟨-, hall⟩ := hflow.complete (by decide)
  have hlt : 16 * i + j.val < r := by rw [hall]; show _ < 16 * bc.toNat; omega
  rw [Nat.add_assoc, hflow.stored _ hlt, Launch.cipher_eq_ctrByte]

/-- Settles O60: the key stream, exclusive-ored in twice, cancels. -/
theorem secondEncryptionDecrypts : Obligations.SecondEncryptionDecrypts := by
  intro s t key iv pt ct bc ts p h hplain n hn
  obtain ⟨hcipher, -⟩ := successfulRunWritesTheCiphertext s t key iv pt ct bc ts h
  obtain ⟨i, j, rfl⟩ : ∃ (i : Nat) (j : Fin 16), n = 16 * i + j.val :=
    ⟨n / 16, ⟨n % 16, Nat.mod_lt n (by decide)⟩, (Nat.div_add_mod n 16).symm⟩
  have hi : i < bc.toNat := by omega
  calc t.mem.read (ct.toNat + (16 * i + j.val))
      = ctrByte (fun n => s.mem.read (pt.toNat + n)) key iv i j := by rw [← hcipher i j hi, Nat.add_assoc]
    _ = ctrByte p key iv i j ^^^ (Config.aes128 key (inc32^[i] iv))[j] := by rw [← hplain i j hi, ctrByte]
    _ = p (16 * i + j.val) := by rw [ctrByte, BitVec.xor_assoc, BitVec.xor_self, BitVec.xor_zero]

end Sys2Proof.Machine
end

section
/-! The writes of the sequencer and gated units (44_autonomous_units.md R221, R230 (a), (h)): a micro-op that writes a register
makes the chaos check of that write, and a gated unit has no move. -/

namespace Sys2Proof.Machine

variable {s t : State} {i : Instr} {r : PReg}

/-! ## The chaos check of a write -/

/-- R22: the read of an operand is no part of the check. -/
theorem writeChaos_noteRead (x : XReg) (r : PReg) (s : State) : writeChaos r (noteRead x s) = writeChaos r s := by
  simp [writeChaos, regGated, dmaGated, aesGated, dmaHeld, aesHeld]

theorem regWrite_chaos_of_writeChaos (hc : writeChaos r s = true) (v : Word) : (regWrite r v s).ctl.chaos = true := by
  obtain ⟨c, hctl⟩ := regWrite_ctl s r v
  simp [hctl, hc]

theorem regModify_chaos_of_writeChaos (hc : writeChaos r s = true) (f : Word → Word) : (regModify r f s).ctl.chaos = true := by
  obtain ⟨c, hctl⟩ := regModify_ctl s r f
  simp [hctl, hc]

/-- R230 (a), (h): a micro-op whose write is misuse sets `s.chaos`. -/
theorem exec_chaos_of_writeChaos (hw : writtenReg i = some r) (hc : writeChaos r s = true) (h : exec i s = .next t) :
    t.ctl.chaos = true := by
  have hwrite (v : Word) := regWrite_chaos_of_writeChaos hc v
  have hmodify (f : Word → Word) := regModify_chaos_of_writeChaos hc f
  have hnoted (x : XReg) (v : Word) : (regWrite r v (noteRead x s)).ctl.chaos = true :=
    regWrite_chaos_of_writeChaos (by rw [writeChaos_noteRead, hc]) v
  cases i <;> cases hw
  case aesKey n => obtain ⟨_, rfl⟩ | ⟨_, rfl⟩ := execAesKey_cases n h <;> exact hnoted _ _
  all_goals
    cases h
    simp only [advance_ctl, enterState_ctl, endRun_ctl, hwrite, hmodify, hnoted]

/-- R130: a micro-op that writes a DMA register is a read-modify-write of it. -/
theorem exec_dmaReg (hw : writtenReg i = some r) (hd : isDmaReg r = true) (s : State) :
    ∃ f t, exec i s = .next t ∧ readModifyWrites r f s t := by
  cases i <;> cases hw
  case dmaOutStart => exact ⟨_, _, rfl, readModifyWrites_advance_enterState ..⟩
  case aesKey n => rcases keyReg_cases n with e | e | e | e <;> rw [e] at hd <;> cases hd
  case aesIv n => rcases ivReg_cases n with e | e | e | e <;> rw [e] at hd <;> cases hd
  case dmaInRstSet | dmaInRstClr | dmaOutRstSet | dmaOutRstClr | dmaInLink | dmaOutLink | dmaInPeri | dmaOutPeri | dmaInStart =>
    exact ⟨_, _, rfl, readModifyWrites_advance_regModify ..⟩
  all_goals cases hd

/-! ## Gated units -/

/-- R221: the AES unit is gated by its clock bit and by two reset bits. -/
theorem aesGated_iff : aesGated s = true ↔ s.per.sysClkEn.getLsbD s.cfg.bits.aesClk = false ∨
    s.per.sysRstEn.getLsbD s.cfg.bits.aesRst = true ∨ s.per.sysRstEn.getLsbD s.cfg.bits.dsRst = true := by
  simp [aesGated, aesHeld, bitOf]

/-- R221: the DMA unit is gated by its clock bit and its reset bit. -/
theorem dmaGated_iff : dmaGated s = true ↔
    s.per.sysClkEn.getLsbD s.cfg.bits.dmaClk = false ∨ s.per.sysRstEn.getLsbD s.cfg.bits.dmaRst = true := by
  simp [dmaGated, dmaHeld, bitOf]

/-- R221: a gated DIN has no error end either. -/
theorem dinErrorMove_of_gated (hg : dmaGated s = true) : dinErrorMove s = s := by simp [dinErrorMove, dinErrorEnabled, hg]

/-- Log 17: a chaos move of an agent of a gated unit is none. -/
theorem chaosMove_of_gated {m : ChaosMove} (hg : (if chaosAgent m = .aes then aesGated s else dmaGated s) = true) :
    chaosMove m s = s := by
  have hguard : chaosGuard m s = false := by cases m <;> simp_all [chaosGuard, chaosAgent]
  simp [chaosMove, hguard]

/-- Settles O42: the gating bits, the moves of a gated unit, and the check and the draw of an access to it. -/
theorem gatedUnits : Obligations.GatedUnits := by
  refine ⟨fun s => ⟨aesGated_iff, dmaGated_iff⟩, fun s => ⟨fun hg => ?_, fun hg => ?_⟩, fun i r s hw hg => ?_,
    fun i r s hw hd hg => ?_⟩
  · have hchaos (m : ChaosMove) (hm : chaosAgent m ≠ .aes) : takeTurn (.chaos m) s = .next s :=
      congrArg Host.Outcome.next (chaosMove_of_gated (by rw [if_neg hm]; exact hg))
    exact ⟨congrArg Host.Outcome.next (doutMove_of_gated hg), congrArg Host.Outcome.next (dinMove_of_gated hg),
      congrArg Host.Outcome.next (dinErrorMove_of_gated hg), hchaos _ nofun, fun _ _ => hchaos _ nofun, fun _ => hchaos _ nofun⟩
  · have hchaos (m : ChaosMove) (hm : chaosAgent m = .aes) : takeTurn (.chaos m) s = .next s :=
      congrArg Host.Outcome.next (chaosMove_of_gated (by rw [if_pos hm]; exact hg))
    exact ⟨congrArg Host.Outcome.next (aesMove_of_gated hg), fun _ => hchaos _ rfl, fun _ => ⟨hchaos _ rfl, hchaos _ rfl⟩⟩
  · obtain ⟨t, ht⟩ := exec_next (s := s) i
    exact ⟨t, ht, exec_chaos_of_writeChaos hw (by simp [writeChaos, hg]) ht⟩
  · obtain ⟨f, t, ht, -, -, htmp, -⟩ := exec_dmaReg hw hd s
    refine ⟨t, ht, exec_chaos_of_writeChaos hw (by rw [writeChaos_dma _ _ hd, hg]) ht, ?_⟩
    rw [htmp, regValue, if_pos (by simp [regGated, hd, hg]), nextDraw]

end Sys2Proof.Machine
end

section
/-! The moves of the AES core and the reads of its state (44_autonomous_units.md R214 to R216, R219), and the invariant of a
working AES (R213): the registers it latches stay, since a write to one of them is misuse while the AES is not idle. -/

namespace Sys2Proof.Machine

variable {s t : State} {u : Turn} {i : Instr} {r : PReg}

/-! ## The moves -/

/-- R214: a queue that begins with a block gives that block. -/
theorem takeBlock_toList_append (p : Block) (rest : List Byte) : takeBlock (p.toList ++ rest) = some (p, rest) := by
  have hp : p = #v[p[0], p[1], p[2], p[3], p[4], p[5], p[6], p[7], p[8], p[9], p[10], p[11], p[12], p[13], p[14], p[15]] := by
    ext n hn
    interval_cases n <;> rfl
  rw [hp]; rfl

/-- R219: fewer than 16 bytes are no block. -/
theorem takeBlock_of_short {l : List Byte} (h : l.length < 16) : takeBlock l = none := by
  cases hb : takeBlock l with
  | none => rfl
  | some b => exact absurd (takeBlock_length hb) (by omega)

/-- R214: with a block in the queue and blocks left to make, the AES takes it. -/
theorem aesMove_of_block {p : Block} {rest : List Byte} (hg : aesGated s = false) (hst : s.units.aes.st = .work)
    (hlt : s.units.aes.i < s.units.aes.n) (hq : takeBlock s.units.qin = some (p, rest)) : aesMove s = aesBlock p rest s := by
  simp [aesMove, hg, hst, hlt, hq]

/-- R219: with blocks left to make and none in the queue, the AES waits. -/
theorem aesMove_of_noBlock (hg : aesGated s = false) (hst : s.units.aes.st = .work)
    (hlt : s.units.aes.i < s.units.aes.n) (hq : takeBlock s.units.qin = none) : aesMove s = s := by
  simp [aesMove, hg, hst, hlt, hq]

/-- R215: with all blocks made, the AES is done. -/
theorem aesMove_of_all (hg : aesGated s = false) (hst : s.units.aes.st = .work) (hn : s.units.aes.i = s.units.aes.n) :
    aesMove s = aesDone s := by
  simp [aesMove, hg, hst, hn]

/-- Settles O40: the two guards exclude each other, and the queue decides whether there is a block. -/
theorem aesMoves : Obligations.AesMoves := fun s hg hst =>
  ⟨fun p rest hlt hq =>
      congrArg Host.Outcome.next (aesMove_of_block hg hst hlt (by rw [hq, takeBlock_toList_append])),
    fun hlt hq => congrArg Host.Outcome.next (aesMove_of_noBlock hg hst hlt (takeBlock_of_short hq)),
    fun hn => congrArg Host.Outcome.next (aesMove_of_all hg hst hn)⟩

/-- R214, R215: the AES makes a block, is done, or has no move. -/
theorem aesMove_cases (s : State) : aesMove s = s ∨
    (s.units.aes.st = .work ∧ s.units.aes.i < s.units.aes.n ∧ ∃ p rest, aesMove s = aesBlock p rest s) ∨
    (s.units.aes.st = .work ∧ s.units.aes.i = s.units.aes.n ∧ aesMove s = aesDone s) := by
  unfold aesMove
  split
  · exact .inl rfl
  · split
    · exact .inl rfl
    · exact .inl rfl
    · rename_i hst
      split
      · rename_i hlt
        split
        · exact .inr (.inl ⟨hst, hlt, _, _, rfl⟩)
        · exact .inl rfl
      · split
        · exact .inr (.inr ⟨hst, by assumption, rfl⟩)
        · exact .inl rfl

/-- Settles O27: the read is drawn where the unit is gated or misuse has been seen, and gives the agent's state otherwise. -/
theorem aesStateReads : Obligations.AesStateReads := by
  refine fun s => ⟨fun hg hc => ?_, fun hdrawn => ?_⟩
  · have hread : aesStateDrawn s = false := by simp [aesStateDrawn, hg, hc]
    refine ⟨fun hst => ?_, fun hst => ?_, fun hst => ?_⟩ <;> simp [aesStateValue, hread, hst]
  · have hread : aesStateDrawn s = true := by simpa [aesStateDrawn] using hdrawn
    simp [aesStateValue, hread, nextDraw]

/-! ## An AES that follows its registers -/

/-- R213, R214: the AES works, or is done, with the key, the count and the counter block the registers `p` give. -/
def Aes.follows (a : Aes) (p : RegTable) : Prop :=
  a.key = blockOfWords p.aesKey0 p.aesKey1 p.aesKey2 p.aesKey3 ∧
    a.ctr = inc32^[a.i.toNat] (blockOfWords p.aesIv0 p.aesIv1 p.aesIv2 p.aesIv3) ∧
    a.n = p.aesBlockNum ∧ 1 ≤ a.n.toNat ∧ a.n.toNat ≤ 255 ∧ a.i.toNat ≤ a.n.toNat ∧ (a.st = .done → a.i = a.n)

theorem aesFollowsRegisters_iff (s : State) : aesFollowsRegisters s ↔
    (s.ctl.chaos = false → s.units.aes.st ≠ .idle → s.units.aes.follows s.per) := Iff.rfl

/-- The registers an AES follows are AES registers other than the trigger and the exit. -/
theorem Aes.follows_of_regs {a : Aes} {p q : RegTable}
    (h : ∀ r, isAesReg r = true → r ≠ .aesTrigger → r ≠ .aesDmaExit → regGet q r = regGet p r) (ha : a.follows p) :
    a.follows q := by
  have hkey0 : q.aesKey0 = p.aesKey0 := h .aesKey0 rfl nofun nofun
  have hkey1 : q.aesKey1 = p.aesKey1 := h .aesKey1 rfl nofun nofun
  have hkey2 : q.aesKey2 = p.aesKey2 := h .aesKey2 rfl nofun nofun
  have hkey3 : q.aesKey3 = p.aesKey3 := h .aesKey3 rfl nofun nofun
  have hiv0 : q.aesIv0 = p.aesIv0 := h .aesIv0 rfl nofun nofun
  have hiv1 : q.aesIv1 = p.aesIv1 := h .aesIv1 rfl nofun nofun
  have hiv2 : q.aesIv2 = p.aesIv2 := h .aesIv2 rfl nofun nofun
  have hiv3 : q.aesIv3 = p.aesIv3 := h .aesIv3 rfl nofun nofun
  have hnum : q.aesBlockNum = p.aesBlockNum := h .aesBlockNum rfl nofun nofun
  simpa only [Aes.follows, hkey0, hkey1, hkey2, hkey3, hiv0, hiv1, hiv2, hiv3, hnum] using ha

/-- R213: what the trigger latches follows the registers it was latched from, where they hold a count it takes. -/
theorem latched_follows {p : RegTable} (h : badBlockNum p.aesBlockNum = false) : (latched p).follows p := by
  have hcount : p.aesBlockNum ≠ 0 ∧ p.aesBlockNum.toNat ≤ 255 := by simpa [badBlockNum] using h
  have hpos : p.aesBlockNum.toNat ≠ 0 := fun h0 => hcount.1 (BitVec.eq_of_toNat_eq h0)
  exact ⟨rfl, rfl, rfl, Nat.pos_of_ne_zero hpos, hcount.2, Nat.zero_le _, nofun⟩

/-- R214: the next block's counter is the next of the stream. -/
theorem aesBlock_follows (p : Block) (rest : List Byte) (hst : s.units.aes.st = .work) (hlt : s.units.aes.i < s.units.aes.n)
    (h : s.units.aes.follows s.per) : (aesBlock p rest s).units.aes.follows s.per := by
  obtain ⟨hkey, hctr, hnum, hpos, hsmall, -, -⟩ := h
  have hlt' := BitVec.lt_def.1 hlt
  have hi : (s.units.aes.i + 1).toNat = s.units.aes.i.toNat + 1 := by rw [BitVec.toNat_add]; simp; omega
  refine ⟨hkey, ?_, hnum, hpos, hsmall, ?_, fun hdone => ?_⟩
  · show inc32 s.units.aes.ctr = inc32^[(s.units.aes.i + 1).toNat] _
    rw [hi, Function.iterate_succ_apply', hctr]
  · show (s.units.aes.i + 1).toNat ≤ s.units.aes.n.toNat
    omega
  · exact absurd (hst.symm.trans hdone) (by decide)

/-- R214, R215: every move of the AES keeps it on its registers. -/
theorem aesMove_follows (hst : (aesMove s).units.aes.st ≠ .idle)
    (h : s.units.aes.st ≠ .idle → s.units.aes.follows s.per) : (aesMove s).units.aes.follows s.per := by
  obtain e | ⟨hwork, hlt, p, rest, e⟩ | ⟨hwork, hn, e⟩ := aesMove_cases s <;> rw [e] at hst ⊢
  · exact h hst
  · exact aesBlock_follows p rest hwork hlt (h (by rw [hwork]; nofun))
  · obtain ⟨hkey, hctr, hnum, hpos, hsmall, hle, -⟩ := h (by rw [hwork]; nofun)
    exact ⟨hkey, hctr, hnum, hpos, hsmall, hle, fun _ => hn⟩

/-- R230 (a): while the AES is not idle, a micro-op that is no misuse writes none of the registers the AES follows. -/
theorem exec_aesReg (h : exec i s = .next t) (hc : t.ctl.chaos = false) (hst : s.units.aes.st ≠ .idle)
    (hr : isAesReg r = true) (hexit : r ≠ .aesDmaExit) : regGet t.per r = regGet s.per r := by
  refine exec_reg h r fun hw => ?_
  have hchaos := exec_chaos_of_writeChaos hw (by simp [writeChaos_aes s r hr hexit, hst]) h
  rw [hc] at hchaos
  cases hchaos

/-- R213: a trigger that is no misuse found a count from 1 to 255. -/
theorem exec_aesTrigger_blockNum (h : exec .aesTrigger s = .next t) (hc : t.ctl.chaos = false) :
    badBlockNum s.per.aesBlockNum = false := by
  cases h
  simp only [advance_ctl, enterState_ctl, regWrite_trigger_ctl, Bool.or_eq_false_iff] at hc
  exact hc.2.2

/-- R213, R217, R230 (a): a micro-op leaves the AES and its registers, stops it, or starts it with what they hold. -/
theorem exec_aesFollowsRegisters (h : exec i s = .next t) (hs : aesFollowsRegisters s) : aesFollowsRegisters t := by
  rw [aesFollowsRegisters_iff] at hs ⊢
  intro hc hst
  obtain e | e | ⟨-, -, rfl, e⟩ := exec_aes h <;> rw [e] at hst ⊢
  · have hc' : s.ctl.chaos = false := by
      by_contra hne
      rw [exec_chaos h (by simpa using hne)] at hc
      cases hc
    exact Aes.follows_of_regs (fun r hr _ hexit => exec_aesReg h hc hst hr hexit) (hs hc' hst)
  · exact absurd rfl hst
  · refine Aes.follows_of_regs (fun r _ htrigger _ => exec_reg h r ?_) (latched_follows (exec_aesTrigger_blockNum h hc))
    simpa [writtenReg] using htrigger.symm

/-- R214, R231: without misuse the AES changes by its own moves alone. -/
theorem agent_aesFollowsRegisters (hu : isMachineTurn u = true) (hne : u ≠ .seq) (h : takeTurn u s = .next t)
    (hc : s.ctl.chaos = false) (hs : aesFollowsRegisters s) : aesFollowsRegisters t := by
  rw [aesFollowsRegisters_iff] at hs ⊢
  intro _ hst
  have hs := hs hc
  obtain ⟨_, rfl⟩ | ⟨_, rfl⟩ | ⟨_, rfl⟩ | ⟨_, rfl⟩ | ⟨m, _, rfl⟩ := agent_cases hu hne h
  · simp only [doutMove_aes, doutMove_per] at hst ⊢; exact hs hst
  · simp only [dinMove_aes, dinMove_per] at hst ⊢; exact hs hst
  · simp only [dinErrorMove_aes, dinErrorMove_per] at hst ⊢; exact hs hst
  · rw [aesMove_per]; exact aesMove_follows hst hs
  · have hno : chaosMove m s = s := by simp [chaosMove, hc]
    rw [hno] at hst ⊢; exact hs hst

/-- What the invariant speaks of is the units, the registers and whether misuse has been seen. -/
theorem aesFollowsRegisters_of_frame (hunits : t.units = s.units) (hper : t.per = s.per)
    (hc : t.ctl.chaos = false → s.ctl.chaos = false) (hs : aesFollowsRegisters s) : aesFollowsRegisters t := by
  rw [aesFollowsRegisters_iff, hunits, hper]
  exact fun h => hs (hc h)

/-- Every turn keeps the AES on its registers; what is misuse once stays so until a system reset (R49). -/
theorem takeTurn_keeps_aesFollowsRegisters (h : takeTurn u s = .next t) (hs : aesFollowsRegisters s) :
    aesFollowsRegisters t := by
  have hchaos (hu : u ≠ .systemReset) (hc : t.ctl.chaos = false) : s.ctl.chaos = false := by
    by_contra hne
    rw [takeTurn_chaos h hu (by simpa using hne)] at hc
    cases hc
  cases takeTurn_case h with
  | micro _ _ _ he => exact exec_aesFollowsRegisters he hs
  | agent hu hne h =>
    have hreset : u ≠ .systemReset := by rintro rfl; cases hu
    intro hc
    exact agent_aesFollowsRegisters hu hne h (hchaos hreset hc) hs hc
  | start => exact aesFollowsRegisters_of_frame (acceptStart_units ..) (acceptStart_per ..) (hchaos nofun) hs
  | systemReset => exact fun _ hst => absurd rfl hst
  | _ => exact aesFollowsRegisters_of_frame rfl rfl id hs

/-- Settles O55: taking the turn off leaves what the invariant speaks of, and every turn keeps it. -/
theorem aesFollowsItsRegisters : Obligations.AesFollowsItsRegisters := fun _ _ h =>
  step_keeps (fun s hs => aesFollowsRegisters_of_frame (popTurn_units s) (popTurn_per s) (by simp) hs)
    (fun _ _ _ _ ht => takeTurn_keeps_aesFollowsRegisters ht) h

end Sys2Proof.Machine
end

section
/-! The moves of the DMA agents (44_autonomous_units.md R204 to R206, R209 to R212): what a fetch and a write-back do, inside
`P_DMA_REGION` and outside it (R74, R230 (f)), is said once for both agents. -/

namespace Sys2Proof.Machine

variable {s t : State} {a : Nat} {v : Word}

/-! ## The accesses -/

theorem dmaWord_of_inRegion (h : s.cfg.rangeInRegion a 4 = true) : dmaWord a s = s.mem.read32 a := if_pos h

/-- R204, R209: the state after an agent has read the two words of the descriptor at `a`. -/
def afterFetch (a : Nat) (s : State) : State := dmaReadEffect (a + 4) 4 (dmaReadEffect a 4 s)

@[simp] theorem afterFetch_units (a : Nat) (s : State) : (afterFetch a s).units = s.units := by simp [afterFetch]

/-- A fetch inside the region reads the two words and changes nothing. -/
theorem afterFetch_of_inRegion (h0 : s.cfg.rangeInRegion a 4 = true) (h1 : s.cfg.rangeInRegion (a + 4) 4 = true) :
    afterFetch a s = s := by
  rw [afterFetch, dmaReadEffect_of_inRegion _ _ _ h0, dmaReadEffect_of_inRegion _ _ _ h1]

/-- R204, R209, R230 (f): the words a fetch reads, of memory or drawn, and what else it does. -/
theorem fetchesDescriptor_afterFetch (a : Nat) (s : State) :
    fetchesDescriptor a (dmaWord a s) (dmaWord (a + 4) (dmaReadEffect a 4 s)) s (afterFetch a s) := by
  refine ⟨rfl, ?_, ?_, fun _ => by simp [afterFetch], by simp [afterFetch], by simp [afterFetch], by simp [afterFetch],
    by simp [afterFetch], by simp [afterFetch]⟩
  · cases h0 : s.cfg.rangeInRegion a 4 <;> simp [dmaWord, dmaReadEffect, h0, nextDraw]
  · simp [afterFetch, dmaReadEffect_ctl]

/-- R70, R230 (f): a word write of an agent, with its effect inside the region and as misuse outside. -/
theorem writesBack_dmaWriteWord (a : Nat) (v : Word) (s : State) : writesBack a v s.ctl s (dmaWriteWord a v s) := by
  refine ⟨fun hr => ⟨dmaWriteWord_read32 hr v, fun b hb => ?_, ?_⟩, fun hr => ⟨fun b => ?_, ?_⟩, by simp, by simp, by simp,
    by simp, by simp⟩
  · rw [dmaWriteWord_mem, if_pos hr, Memory.read_write32_outside _ _ _ _ hb]
  · simp [dmaWriteWord_ctl, hr]
  · simp [dmaWriteWord_mem, hr]
  · simp [dmaWriteWord_ctl, hr]

/-- R206: misuse seen before the write-back is among the control fields it leaves. -/
theorem writesBack_of_chaosIf {b : Bool} (h : writesBack a v (chaosIf b s).ctl (chaosIf b s) t) :
    writesBack a v { s.ctl with chaos := s.ctl.chaos || b } s t := by
  simpa [writesBack, memSame, memSameOutside] using h

/-! ## DOUT -/

/-- R204: an armed DOUT fetches. -/
theorem doutMove_eq_doutFetch (hg : dmaGated s = false) (hst : s.units.dout.st = .fetch) : doutMove s = doutFetch s := by
  simp [doutMove, hg, hst]

/-- R205: DOUT in SEND sends. -/
theorem doutMove_eq_doutSend (hg : dmaGated s = false) (hst : s.units.dout.st = .send) : doutMove s = doutSend s := by
  simp [doutMove, hg, hst]

theorem doutFetch_eq (s : State) : doutFetch s = (afterFetch s.units.dout.desc.toNat s).setUnits { s.units with
    dout := { s.units.dout with
      w0 := dmaWord s.units.dout.desc.toNat s,
      buf := dmaWord (s.units.dout.desc.toNat + 4) (dmaReadEffect s.units.dout.desc.toNat 4 s),
      k := 0, st := .send } } := by
  simp [doutFetch, afterFetch]

/-- R205: while bytes are left DOUT sends the next one. -/
theorem doutSend_of_lt (hk : s.units.dout.k < dwLength s.units.dout.w0) :
    doutSend s = (dmaReadEffect (s.units.dout.buf.toNat + s.units.dout.k.toNat) 1 s).setUnits { s.units with
      qin := s.units.qin ++ [dmaByte (s.units.dout.buf.toNat + s.units.dout.k.toNat) s],
      dout := { s.units.dout with k := s.units.dout.k + 1 } } := by
  simp [doutSend, hk]

/-- R205: with all bytes sent DOUT goes on to its end. -/
theorem doutSend_of_not_lt (hk : ¬s.units.dout.k < dwLength s.units.dout.w0) :
    doutSend s = s.setUnits { s.units with dout := { s.units.dout with st := .wb } } := if_neg hk

/-- Settles O37: in each state of DOUT its move is the one of that state, with the accesses inside the region or not. -/
theorem doutMoves : Obligations.DoutMoves := by
  intro s hg
  refine ⟨fun hst h0 h1 => ?_, fun hst => ?_, fun hst hk hr => ?_, fun hst hk hr => ?_, fun hst hk => ?_, fun hst => ?_⟩
  · rw [takeTurn, doutMove_eq_doutFetch hg hst, doutFetch_eq, afterFetch_of_inRegion h0 h1, dmaReadEffect_of_inRegion _ _ _ h0,
      dmaWord_of_inRegion h0, dmaWord_of_inRegion h1]
    rfl
  · refine ⟨_, _, _, congrArg Host.Outcome.next (doutMove_eq_doutFetch hg hst), ?_, by rw [doutFetch_eq]; rfl⟩
    rw [doutFetch_eq]
    exact fetchesDescriptor_afterFetch ..
  · rw [takeTurn, doutMove_eq_doutSend hg hst, doutSend_of_lt hk, dmaReadEffect_of_inRegion _ _ _ hr, dmaByte, if_pos hr]
    rfl
  · refine ⟨_, congrArg Host.Outcome.next (doutMove_eq_doutSend hg hst), ?_⟩
    rw [doutSend_of_lt hk]
    refine ⟨?_, ?_, fun _ => by simp, by simp, by simp⟩
    · simp [dmaByte, hr, nextDraw]
    · simp [dmaReadEffect_ctl, hr]
  · rw [takeTurn, doutMove_eq_doutSend hg hst, doutSend_of_not_lt hk]
    rfl
  · refine ⟨_, congrArg Host.Outcome.next (doutMove_of_wb hg hst), ?_, fun hwb => ?_, fun hwb => ?_⟩
    · unfold doutEnd; simp only; split <;> simp
    · simp only [doutEnd, chaosIf_cfg, hwb, if_true, chaosIf_units]
      exact writesBack_of_chaosIf (writesBack_dmaWriteWord ..)
    · simp [doutEnd, hwb, memSame]

/-! ## DIN -/

/-- R209: an armed DIN fetches. -/
theorem dinMove_eq_dinFetch (hg : dmaGated s = false) (hst : s.units.din.st = .fetch) : dinMove s = dinFetch s := by
  simp [dinMove, hg, hst]

/-- R210: DIN in RECV receives the head of `QOUT`. -/
theorem dinMove_eq_dinReceive {b : Byte} {rest : List Byte} (hg : dmaGated s = false) (hst : s.units.din.st = .recv)
    (hq : s.units.qout = b :: rest) : dinMove s = dinReceive b rest s := by
  simp [dinMove, hg, hst, hq]

/-- Log 23: with nothing in `QOUT` and the frame not ended DIN waits. -/
theorem dinMove_of_empty (hg : dmaGated s = false) (hst : s.units.din.st = .recv) (hq : s.units.qout = [])
    (he : s.units.qoutEof = false) : dinMove s = s := by
  simp [dinMove, hg, hst, hq, he]

theorem dinFetch_eq (s : State) : dinFetch s = (afterFetch s.units.din.desc.toNat s).setUnits { s.units with
    din := { s.units.din with
      w0 := dmaWord s.units.din.desc.toNat s,
      buf := dmaWord (s.units.din.desc.toNat + 4) (dmaReadEffect s.units.din.desc.toNat 4 s),
      k := 0, st := .recv } } := by
  simp [dinFetch, afterFetch]

/-- R210: while the buffer has room DIN stores the byte received. -/
theorem dinReceive_of_lt (hk : s.units.din.k < dwSize s.units.din.w0) (b : Byte) (rest : List Byte) :
    dinReceive b rest s = (dmaWriteByte (s.units.din.buf.toNat + s.units.din.k.toNat) b s).setUnits { s.units with
      qout := rest, din := { s.units.din with k := s.units.din.k + 1 } } := by
  simp [dinReceive, hk]

/-- R230 (d): a byte more than the buffer holds is misuse. -/
theorem dinReceive_of_not_lt (hk : ¬s.units.din.k < dwSize s.units.din.w0) (b : Byte) (rest : List Byte) :
    dinReceive b rest s = setChaos s := if_neg hk

/-- Settles O38: DIN's move is its fetch, and then decided by `QOUT`, its count and the region. -/
theorem dinFetchAndReceive : Obligations.DinFetchAndReceive := by
  intro s hg
  refine ⟨fun hst h0 h1 => ?_, fun hst => ?_, fun b rest hst hq hk hr => ?_, fun b rest hst hq hk hr => ?_,
    fun b rest hst hq hk => ?_, fun hst hq he => congrArg Host.Outcome.next (dinMove_of_empty hg hst hq he)⟩
  · rw [takeTurn, dinMove_eq_dinFetch hg hst, dinFetch_eq, afterFetch_of_inRegion h0 h1, dmaReadEffect_of_inRegion _ _ _ h0,
      dmaWord_of_inRegion h0, dmaWord_of_inRegion h1]
    rfl
  · refine ⟨_, _, _, congrArg Host.Outcome.next (dinMove_eq_dinFetch hg hst), ?_, by rw [dinFetch_eq]; rfl⟩
    rw [dinFetch_eq]
    exact fetchesDescriptor_afterFetch ..
  · refine ⟨_, congrArg Host.Outcome.next (dinMove_eq_dinReceive hg hst hq), ?_⟩
    rw [dinReceive_of_lt hk]
    refine ⟨?_, fun a ha => ?_, by simp, ?_, by simp, by simp⟩
    · simp [dmaWriteByte_mem, hr, Memory.read_write_same]
    · have hne : a ≠ s.units.din.buf.toNat + s.units.din.k.toNat := by omega
      simp [dmaWriteByte_mem, hr, Memory.read_write_of_ne _ _ _ _ hne]
    · simp [dmaWriteByte_ctl, hr]
  · refine ⟨_, congrArg Host.Outcome.next (dinMove_eq_dinReceive hg hst hq), ?_⟩
    rw [dinReceive_of_lt hk]
    refine ⟨fun a => ?_, ?_, by simp, by simp, by simp⟩
    · simp [dmaWriteByte_mem, hr]
    · simp [dmaWriteByte_ctl, hr]
  · rw [takeTurn, dinMove_eq_dinReceive hg hst hq, dinReceive_of_not_lt hk]
    rfl

/-- Settles O39: each end is one write of word 0, which then leaves RECV. -/
theorem dinWriteBacks : Obligations.DinWriteBacks := by
  intro s hg hst
  refine ⟨fun hq he => ?_, fun hd => ?_, fun hd => ?_⟩
  · exact ⟨_, congrArg Host.Outcome.next (dinMove_of_eof hg hst hq he), writesBack_dmaWriteWord .., by simp [dinSuccess]⟩
  · exact ⟨_, congrArg Host.Outcome.next (dinErrorMove_of_recv hg hd hst), writesBack_dmaWriteWord .., by simp [dinFail]⟩
  · exact congrArg Host.Outcome.next (if_neg (by simp [dinErrorEnabled, hd]))

end Sys2Proof.Machine
end

section
/-! The bound on a run with a finite poll limit (44_autonomous_units.md R232, 70_reset_and_hazards.md R288): the sequencer's steps
left are counted; the count falls at every step of the sequencer, and no other turn raises it. -/

namespace Sys2Proof.Machine

variable {s t : State} {u : Turn} {i : Instr} {limit : Word}

/-! ## The poll count -/

/-- R93: a micro-op other than the polls leaves the poll count. -/
theorem exec_pollcnt_of_not_poll (h : exec i s = .next t) (haes : i ≠ .pollAes) (hdesc : i ≠ .pollDesc) :
    t.xval .pollcnt = s.xval .pollcnt := by
  cases i <;> simp only [exec] at h
  case chkLen => obtain ⟨r, rfl | rfl, ⟨rfl, _⟩ | ⟨rfl, _⟩ | ⟨rfl, _⟩⟩ := execChkLen_cases h <;> simp
  case chkDma => obtain ⟨r, rfl | rfl, ⟨rfl, _⟩ | ⟨rfl, _⟩ | ⟨rfl, _⟩ | ⟨rfl, _⟩⟩ := execChkDma_cases h <;> simp
  case aesKey n => obtain ⟨_, rfl⟩ | ⟨_, rfl⟩ := execAesKey_cases n h <;> simp
  case pollAes => exact absurd rfl haes
  case pollDesc => exact absurd rfl hdesc
  all_goals
    cases h
    simp [State.xval, Session.get_set_of_ne]

/-- R176: a failed read of a poll is counted, and the poll stays or the run ends. -/
theorem pollMiss_counts (hl : s.cfg.checks.pollLimit = .bounded limit) (info : BitVec 2) :
    (pollMiss info s).xval .pollcnt = s.xval .pollcnt + 1 ∧
      ((pollMiss info s).ctl = s.ctl ∨ (pollMiss info s).ctl.busy = false) := by
  obtain ⟨hcount, hctl⟩ := pollMiss_bounded hl info
  refine ⟨hcount, ?_⟩
  rw [hctl]
  split
  · exact .inr rfl
  · exact .inl rfl

/-- R176, R177: a poll moves on with the count at 0, or counts one more failed read and stays or ends the run. -/
theorem exec_poll_cases (hl : s.cfg.checks.pollLimit = .bounded limit) (hi : i = .pollAes ∨ i = .pollDesc)
    (h : exec i s = .next t) : (t.ctl.upc = s.ctl.upc + 1 ∧ t.xval .pollcnt = 0) ∨
      (t.xval .pollcnt = s.xval .pollcnt + 1 ∧ (t.ctl = s.ctl ∨ t.ctl.busy = false)) := by
  rcases hi with rfl | rfl
  · obtain ⟨_, rfl⟩ | ⟨_, rfl⟩ := execPollAes_cases h
    · exact .inl (by simp)
    · exact .inr (by simpa using pollMiss_counts (s := aesStateRead s) (by simpa using hl) 1)
  · obtain ⟨_, rfl⟩ | ⟨_, rfl⟩ := execPollDesc_cases h
    · exact .inl (by simp)
    · exact .inr (by simpa using pollMiss_counts (s := seqMemRead s.cfg.descIn.toNat s) hl 2)

/-- R97: a micro-op other than the polls goes on to the next one or ends the run. -/
theorem exec_moves_of_not_poll (h : exec i s = .next t) (haes : i ≠ .pollAes) (hdesc : i ≠ .pollDesc) :
    t.ctl.busy = false ∨ (i ≠ .relExit ∧ t.ctl.upc = s.ctl.upc + 1) := by
  obtain ⟨hne, c, e⟩ | ⟨_, _, e, _⟩ | ⟨_, c, e⟩ | ⟨hi, _⟩ := exec_ctl h
  · exact .inr ⟨hne, by rw [e]⟩
  · exact .inl (by rw [e]; rfl)
  · exact .inl (by rw [e])
  · exact (hi.elim haes hdesc).elim

/-! ## The steps left -/

/-- The steps the sequencer has left at most, at index `n` of the ROM with `k` failed reads of the current poll: one for every
micro-op but the polls, and `limit` for a poll (R176). -/
def stepsLeft (limit n k : Nat) : Nat :=
  if n ≤ 34 then 36 - n + 2 * limit - k
  else if n = 35 then 2 + limit - k
  else 38 - n

/-- R96: a step over a micro-op that is no poll is one step. -/
theorem stepsLeft_succ {n k : Nat} (limit : Nat) (hk : k < limit) (hn : n ≤ 36) (hn' : n ≠ 35) :
    stepsLeft limit (n + 1) k < stepsLeft limit n k := by
  unfold stepsLeft; split_ifs <;> omega

/-- R176: the end of a poll gives up the reads it has left. -/
theorem stepsLeft_endPoll {n k : Nat} (limit : Nat) (hk : k < limit) (hn : n = 34 ∨ n = 35) :
    stepsLeft limit (n + 1) 0 < stepsLeft limit n k := by
  unfold stepsLeft; split_ifs <;> omega

/-- R176: a failed read is one step. -/
theorem stepsLeft_missPoll {n k : Nat} (limit : Nat) (hk : k < limit) (hn : n = 34 ∨ n = 35) :
    stepsLeft limit n (k + 1) < stepsLeft limit n k := by
  unfold stepsLeft; split_ifs <;> omega

theorem stepsLeft_pos {n k : Nat} (limit : Nat) (hk : k < limit) (hn : n ≤ 37) : 0 < stepsLeft limit n k := by
  unfold stepsLeft; split_ifs <;> omega

/-! ## The invariant of a bounded run -/

/-- What holds along a run with the poll limit `limit`, while it is in progress and once it has ended. -/
structure BoundedRun (limit : Word) (s : State) : Prop where
  wf : s.cfg.wf = true
  bounded : s.cfg.checks.pollLimit = .bounded limit
  rom : s.rom = seqRom
  control : controlLegal s.ctl
  poll : pollBelowLimit s

/-- The steps the sequencer has left from `s` at most, none once the run has ended. -/
def seqStepsLeft (limit : Word) (s : State) : Nat :=
  if s.ctl.busy then stepsLeft limit.toNat s.ctl.upc.toNat (s.xval .pollcnt).toNat else 0

theorem seqStepsLeft_of_busy (limit : Word) (hb : s.ctl.busy = true) :
    seqStepsLeft limit s = stepsLeft limit.toNat s.ctl.upc.toNat (s.xval .pollcnt).toNat := if_pos hb

theorem seqStepsLeft_of_idle (limit : Word) (hb : s.ctl.busy = false) : seqStepsLeft limit s = 0 := by
  simp [seqStepsLeft, hb]

/-- R176: while the run is in progress it has a step left. -/
theorem BoundedRun.seqStepsLeft_pos (h : BoundedRun limit s) (hb : s.ctl.busy = true) : 0 < seqStepsLeft limit s := by
  rw [seqStepsLeft_of_busy limit hb]
  exact stepsLeft_pos _ (h.poll hb limit h.bounded) (h.control.1 hb).1

/-- R176: a poll count below the limit does not wrap. -/
theorem pollcnt_succ_toNat {k : Word} (h : k.toNat < limit.toNat) : (k + 1).toNat = k.toNat + 1 := by
  have := limit.isLt
  rw [BitVec.toNat_add]; simp; omega

/-- A micro-op of the ROM keeps the invariant and leaves fewer steps. -/
theorem BoundedRun.micro (h : BoundedRun limit s) (hb : s.ctl.busy = true) (ho : romOp s.ctl.upc.toNat = some i)
    (he : exec i s = .next t) : BoundedRun limit t ∧ seqStepsLeft limit t < seqStepsLeft limit s := by
  obtain ⟨hcfg, hrom⟩ := exec_fixed he
  refine ⟨⟨hcfg ▸ h.wf, hcfg ▸ h.bounded, hrom ▸ h.rom, exec_controlLegal he ho hb h.control,
    exec_pollBelowLimit h.wf he hb h.poll⟩, ?_⟩
  have hn := (h.control.1 hb).1
  have hk := h.poll hb limit h.bounded
  have hpos := h.seqStepsLeft_pos hb
  cases hbt : t.ctl.busy with
  | false => rwa [seqStepsLeft_of_idle limit hbt]
  | true =>
    rw [seqStepsLeft_of_busy limit hb, seqStepsLeft_of_busy limit hbt]
    by_cases hi : i = .pollAes ∨ i = .pollDesc
    · have hplace : s.ctl.upc.toNat = 34 ∨ s.ctl.upc.toNat = 35 := by
        have := romOp_polls ⟨s.ctl.upc.toNat, by omega⟩ (by rcases hi with rfl | rfl <;> simp [ho])
        simp only at this; omega
      obtain ⟨hupc, hcount⟩ | ⟨hcount, hctl | hend⟩ := exec_poll_cases h.bounded hi he
      · rw [hupc, hcount, upc_succ_toNat (by omega)]
        exact stepsLeft_endPoll _ hk hplace
      · rw [hctl, hcount, pollcnt_succ_toNat hk]
        exact stepsLeft_missPoll _ hk hplace
      · rw [hbt] at hend; cases hend
    · obtain ⟨haes, hdesc⟩ := not_or.1 hi
      obtain hend | ⟨hne, hupc⟩ := exec_moves_of_not_poll he haes hdesc
      · rw [hbt] at hend; cases hend
      · have hlast := romOp_le_of_ne_relExit hn ho hne
        rw [hupc, exec_pollcnt_of_not_poll he haes hdesc, upc_succ_toNat hlast]
        refine stepsLeft_succ _ hk hlast fun h35 => hdesc ?_
        rw [h35] at ho
        exact Option.some.inj (ho.symm.trans (by decide))

/-- A turn that leaves the sequencer alone keeps the invariant and the steps left. -/
theorem BoundedRun.of_frame (h : BoundedRun limit s) (hcfg : t.cfg = s.cfg) (hrom : t.rom = s.rom) (hx : t.x = s.x)
    (hctl : ∃ c, t.ctl = { s.ctl with chaos := c }) : BoundedRun limit t ∧ seqStepsLeft limit t = seqStepsLeft limit s := by
  obtain ⟨c, hctl⟩ := hctl
  have hpoll : t.xval .pollcnt = s.xval .pollcnt := by rw [State.xval, hx, State.xval]
  refine ⟨⟨hcfg ▸ h.wf, hcfg ▸ h.bounded, hrom ▸ h.rom, ?_, ?_⟩, ?_⟩
  · simpa only [controlLegal, hctl] using h.control
  · simpa only [pollBelowLimit, hctl, hcfg, hpoll] using h.poll
  · simp only [seqStepsLeft, hctl, hpoll]

/-- The sequencer's turn does not stop the machine; while the run is in progress it leaves fewer steps. -/
theorem BoundedRun.seq (h : BoundedRun limit s) : ∃ t, takeTurn .seq s = .next t ∧ BoundedRun limit t ∧
    seqStepsLeft limit t ≤ seqStepsLeft limit s - 1 := by
  cases hb : s.ctl.busy with
  | false => exact ⟨s, by simp [takeTurn, seqTurn, hb], h, by simp [seqStepsLeft_of_idle limit hb]⟩
  | true =>
    have hlt : s.ctl.upc.toNat < seqRom.length := Nat.lt_succ_of_le (h.control.1 hb).1
    have hc : seqRom[s.ctl.upc.toNat]? = some seqRom[s.ctl.upc.toNat] := List.getElem?_eq_getElem hlt
    obtain ⟨i, hi⟩ := seqRom_decodes (h.control.1 hb).1 hc
    obtain ⟨t, ht⟩ := exec_next (s := s) i
    obtain ⟨hrun, hless⟩ := h.micro hb (romOp_of hc hi) ht
    exact ⟨t, by rw [takeTurn_seq hb (by rw [h.rom, hc]) hi, ht], hrun, Nat.le_sub_one_of_lt hless⟩

/-- R231, R36: a move of an agent is such a turn. -/
theorem BoundedRun.agent (h : BoundedRun limit s) (hu : isMachineTurn u = true) (hne : u ≠ .seq)
    (ht : takeTurn u s = .next t) : BoundedRun limit t ∧ seqStepsLeft limit t = seqStepsLeft limit s := by
  obtain ⟨hcfg, hrom, hx, _, _, _, c, hctl⟩ := agentsLeaveTheSequencerAlone u s t hu hne ht
  exact h.of_frame hcfg hrom hx ⟨_, hctl⟩

/-- No other turn of a run stops the machine, ends the invariant or changes the steps left. -/
theorem BoundedRun.other (h : BoundedRun limit s) (hu : staysInRun u = true) (hne : u ≠ .seq) :
    ∃ t, takeTurn u s = .next t ∧ BoundedRun limit t ∧ seqStepsLeft limit t = seqStepsLeft limit s := by
  cases u with
  | seq => exact absurd rfl hne
  | start => cases hu
  | systemReset => cases hu
  | store a b =>
    refine ⟨_, rfl, ?_⟩
    obtain e | ⟨_, e⟩ := hostStore_cases a b s <;> rw [e]
    · exact ⟨h, rfl⟩
    · exact h.of_frame rfl rfl rfl ⟨_, rfl⟩
  | _ => exact ⟨_, rfl, h.agent rfl hne rfl⟩

/-- R170: an accepted start begins a bounded run with all its steps left. -/
theorem BoundedRun.start (key iv : Block) (pt ct bc : Word) (hw : s.cfg.wf = true)
    (hl : s.cfg.checks.pollLimit = .bounded limit) (hrom : s.rom = seqRom) :
    BoundedRun limit (acceptStart key iv pt ct bc s) ∧
      seqStepsLeft limit (acceptStart key iv pt ct bc s) = 36 + 2 * limit.toNat := by
  obtain ⟨c, hctl⟩ := acceptStart_ctl key iv pt ct bc s
  refine ⟨⟨by simpa using hw, by simpa using hl, by simpa using hrom, ?_, fun _ n hn => ?_⟩, ?_⟩
  · rw [hctl]
    exact ⟨fun _ => ⟨by simp, rfl, rfl, rfl⟩, nofun⟩
  · rw [acceptStart_pollcnt]
    exact Params.wf_pollLimit hw n (by simpa using hn)
  · rw [seqStepsLeft_of_busy limit (by rw [hctl]), acceptStart_pollcnt, hctl]
    rfl

/-- By induction on the turns: with as many turns of the sequencer as it has steps left, the run ends. -/
theorem BoundedRun.ends (ts : List Turn) : ∀ s : State, BoundedRun limit s → (∀ u ∈ ts, staysInRun u = true) →
    seqStepsLeft limit s ≤ ts.count .seq → ∃ t, runTurns ts s = some t ∧ t.ctl.busy = false := by
  induction ts with
  | nil =>
    intro s h _ hleft
    refine ⟨s, rfl, ?_⟩
    by_contra hb
    have := h.seqStepsLeft_pos (by simpa using hb)
    simp at hleft; omega
  | cons u ts ih =>
    intro s h hstays hleft
    have hrest : ∀ v ∈ ts, staysInRun v = true := fun v hv => hstays v (List.mem_cons_of_mem u hv)
    by_cases hu : u = .seq
    · subst hu
      obtain ⟨q, hq, hrun, hless⟩ := h.seq
      rw [List.count_cons_self] at hleft
      obtain ⟨t, ht, hend⟩ := ih q hrun hrest (by omega)
      exact ⟨t, by simp only [runTurns, hq, ht], hend⟩
    · obtain ⟨q, hq, hrun, hsame⟩ := h.other (hstays u List.mem_cons_self) hu
      rw [List.count_cons_of_ne hu] at hleft
      obtain ⟨t, ht, hend⟩ := ih q hrun hrest (by omega)
      exact ⟨t, by simp only [runTurns, hq, ht], hend⟩

/-- Settles O57: the accepted start has `36 + 2·N` steps left, and the turns hold as many of the sequencer's. -/
theorem everyBoundedRunEnds : Obligations.EveryBoundedRunEnds := by
  intro s key iv pt ct bc limit ts hw hl hrom hb hstays hcount
  obtain ⟨hrun, hsteps⟩ := BoundedRun.start key iv pt ct bc hw hl hrom
  obtain ⟨t, ht, hend⟩ := hrun.ends ts _ hstays (hsteps ▸ hcount)
  exact ⟨t, by simp only [runTurns, takeTurn_start hb, ht], hend⟩

end Sys2Proof.Machine
end

section
/-! The exceptions (60_exceptions.md R240 to R247): the micro-op that raises one, with its cause, and what it has done before the
raise; the raise itself is `takeException`. -/

namespace Sys2Proof.Machine

variable {s t r : State} {i : Instr} {e : Exc} {info : BitVec 2}

/-! ## Causes -/

/-- R240: the micro-op `i` has in `s` the cause of the exception `e` with the detail `info`. -/
inductive RaiseCause (s : State) : Instr → Exc → BitVec 2 → Prop where
  | tooLong (hon : s.cfg.checks.checkLength = true) (hlong : 255 < (s.xval .bc).toNat) :
      RaiseCause s .chkLen .invalidLength 0
  | aesTimeout (hlimit : s.cfg.checks.pollLimit = .bounded (s.xval .pollcnt + 1)) :
      RaiseCause s .pollAes .hardwareTimeout 1
  | descTimeout (hlimit : s.cfg.checks.pollLimit = .bounded (s.xval .pollcnt + 1)) :
      RaiseCause s .pollDesc .hardwareTimeout 2
  | errEof (hon : s.cfg.checks.checkErrEof = true) (herr : dwErrEof (s.xval .dw0) = true) :
      RaiseCause s .chkDma .dmaFault 1
  | fifoFault (hon : s.cfg.checks.fifoCheck = true) (hundrained : drained s = false) :
      RaiseCause s .chkDma .dmaFault 2

/-- R93: a micro-op that can raise makes no write. -/
theorem RaiseCause.event_read {cfg : Params} {ev : BusEvent} (h : RaiseCause s i e info) (hev : allowedEvent i cfg ev) :
    ∃ a, ev = .read a := by
  cases ev with
  | read a => exact ⟨a, rfl⟩
  | write a v => cases h <;> simp [allowedEvent, writtenReg] at hev

/-! ## Before the raise -/

/-- R241: what a raising micro-op may have done before the raise: of the session registers at most `POLLCNT` changed, and the
control fields, the peripheral registers, the units and memory are as before. -/
structure OnlyPollcnt (s r : State) : Prop where
  ctl : r.ctl = s.ctl
  per : r.per = s.per
  units : r.units = s.units
  mem : r.mem = s.mem
  x : xSameBut s r [.pollcnt]

theorem OnlyPollcnt.of_reads (hctl : r.ctl = s.ctl) (hper : r.per = s.per) (hunits : r.units = s.units) (hmem : r.mem = s.mem)
    (hx : r.x = s.x) : OnlyPollcnt s r :=
  ⟨hctl, hper, hunits, hmem, fun q _ => by rw [hx]⟩

/-- R22: noting the read of a session register changes at most `F`. -/
theorem OnlyPollcnt.of_noteRead {q : XReg} (h : r = s ∨ r = noteRead q s) : OnlyPollcnt s r := by
  rcases h with rfl | rfl <;> exact .of_reads (by simp) (by simp) (by simp) (by simp) (by simp)

theorem OnlyPollcnt.readFifoStatus (h : OnlyPollcnt s r) : OnlyPollcnt s (fifoStatusRead r) :=
  ⟨h.ctl, h.per, h.units, h.mem, h.x⟩

/-- R176: a failed read is counted in the poll count. -/
theorem OnlyPollcnt.count (h : OnlyPollcnt s r) (v : Word) :
    OnlyPollcnt s (writeX .pollcnt v (noteRead .pollcnt r)) where
  ctl := by simpa using h.ctl
  per := by simpa using h.per
  units := by simpa using h.units
  mem := by simpa using h.mem
  x q hq := by
    have hne : q ≠ .pollcnt := by simpa using hq
    simpa [Session.get_set_of_ne _ _ q _ hne] using h.x q hq

/-- R220: whether the engine is drained depends on the units and `s.chaos`. -/
theorem OnlyPollcnt.drained_eq (h : OnlyPollcnt s r) : drained r = drained s := by simp [drained, h.units, h.ctl]

/-- R220: a drained engine reports no fault. -/
theorem drained_eq_false_of_fifoFaultSeen (h : fifoFaultSeen s = true) : drained s = false := by
  cases hd : drained s with
  | false => rfl
  | true => simp [(fifoFaultSeen_spec s).1 hd] at h

/-! ## The raise -/

/-- R26: the completion of a micro-op does not lead into ERROR. -/
theorem completedState_ne_error {q : SeqState} (hq : q ≠ .error) : completedState i q ≠ .error := by
  fun_cases completedState i q <;> simp [hq]

/-- R97: four of the micro-ops can raise. -/
theorem raiser_of_exec_error (h : exec i s = .next t) (hs : s.ctl.state ≠ .error) (ht : t.ctl.state = .error) :
    i = .chkLen ∨ i = .pollAes ∨ i = .pollDesc ∨ i = .chkDma := by
  obtain ⟨_, c, hctl⟩ | ⟨_, _, _, hi⟩ | ⟨_, c, hctl⟩ | ⟨_, hctl⟩ := exec_ctl h
  · exact absurd (by simpa [hctl] using ht) (completedState_ne_error hs)
  · tauto
  · simp [hctl] at ht
  · exact absurd (hctl ▸ ht) hs

/-- R173: `chk.len` raises for a length that does not fit. -/
theorem execChkLen_raises (h : execChkLen s = .next t) (hs : s.ctl.state ≠ .error) (ht : t.ctl.state = .error) :
    RaiseCause s .chkLen .invalidLength 0 ∧ ∃ r, OnlyPollcnt s r ∧ t = takeException .invalidLength 0 r := by
  obtain ⟨r, hr, ⟨rfl, _⟩ | ⟨rfl, hon, hlong⟩ | ⟨rfl, _⟩⟩ := execChkLen_cases h
  · simp at ht
  · exact ⟨.tooLong hon hlong, r, .of_noteRead hr, rfl⟩
  · exact absurd ((OnlyPollcnt.of_noteRead hr).ctl ▸ ht) hs

/-- R178: `chk.dma` raises for an error end, or for a FIFO fault. -/
theorem execChkDma_raises (h : execChkDma s = .next t) (ht : t.ctl.state = .error) :
    ∃ info, RaiseCause s .chkDma .dmaFault info ∧ ∃ r, OnlyPollcnt s r ∧ t = takeException .dmaFault info r := by
  obtain ⟨r, hr, ⟨rfl, hon, herr⟩ | ⟨rfl, hon, hseen⟩ | ⟨rfl, _⟩ | ⟨rfl, _⟩⟩ := execChkDma_cases h
  · exact ⟨1, .errEof hon herr, r, .of_noteRead hr, rfl⟩
  · have hsame := OnlyPollcnt.of_noteRead hr
    exact ⟨2, .fifoFault hon (hsame.drained_eq ▸ drained_eq_false_of_fifoFaultSeen hseen), _, hsame.readFifoStatus, rfl⟩
  · simp at ht
  · simp at ht

/-- R176, R177: a failed read of a poll raises where it is the last the limit allows. -/
theorem pollMiss_raises (hs : s.ctl.state ≠ .error) (ht : (pollMiss info s).ctl.state = .error) :
    s.cfg.checks.pollLimit = .bounded (s.xval .pollcnt + 1) ∧
      pollMiss info s = takeException .hardwareTimeout info (writeX .pollcnt (s.xval .pollcnt + 1) (noteRead .pollcnt s)) := by
  obtain ⟨_, hmiss⟩ | ⟨n, hn, ⟨rfl, hmiss⟩ | ⟨_, hmiss⟩⟩ := pollMiss_cases info s
  · exact absurd (hmiss ▸ ht) hs
  · exact ⟨hn, hmiss⟩
  · rw [hmiss] at ht
    simp [hs] at ht

/-- R176: `poll.aes` raises on a failed read alone. -/
theorem execPollAes_raises (h : execPollAes s = .next t) (hs : s.ctl.state ≠ .error) (ht : t.ctl.state = .error) :
    RaiseCause s .pollAes .hardwareTimeout 1 ∧ ∃ r, OnlyPollcnt s r ∧ t = takeException .hardwareTimeout 1 r := by
  obtain ⟨_, rfl⟩ | ⟨_, rfl⟩ := execPollAes_cases h
  · simp at ht
  · obtain ⟨hlimit, hmiss⟩ := pollMiss_raises (by simpa using hs) ht
    have hread : OnlyPollcnt s (aesStateRead s) := .of_reads (by simp) (by simp) (by simp) (by simp) (by simp)
    exact ⟨.aesTimeout (by simpa using hlimit), _, hread.count _, hmiss⟩

/-- R177: `poll.desc` raises on a failed read alone. -/
theorem execPollDesc_raises (h : execPollDesc s = .next t) (hs : s.ctl.state ≠ .error) (ht : t.ctl.state = .error) :
    RaiseCause s .pollDesc .hardwareTimeout 2 ∧ ∃ r, OnlyPollcnt s r ∧ t = takeException .hardwareTimeout 2 r := by
  obtain ⟨_, rfl⟩ | ⟨_, rfl⟩ := execPollDesc_cases h
  · exact absurd ht hs
  · obtain ⟨hlimit, hmiss⟩ := pollMiss_raises (s := seqMemRead s.cfg.descIn.toNat s) hs ht
    have hread : OnlyPollcnt s (seqMemRead s.cfg.descIn.toNat s) := .of_reads rfl rfl rfl rfl rfl
    exact ⟨.descTimeout hlimit, _, hread.count _, hmiss⟩

/-- R240, R241: a micro-op that takes the machine into ERROR has the cause of an exception, and ends with its raise. -/
theorem exec_raises (h : exec i s = .next t) (hs : s.ctl.state ≠ .error) (ht : t.ctl.state = .error) :
    ∃ e info, RaiseCause s i e info ∧ ∃ r, OnlyPollcnt s r ∧ t = takeException e info r := by
  obtain rfl | rfl | rfl | rfl := raiser_of_exec_error h hs ht
  · exact ⟨_, _, execChkLen_raises h hs ht⟩
  · exact ⟨_, _, execPollAes_raises h hs ht⟩
  · exact ⟨_, _, execPollDesc_raises h hs ht⟩
  · exact ⟨_, execChkDma_raises h ht⟩

/-- Settles O30: before the raise at most the poll count changed, and the raise changes control fields only. -/
theorem exceptionEntry : Obligations.ExceptionEntry := by
  intro i s t h hs ht
  obtain ⟨e, info, hcause, r, hr, rfl⟩ := exec_raises h hs ht
  obtain ⟨_, hallowed⟩ := transactionsAreThoseOfTheRow i s _ h
  have hupc : r.ctl.upc = s.ctl.upc := by rw [hr.ctl]
  refine ⟨rfl, hupc, hupc, ?_, by simp [hr.ctl], hr.per, hr.units, fun b => by simp [hr.mem], hr.x,
    fun ev hev => hcause.event_read (hallowed ev hev)⟩
  cases e <;> simp [excStatus]

/-- R24, R241: what the host reads after a raise. -/
theorem takeException_hostView (e : Exc) (info : BitVec 2) (r : State) :
    hostView (takeException e info r) = (8, false, statusCode (excStatus e), info, r.ctl.upc) := rfl

/-- Settles O31: each exception has its cause, and the raise fixes what the host reads. -/
theorem exceptionTaxonomy : Obligations.ExceptionTaxonomy := by
  intro i s t h hs ht
  obtain ⟨e, info, hcause, r, hr, rfl⟩ := exec_raises h hs ht
  have hview := takeException_hostView e info r
  rw [hr.ctl] at hview
  cases hcause with
  | tooLong hon hlong => exact .inl ⟨rfl, rfl, rfl, hon, hlong, hview⟩
  | aesTimeout hlimit => exact .inr (.inl ⟨rfl, rfl, rfl, hlimit, hview⟩)
  | descTimeout hlimit => exact .inr (.inr (.inl ⟨rfl, rfl, rfl, hlimit, hview⟩))
  | errEof hon herr => exact .inr (.inr (.inr (.inl ⟨rfl, rfl, rfl, hon, herr, hview⟩)))
  | fifoFault hon hundrained => exact .inr (.inr (.inr (.inr ⟨rfl, rfl, rfl, hon, hundrained, hview⟩)))

end Sys2Proof.Machine
end

section
/-! Two successful runs on the same plaintext (R273): each ciphertext byte is a function of the key, the counter block and its own
plaintext byte alone (43_orchestrator.md R181). -/

namespace Sys2Proof.Machine

/-- R181: byte `n` of the ciphertext buffer is byte `n % 16` of the encryption of block `n / 16`. -/
theorem successfulRun_read_ct {s t : State} {key iv : Block} {pt ct bc : Word} {ts : List Turn}
    (h : successfulRun s key iv pt ct bc ts t) {n : Nat} (hn : n < 16 * bc.toNat) :
    t.mem.read (ct.toNat + n) =
      ctrByte (fun m => s.mem.read (pt.toNat + m)) key iv (n / 16) ⟨n % 16, Nat.mod_lt n (by decide)⟩ := by
  obtain ⟨hcipher, -⟩ := successfulRunWritesTheCiphertext s t key iv pt ct bc ts h
  rw [← hcipher _ _ (by omega : n / 16 < bc.toNat), Nat.add_assoc, Nat.div_add_mod]

/-- A byte of the CTR encryption depends on the plaintext in its own place only. -/
theorem ctrByte_congr {p q : Nat → Byte} (key iv : Block) {i : Nat} {j : Fin 16}
    (h : p (16 * i + j.val) = q (16 * i + j.val)) : ctrByte p key iv i j = ctrByte q key iv i j := by
  rw [ctrByte, ctrByte, h]

/-- Settles O59: both runs store the same CTR encryption, byte by byte. -/
theorem rerunGivesTheSameCiphertext : Obligations.RerunGivesTheSameCiphertext := by
  intro s t s' t' key iv pt ct pt' ct' bc ts ts' h h' hplain n hn
  rw [successfulRun_read_ct h hn, successfulRun_read_ct h' hn]
  apply ctrByte_congr
  rw [Nat.div_add_mod]
  exact hplain n hn

end Sys2Proof.Machine
end
